-- ==== Sys2Proof/Word.lean ====
section
/-! DEFINITION. The bit-vector types of the machine (spec/00_scope.md R7: a byte is 8 bits, a halfword 16, a word 32;
there are 32 general registers) and the plainest arithmetic on them. -/

namespace Sys2Proof

/-- A byte: 8 bits (00_scope.md R7). -/
abbrev Byte := BitVec 8

/-- A halfword: 16 bits (00_scope.md R7). -/
abbrev Half := BitVec 16

/-- A word: 32 bits (00_scope.md R7); registers, addresses and instructions are words. -/
abbrev Word := BitVec 32

/-- A register number 0..31: a 5-bit specifier field of an instruction (30_encoding.md R103). -/
abbrev Reg := BitVec 5

/-- A coprocessor unit number z = 0..3 (00_scope.md R7). -/
abbrev Unit4 := BitVec 2

/-- The link register r31 (10_state.md R22). -/
abbrev linkReg : Reg := 31

end Sys2Proof
end

