-- ==== Sys2Proof/Config.lean ====
section
/-! DEFINITION. What an implementation fixes (the parameters of spec/00_scope.md R8, held in one plain record that a
state carries and no step changes) and the free values: one opaque constant that stands for every value the spec leaves
undefined. -/

namespace Sys2Proof

/-- The function codes of MULT and MULTU (30_encoding.md R129, parameter MULDIV_ENCODING): as the source prints them, or
as the MIPS I instruction set has them. -/
inductive MulDivEncoding where
  | source
  | mips1
  deriving DecidableEq, Repr

/-- What becomes of a word with a constant-zero field that is not zero (30_encoding.md R121, parameter
RESERVED_FIELD_POLICY). -/
inductive ReservedFieldPolicy where
  | refuse
  | ri
  | ignore
  deriving DecidableEq, Repr

/-- The two settings of TRAP.MODE (60_exceptions.md R300). -/
inductive TrapMode where
  | vectored
  | terminal
  deriving DecidableEq, Repr

/-- The kind of a memory access (20_memory.md R76). -/
inductive AccessKind where
  | load
  | store
  | fetch
  deriving DecidableEq, Repr

/-- A range of physical addresses, both ends included, at which the platform answers one kind of access with a bus
error (20_memory.md R79, the oracle BUS_ERROR written out as data). -/
structure BusRegion where
  first : Nat
  last : Nat
  kind : AccessKind
  deriving DecidableEq, Repr

/-- A range of physical addresses, both ends included. -/
structure AddressRange where
  first : Nat
  last : Nat
  deriving DecidableEq, Repr

/-- The range of a segment, both ends included, in word numbers: the word `w` is the four bytes from `4 * w` up. A segment
is made of whole words, since every access is to one aligned word (20_memory.md R67, R80; log entry 22). -/
structure Segment where
  firstWord : BitVec 30
  lastWord : BitVec 30
  deriving DecidableEq, Repr

/-- SEGMENTS: the address ranges of kuseg, kseg0, kseg1 and kseg2 (00_scope.md R8, 20_memory.md R62). -/
structure Segments where
  kuseg : Segment
  kseg0 : Segment
  kseg1 : Segment
  kseg2 : Segment
  deriving DecidableEq, Repr

/-- What TRAP holds for one exception: TRAP.CODE[e] (60_exceptions.md R301) and `vector(e)`, with SR.BEV = 0 and with
SR.BEV = 1 (60_exceptions.md R322). -/
structure ExceptionEntry where
  code : BitVec 5
  vector : Word
  bootVector : Word
  deriving DecidableEq, Repr

/-- The fields of Status whose places are not the source's (10_state.md R36). Its low six bits are the three pairs current,
previous and old, in that order (10_state.md R35). -/
structure StatusLayout where
  /-- Within a pair the kernel/user bit is the upper one, and the interrupt enable the lower. -/
  kernelUserUpper : Bool
  /-- The lowest bit of the interrupt mask. -/
  im : Nat
  /-- BEV. -/
  bev : Nat
  /-- Cu0; Cu[z] is z bits above. -/
  cu : Nat
  deriving DecidableEq, Repr

/-- The lowest bit of each field of Cause (10_state.md R38). -/
structure CauseLayout where
  bd : Nat
  ce : Nat
  ip : Nat
  excCode : Nat
  deriving DecidableEq, Repr

/-- TRAP (00_scope.md R8): the mode, the vectors, the cause codes, the CP0 register numbers and the bit positions. -/
structure Trap where
  /-- TRAP.MODE (60_exceptions.md R300). -/
  mode : TrapMode
  /-- TRAP.RESET_VECTOR (70_reset_and_hazards.md R351). -/
  resetVector : Word
  interrupt : ExceptionEntry
  addressErrorLoad : ExceptionEntry
  addressErrorStore : ExceptionEntry
  busErrorFetch : ExceptionEntry
  busErrorData : ExceptionEntry
  systemCall : ExceptionEntry
  breakpoint : ExceptionEntry
  reservedInstruction : ExceptionEntry
  coprocessorUnusable : ExceptionEntry
  overflow : ExceptionEntry
  /-- The numbers of the CP0 registers (10_state.md R36 to R38). -/
  statusNumber : Reg
  causeNumber : Reg
  epcNumber : Reg
  badVAddrNumber : Reg
  prIdNumber : Reg
  bpcNumber : Reg
  bdaNumber : Reg
  dcicNumber : Reg
  status : StatusLayout
  cause : CauseLayout
  deriving DecidableEq, Repr

/-- The parameters of 00_scope.md R8 that stay the same for a whole run. A state carries one such record, so a statement
about every state is a statement about every setting of the parameters. -/
structure Config where
  /-- BIG_ENDIAN (R8, 10_state.md R44): true is big-endian. -/
  bigEndian : Bool
  /-- COP_SUPPORTED[z] (R8); bit 0 is not looked at. -/
  copSupported : BitVec 4
  /-- BCZ_VALID[z] (R8); bit 0 is not looked at: z = 0 is always valid. -/
  bczValid : BitVec 4
  /-- MULDIV_ENCODING (R8, 30_encoding.md R129). -/
  mulDivEncoding : MulDivEncoding
  /-- RESERVED_FIELD_POLICY (R8, 30_encoding.md R121). -/
  reservedFieldPolicy : ReservedFieldPolicy
  /-- SEGMENTS (R8, 20_memory.md R62). -/
  segments : Segments
  /-- TRAP (R8, 60_exceptions.md). -/
  trap : Trap
  /-- DIV_CORNER, the quotient of -2^31 by -1 (43_computational_muldiv.md R215). -/
  divCornerLo : Word
  /-- DIV_CORNER, the remainder of -2^31 by -1 (43_computational_muldiv.md R215). -/
  divCornerHi : Word
  /-- BUS_ERROR(paddr, kind) (20_memory.md R79). -/
  busErrors : List BusRegion
  deriving DecidableEq, Repr

/-- The default of SEGMENTS: kuseg 00000000 to 7FFFFFFF, kseg0 80000000 to 9FFFFFFF, kseg1 A0000000 to BFFFFFFF, kseg2
C0000000 to FFFFFFFF (20_memory.md R62). -/
def Segments.default : Segments where
  kuseg := ⟨0x00000000, 0x1FFFFFFF⟩
  kseg0 := ⟨0x20000000, 0x27FFFFFF⟩
  kseg1 := ⟨0x28000000, 0x2FFFFFFF⟩
  kseg2 := ⟨0x30000000, 0x3FFFFFFF⟩

/-- The default of what TRAP holds for an exception with this code: one vector for all (60_exceptions.md R322). -/
def ExceptionEntry.general (code : BitVec 5) : ExceptionEntry := ⟨code, 0x80000080, 0xBFC00180⟩

/-- The default of TRAP (10_state.md R36 to R38; 60_exceptions.md R301, R322; 70_reset_and_hazards.md R351). -/
def Trap.default : Trap where
  mode := .vectored
  resetVector := 0xBFC00000
  interrupt := .general 0
  addressErrorLoad := .general 4
  addressErrorStore := .general 5
  busErrorFetch := .general 6
  busErrorData := .general 7
  systemCall := .general 8
  breakpoint := .general 9
  reservedInstruction := .general 10
  coprocessorUnusable := .general 11
  overflow := .general 12
  statusNumber := 12
  causeNumber := 13
  epcNumber := 14
  badVAddrNumber := 8
  prIdNumber := 15
  bpcNumber := 3
  bdaNumber := 5
  dcicNumber := 7
  status := { kernelUserUpper := true, im := 8, bev := 22, cu := 28 }
  cause := { bd := 31, ce := 28, ip := 8, excCode := 2 }

/-- The defaults of 00_scope.md R8. The byte order has no default there (OPEN, decision D9): big-endian here is a
DESIGN CHOICE (log entry 1). -/
def Config.default : Config where
  bigEndian := true
  copSupported := 0
  bczValid := 1
  mulDivEncoding := .source
  reservedFieldPolicy := .refuse
  segments := .default
  trap := .default
  divCornerLo := 0x80000000
  divCornerHi := 0
  busErrors := []

/-- What a free value is drawn for. Within one step two uses are two different draws. -/
inductive FreeUse where
  /-- The rs (or base) operand, stale in a load's delay step (10_state.md R40). -/
  | staleRs
  /-- The rt operand, stale in a load's delay step (10_state.md R40). -/
  | staleRt
  /-- MFHI of an undefined HI (10_state.md R25). -/
  | readHi
  /-- MFLO of an undefined LO (10_state.md R25). -/
  | readLo
  /-- What HI holds when it becomes undefined (R25 b, c). -/
  | lostHi
  /-- What LO holds when it becomes undefined (R25 b, c). -/
  | lostLo
  /-- The register an MFHI or MFLO wrote too shortly before a write of HI or LO (70_reset_and_hazards.md R365). -/
  | hiLoResult (rd : Reg)
  /-- The link of JALR with rs = rd (44_jump_branch.md R234). -/
  | jalrLink
  /-- The target of JALR with rs = rd (44_jump_branch.md R234). -/
  | jalrTarget
  /-- The condition of BCzF or BCzT for a line the part does not have (45_coprocessor.md R262). -/
  | condition (z : Unit4)
  /-- MFC0 of a register whose value is open (46_coprocessor0.md R277, R279). -/
  | readCp0 (rd : Reg)
  /-- BadVAddr after an MTC0 that names it (46_coprocessor0.md R278). -/
  | writtenBadVAddr
  /-- MFCz of an unsupported coprocessor (45_coprocessor.md R264). -/
  | readCop (z : Unit4) (rd : Reg)
  /-- The register an MTCz of an unsupported coprocessor writes (45_coprocessor.md R265). -/
  | writtenCop (z : Unit4) (rd : Reg)
  /-- A bit of Status that the instruction before, an MTC0, changed (46_coprocessor0.md R279). -/
  | statusBit (k : Nat)
  /-- A byte of memory outside the launch image, or one that nothing has written (20_memory.md R81). -/
  | platformByte (address : Nat)
  deriving DecidableEq, Repr

/-- The value drawn at step `tick` for `purpose`: it has no body, so nothing can be proved of what it is. -/
opaque Config.freeValue (tick : Nat) (purpose : FreeUse) : Word

end Sys2Proof
end

