-- ==== Sys2Proof/Syntax.lean ====
section
/-! DEFINITION. The instructions: one constructor per row of spec/opcode_table.json, in the table's order, with the
operands in the order of the assembler's syntax line (30_encoding.md R131). -/

namespace Sys2Proof

/-- The 75 instructions of spec/opcode_table.json. Every operand has exactly the width of its field. -/
inductive Instr where
  /-- `LB rt, offset(base)` (R141). -/
  | lb (rt : Reg) (offset : BitVec 16) (base : Reg)
  /-- `LBU rt, offset(base)` (R142). -/
  | lbu (rt : Reg) (offset : BitVec 16) (base : Reg)
  /-- `LH rt, offset(base)` (R143). -/
  | lh (rt : Reg) (offset : BitVec 16) (base : Reg)
  /-- `LHU rt, offset(base)` (R144). -/
  | lhu (rt : Reg) (offset : BitVec 16) (base : Reg)
  /-- `LW rt, offset(base)` (R145). -/
  | lw (rt : Reg) (offset : BitVec 16) (base : Reg)
  /-- `LWL rt, offset(base)` (R146). -/
  | lwl (rt : Reg) (offset : BitVec 16) (base : Reg)
  /-- `LWR rt, offset(base)` (R147). -/
  | lwr (rt : Reg) (offset : BitVec 16) (base : Reg)
  /-- `SB rt, offset(base)` (R148). -/
  | sb (rt : Reg) (offset : BitVec 16) (base : Reg)
  /-- `SH rt, offset(base)` (R149). -/
  | sh (rt : Reg) (offset : BitVec 16) (base : Reg)
  /-- `SW rt, offset(base)` (R150). -/
  | sw (rt : Reg) (offset : BitVec 16) (base : Reg)
  /-- `SWL rt, offset(base)` (R151). -/
  | swl (rt : Reg) (offset : BitVec 16) (base : Reg)
  /-- `SWR rt, offset(base)` (R152). -/
  | swr (rt : Reg) (offset : BitVec 16) (base : Reg)
  /-- `ADDI rt, rs, immediate` (R171). -/
  | addi (rt rs : Reg) (imm : BitVec 16)
  /-- `ADDIU rt, rs, immediate` (R172). -/
  | addiu (rt rs : Reg) (imm : BitVec 16)
  /-- `SLTI rt, rs, immediate` (R173). -/
  | slti (rt rs : Reg) (imm : BitVec 16)
  /-- `SLTIU rt, rs, immediate` (R174). -/
  | sltiu (rt rs : Reg) (imm : BitVec 16)
  /-- `ANDI rt, rs, immediate` (R175). -/
  | andi (rt rs : Reg) (imm : BitVec 16)
  /-- `ORI rt, rs, immediate` (R176). -/
  | ori (rt rs : Reg) (imm : BitVec 16)
  /-- `XORI rt, rs, immediate` (R177). -/
  | xori (rt rs : Reg) (imm : BitVec 16)
  /-- `LUI rt, immediate` (R178). -/
  | lui (rt : Reg) (imm : BitVec 16)
  /-- `ADD rd, rs, rt` (R179). -/
  | add (rd rs rt : Reg)
  /-- `ADDU rd, rs, rt` (R180). -/
  | addu (rd rs rt : Reg)
  /-- `SUB rd, rs, rt` (R181). -/
  | sub (rd rs rt : Reg)
  /-- `SUBU rd, rs, rt` (R182). -/
  | subu (rd rs rt : Reg)
  /-- `SLT rd, rs, rt` (R183). -/
  | slt (rd rs rt : Reg)
  /-- `SLTU rd, rs, rt` (R184). -/
  | sltu (rd rs rt : Reg)
  /-- `AND rd, rs, rt` (R185). -/
  | and (rd rs rt : Reg)
  /-- `OR rd, rs, rt` (R186). -/
  | or (rd rs rt : Reg)
  /-- `XOR rd, rs, rt` (R187). -/
  | xor (rd rs rt : Reg)
  /-- `NOR rd, rs, rt` (R188). -/
  | nor (rd rs rt : Reg)
  /-- `SLL rd, rt, shamt` (R201). -/
  | sll (rd rt : Reg) (shamt : BitVec 5)
  /-- `SRL rd, rt, shamt` (R202). -/
  | srl (rd rt : Reg) (shamt : BitVec 5)
  /-- `SRA rd, rt, shamt` (R203). -/
  | sra (rd rt : Reg) (shamt : BitVec 5)
  /-- `SLLV rd, rt, rs` (R204). -/
  | sllv (rd rt rs : Reg)
  /-- `SRLV rd, rt, rs` (R205). -/
  | srlv (rd rt rs : Reg)
  /-- `SRAV rd, rt, rs` (R206). -/
  | srav (rd rt rs : Reg)
  /-- `MULT rs, rt` (R211). -/
  | mult (rs rt : Reg)
  /-- `MULTU rs, rt` (R212). -/
  | multu (rs rt : Reg)
  /-- `DIV rs, rt` (R213). -/
  | div (rs rt : Reg)
  /-- `DIVU rs, rt` (R214). -/
  | divu (rs rt : Reg)
  /-- `JR rs` (R233). -/
  | jr (rs : Reg)
  /-- `JALR rs, rd` (R234). -/
  | jalr (rs rd : Reg)
  /-- `J target` (R235). -/
  | j (target : BitVec 26)
  /-- `JAL target` (R236). -/
  | jal (target : BitVec 26)
  /-- `BEQ rs, rt, offset` (R238). -/
  | beq (rs rt : Reg) (offset : BitVec 16)
  /-- `BNE rs, rt, offset` (R239). -/
  | bne (rs rt : Reg) (offset : BitVec 16)
  /-- `BLEZ rs, offset` (R240). -/
  | blez (rs : Reg) (offset : BitVec 16)
  /-- `BGTZ rs, offset` (R241). -/
  | bgtz (rs : Reg) (offset : BitVec 16)
  /-- `BLTZ rs, offset` (R242). -/
  | bltz (rs : Reg) (offset : BitVec 16)
  /-- `BGEZ rs, offset` (R243). -/
  | bgez (rs : Reg) (offset : BitVec 16)
  /-- `BLTZAL rs, offset` (R244). -/
  | bltzal (rs : Reg) (offset : BitVec 16)
  /-- `BGEZAL rs, offset` (R245). -/
  | bgezal (rs : Reg) (offset : BitVec 16)
  /-- `BC0F offset` (R262). -/
  | bc0f (offset : BitVec 16)
  /-- `BC1F offset` (R262). -/
  | bc1f (offset : BitVec 16)
  /-- `BC2F offset` (R262). -/
  | bc2f (offset : BitVec 16)
  /-- `BC3F offset` (R262). -/
  | bc3f (offset : BitVec 16)
  /-- `BC0T offset` (R263). -/
  | bc0t (offset : BitVec 16)
  /-- `BC1T offset` (R263). -/
  | bc1t (offset : BitVec 16)
  /-- `BC2T offset` (R263). -/
  | bc2t (offset : BitVec 16)
  /-- `BC3T offset` (R263). -/
  | bc3t (offset : BitVec 16)
  /-- `MFC0 rt, rd` (R277). -/
  | mfc0 (rt rd : Reg)
  /-- `MFC1 rt, rd` (R264). -/
  | mfc1 (rt rd : Reg)
  /-- `MFC2 rt, rd` (R264). -/
  | mfc2 (rt rd : Reg)
  /-- `MFC3 rt, rd` (R264). -/
  | mfc3 (rt rd : Reg)
  /-- `MTC0 rt, rd` (R278). -/
  | mtc0 (rt rd : Reg)
  /-- `MTC1 rt, rd` (R265). -/
  | mtc1 (rt rd : Reg)
  /-- `MTC2 rt, rd` (R265). -/
  | mtc2 (rt rd : Reg)
  /-- `MTC3 rt, rd` (R265). -/
  | mtc3 (rt rd : Reg)
  /-- `RFE` (R280). -/
  | rfe
  /-- `SYSCALL` (R291). -/
  | syscall (code : BitVec 20)
  /-- `BREAK` (R292). -/
  | brk (code : BitVec 20)
  /-- `MFHI rd` (R293). -/
  | mfhi (rd : Reg)
  /-- `MTHI rs` (R294). -/
  | mthi (rs : Reg)
  /-- `MFLO rd` (R296). -/
  | mflo (rd : Reg)
  /-- `MTLO rs` (R295). -/
  | mtlo (rs : Reg)
  deriving DecidableEq, Repr

end Sys2Proof
end

