-- ==== Sys2Proof/Decode.lean ====
section
/-! DEFINITION. The decoder, total on every word (30_encoding.md R120), and the encoder. A word that is no instruction is
rejected by name, and the name says what becomes of it: a reserved encoding raises an exception, which the step takes. -/

namespace Sys2Proof

/-! ## Fields of an instruction word (30_encoding.md R102 to R105) -/

/-- Bits 31:26, the major opcode. -/
def fieldOp (w : Word) : BitVec 6 := w.extractLsb' 26 6
/-- Bits 25:21: `rs`, `base`, or the minor opcode of a COPz word. -/
def fieldRs (w : Word) : Reg := w.extractLsb' 21 5
/-- Bits 20:16: `rt`, or the minor opcode of a REGIMM or coprocessor branch word. -/
def fieldRt (w : Word) : Reg := w.extractLsb' 16 5
/-- Bits 15:11: `rd`. -/
def fieldRd (w : Word) : Reg := w.extractLsb' 11 5
/-- Bits 10:6: `shamt`. -/
def fieldShamt (w : Word) : BitVec 5 := w.extractLsb' 6 5
/-- Bits 5:0: `funct`. -/
def fieldFunct (w : Word) : BitVec 6 := w.extractLsb' 0 6
/-- Bits 15:0: `immediate`, or `offset`. -/
def fieldImm (w : Word) : BitVec 16 := w.extractLsb' 0 16
/-- Bits 25:0: `target` (R104). -/
def fieldTarget (w : Word) : BitVec 26 := w.extractLsb' 0 26
/-- Bits 25:6: `code` of SYSCALL and BREAK (R105). -/
def fieldCode (w : Word) : BitVec 20 := w.extractLsb' 6 20
/-- Bits 27:26: the coprocessor number z of a COPz word (R105). -/
def fieldCop (w : Word) : Unit4 := w.extractLsb' 26 2

/-! ## Decoding -/

/-- What the decoder finds in a word. -/
inductive Decoded where
  /-- A word that matches a row of the opcode table. -/
  | instr (i : Instr)
  /-- The opcode fields name `i`, but a constant-zero field of it is not zero (R121). -/
  | nonZeroField (i : Instr)
  /-- An undefined value of an opcode field outside the COPz words (R122, R123). -/
  | reserved
  /-- A COPz word with an undefined minor opcode; `branch` says that bits 25:21 are BC, so that it is bits 20:16 that are
  undefined (R120, R123). -/
  | copReserved (z : Unit4) (branch : Bool)
  /-- A COPz operation (bit 25 set), z = 1..3 (R120; 45_coprocessor.md R266). -/
  | copOperation (z : Unit4)
  /-- Fewer than four bytes were given: an instruction is one word (R100). -/
  | truncated
  deriving DecidableEq, Repr

/-- The check of an instruction's constant-zero fields, the last act of decoding (R120, R121). -/
def whenZero (zero : Bool) (i : Instr) : Decoded :=
  if zero then .instr i else .nonZeroField i

/-- SPECIAL words by `funct` (R115); MULT and MULTU by the parameter MULDIV_ENCODING (R129). -/
def decodeSpecial (enc : MulDivEncoding) (w : Word) : Decoded :=
  match fieldFunct w with
  | 0b000000#6 => whenZero (fieldRs w == 0) (.sll (fieldRd w) (fieldRt w) (fieldShamt w))
  | 0b000010#6 => whenZero (fieldRs w == 0) (.srl (fieldRd w) (fieldRt w) (fieldShamt w))
  | 0b000011#6 => whenZero (fieldRs w == 0) (.sra (fieldRd w) (fieldRt w) (fieldShamt w))
  | 0b000100#6 => whenZero (fieldShamt w == 0) (.sllv (fieldRd w) (fieldRt w) (fieldRs w))
  | 0b000110#6 => whenZero (fieldShamt w == 0) (.srlv (fieldRd w) (fieldRt w) (fieldRs w))
  | 0b000111#6 => whenZero (fieldShamt w == 0) (.srav (fieldRd w) (fieldRt w) (fieldRs w))
  | 0b001000#6 => whenZero (fieldRt w == 0 && fieldRd w == 0 && fieldShamt w == 0) (.jr (fieldRs w))
  | 0b001001#6 => whenZero (fieldRt w == 0 && fieldShamt w == 0) (.jalr (fieldRs w) (fieldRd w))
  | 0b001100#6 => .instr (.syscall (fieldCode w))
  | 0b001101#6 => .instr (.brk (fieldCode w))
  | 0b001110#6 =>
    match enc with
    | .source => whenZero (fieldRd w == 0 && fieldShamt w == 0) (.mult (fieldRs w) (fieldRt w))
    | .mips1 => .reserved
  | 0b010000#6 => whenZero (fieldRs w == 0 && fieldRt w == 0 && fieldShamt w == 0) (.mfhi (fieldRd w))
  | 0b010001#6 => whenZero (fieldRt w == 0 && fieldRd w == 0 && fieldShamt w == 0) (.mthi (fieldRs w))
  | 0b010010#6 => whenZero (fieldRs w == 0 && fieldRt w == 0 && fieldShamt w == 0) (.mflo (fieldRd w))
  | 0b010011#6 => whenZero (fieldRt w == 0 && fieldRd w == 0 && fieldShamt w == 0) (.mtlo (fieldRs w))
  | 0b011000#6 =>
    match enc with
    | .source => whenZero (fieldRd w == 0 && fieldShamt w == 0) (.multu (fieldRs w) (fieldRt w))
    | .mips1 => whenZero (fieldRd w == 0 && fieldShamt w == 0) (.mult (fieldRs w) (fieldRt w))
  | 0b011001#6 =>
    match enc with
    | .source => .reserved
    | .mips1 => whenZero (fieldRd w == 0 && fieldShamt w == 0) (.multu (fieldRs w) (fieldRt w))
  | 0b011010#6 => whenZero (fieldRd w == 0 && fieldShamt w == 0) (.div (fieldRs w) (fieldRt w))
  | 0b011011#6 => whenZero (fieldRd w == 0 && fieldShamt w == 0) (.divu (fieldRs w) (fieldRt w))
  | 0b100000#6 => whenZero (fieldShamt w == 0) (.add (fieldRd w) (fieldRs w) (fieldRt w))
  | 0b100001#6 => whenZero (fieldShamt w == 0) (.addu (fieldRd w) (fieldRs w) (fieldRt w))
  | 0b100010#6 => whenZero (fieldShamt w == 0) (.sub (fieldRd w) (fieldRs w) (fieldRt w))
  | 0b100011#6 => whenZero (fieldShamt w == 0) (.subu (fieldRd w) (fieldRs w) (fieldRt w))
  | 0b100100#6 => whenZero (fieldShamt w == 0) (.and (fieldRd w) (fieldRs w) (fieldRt w))
  | 0b100101#6 => whenZero (fieldShamt w == 0) (.or (fieldRd w) (fieldRs w) (fieldRt w))
  | 0b100110#6 => whenZero (fieldShamt w == 0) (.xor (fieldRd w) (fieldRs w) (fieldRt w))
  | 0b100111#6 => whenZero (fieldShamt w == 0) (.nor (fieldRd w) (fieldRs w) (fieldRt w))
  | 0b101010#6 => whenZero (fieldShamt w == 0) (.slt (fieldRd w) (fieldRs w) (fieldRt w))
  | 0b101011#6 => whenZero (fieldShamt w == 0) (.sltu (fieldRd w) (fieldRs w) (fieldRt w))
  | _ => .reserved

/-- REGIMM words by bits 20:16 (R116). -/
def decodeRegimm (w : Word) : Decoded :=
  match fieldRt w with
  | 0b00000#5 => .instr (.bltz (fieldRs w) (fieldImm w))
  | 0b00001#5 => .instr (.bgez (fieldRs w) (fieldImm w))
  | 0b10000#5 => .instr (.bltzal (fieldRs w) (fieldImm w))
  | 0b10001#5 => .instr (.bgezal (fieldRs w) (fieldImm w))
  | _ => .reserved

/-- MFCz for the unit z of the word (R105). -/
def moveFrom (z : Unit4) (rt rd : Reg) : Instr :=
  match z with
  | 0b00#2 => .mfc0 rt rd
  | 0b01#2 => .mfc1 rt rd
  | 0b10#2 => .mfc2 rt rd
  | 0b11#2 => .mfc3 rt rd

/-- MTCz for the unit z of the word (R105). -/
def moveTo (z : Unit4) (rt rd : Reg) : Instr :=
  match z with
  | 0b00#2 => .mtc0 rt rd
  | 0b01#2 => .mtc1 rt rd
  | 0b10#2 => .mtc2 rt rd
  | 0b11#2 => .mtc3 rt rd

/-- BCzF for the unit z of the word (R105). -/
def branchFalse (z : Unit4) (offset : BitVec 16) : Instr :=
  match z with
  | 0b00#2 => .bc0f offset
  | 0b01#2 => .bc1f offset
  | 0b10#2 => .bc2f offset
  | 0b11#2 => .bc3f offset

/-- BCzT for the unit z of the word (R105). -/
def branchTrue (z : Unit4) (offset : BitVec 16) : Instr :=
  match z with
  | 0b00#2 => .bc0t offset
  | 0b01#2 => .bc1t offset
  | 0b10#2 => .bc2t offset
  | 0b11#2 => .bc3t offset

/-- COPz words by bits 25:21 (R117), then bits 20:16 (R118) or, for COP0, bits 4:0 (R119). Usability is not looked at
here: it depends on the state (60_exceptions.md R331). -/
def decodeCop (w : Word) : Decoded :=
  match fieldRs w with
  | 0b00000#5 => whenZero (w.extractLsb' 0 11 == 0) (moveFrom (fieldCop w) (fieldRt w) (fieldRd w))
  | 0b00100#5 => whenZero (w.extractLsb' 0 11 == 0) (moveTo (fieldCop w) (fieldRt w) (fieldRd w))
  | 0b01000#5 =>
    match fieldRt w with
    | 0b00000#5 => .instr (branchFalse (fieldCop w) (fieldImm w))
    | 0b00001#5 => .instr (branchTrue (fieldCop w) (fieldImm w))
    | _ => .copReserved (fieldCop w) true
  | minor =>
    if minor.getLsbD 4 then
      if fieldCop w == 0 then
        if w.extractLsb' 0 5 == 0b10000#5 then whenZero (w.extractLsb' 5 20 == 0) .rfe
        else .copReserved 0 false
      else .copOperation (fieldCop w)
    else .copReserved (fieldCop w) false

/-- The words of the other major opcodes (R114). -/
def decodeMajor (w : Word) : Decoded :=
  match fieldOp w with
  | 0b000010#6 => .instr (.j (fieldTarget w))
  | 0b000011#6 => .instr (.jal (fieldTarget w))
  | 0b000100#6 => .instr (.beq (fieldRs w) (fieldRt w) (fieldImm w))
  | 0b000101#6 => .instr (.bne (fieldRs w) (fieldRt w) (fieldImm w))
  | 0b000110#6 => whenZero (fieldRt w == 0) (.blez (fieldRs w) (fieldImm w))
  | 0b000111#6 => whenZero (fieldRt w == 0) (.bgtz (fieldRs w) (fieldImm w))
  | 0b001000#6 => .instr (.addi (fieldRt w) (fieldRs w) (fieldImm w))
  | 0b001001#6 => .instr (.addiu (fieldRt w) (fieldRs w) (fieldImm w))
  | 0b001010#6 => .instr (.slti (fieldRt w) (fieldRs w) (fieldImm w))
  | 0b001011#6 => .instr (.sltiu (fieldRt w) (fieldRs w) (fieldImm w))
  | 0b001100#6 => .instr (.andi (fieldRt w) (fieldRs w) (fieldImm w))
  | 0b001101#6 => .instr (.ori (fieldRt w) (fieldRs w) (fieldImm w))
  | 0b001110#6 => .instr (.xori (fieldRt w) (fieldRs w) (fieldImm w))
  | 0b001111#6 => whenZero (fieldRs w == 0) (.lui (fieldRt w) (fieldImm w))
  | 0b100000#6 => .instr (.lb (fieldRt w) (fieldImm w) (fieldRs w))
  | 0b100001#6 => .instr (.lh (fieldRt w) (fieldImm w) (fieldRs w))
  | 0b100010#6 => .instr (.lwl (fieldRt w) (fieldImm w) (fieldRs w))
  | 0b100011#6 => .instr (.lw (fieldRt w) (fieldImm w) (fieldRs w))
  | 0b100100#6 => .instr (.lbu (fieldRt w) (fieldImm w) (fieldRs w))
  | 0b100101#6 => .instr (.lhu (fieldRt w) (fieldImm w) (fieldRs w))
  | 0b100110#6 => .instr (.lwr (fieldRt w) (fieldImm w) (fieldRs w))
  | 0b101000#6 => .instr (.sb (fieldRt w) (fieldImm w) (fieldRs w))
  | 0b101001#6 => .instr (.sh (fieldRt w) (fieldImm w) (fieldRs w))
  | 0b101010#6 => .instr (.swl (fieldRt w) (fieldImm w) (fieldRs w))
  | 0b101011#6 => .instr (.sw (fieldRt w) (fieldImm w) (fieldRs w))
  | 0b101110#6 => .instr (.swr (fieldRt w) (fieldImm w) (fieldRs w))
  | _ => .reserved

/-- The decoder (R120). -/
def decodeWord (enc : MulDivEncoding) (w : Word) : Decoded :=
  if fieldOp w = 0b000000#6 then decodeSpecial enc w
  else if fieldOp w = 0b000001#6 then decodeRegimm w
  else if w.extractLsb' 28 4 = 0b0100#4 then decodeCop w
  else decodeMajor w

/-! ## Bytes (20_memory.md R70, R71) -/

/-- The word whose least significant byte is first in the list (at most four bytes matter). -/
def littleWord : List Byte → Word
  | [] => 0
  | b :: bs => (littleWord bs <<< 8) ||| b.setWidth 32

/-- The value that 1 to 4 bytes at ascending addresses have in the given byte order (20_memory.md R70). -/
def bytesToWord (bigEndian : Bool) (bs : List Byte) : Word :=
  littleWord (if bigEndian then bs.reverse else bs)

/-- The low `n` bytes of a word, least significant first. -/
def littleBytes : Nat → Word → List Byte
  | 0, _ => []
  | n + 1, v => v.setWidth 8 :: littleBytes n (v >>> 8)

/-- The low `n` bytes of a word in the order in which they lie at ascending addresses (20_memory.md R70). -/
def wordToBytes (bigEndian : Bool) (n : Nat) (v : Word) : List Byte :=
  if bigEndian then (littleBytes n v).reverse else littleBytes n v

/-- The decoder on bytes as memory holds them: an instruction is the first four (R100, 20_memory.md R71). -/
def decodeBytes (bigEndian : Bool) (enc : MulDivEncoding) : List Byte → Decoded
  | b0 :: b1 :: b2 :: b3 :: _ => decodeWord enc (bytesToWord bigEndian [b0, b1, b2, b3])
  | _ => .truncated

/-! ## Encoding -/

/-- The function code of MULT (R129). -/
def functMult : MulDivEncoding → BitVec 6
  | .source => 0b001110
  | .mips1 => 0b011000

/-- The function code of MULTU (R129). -/
def functMultu : MulDivEncoding → BitVec 6
  | .source => 0b011000
  | .mips1 => 0b011001

/-- The word of an instruction, field by field from bit 31 down as its Format row prints it (30_encoding.md; the rules of
files 40 to 47). -/
def encode (enc : MulDivEncoding) : Instr → Word
  | .lb rt offset base => 0b100000#6 ++ base ++ rt ++ offset
  | .lbu rt offset base => 0b100100#6 ++ base ++ rt ++ offset
  | .lh rt offset base => 0b100001#6 ++ base ++ rt ++ offset
  | .lhu rt offset base => 0b100101#6 ++ base ++ rt ++ offset
  | .lw rt offset base => 0b100011#6 ++ base ++ rt ++ offset
  | .lwl rt offset base => 0b100010#6 ++ base ++ rt ++ offset
  | .lwr rt offset base => 0b100110#6 ++ base ++ rt ++ offset
  | .sb rt offset base => 0b101000#6 ++ base ++ rt ++ offset
  | .sh rt offset base => 0b101001#6 ++ base ++ rt ++ offset
  | .sw rt offset base => 0b101011#6 ++ base ++ rt ++ offset
  | .swl rt offset base => 0b101010#6 ++ base ++ rt ++ offset
  | .swr rt offset base => 0b101110#6 ++ base ++ rt ++ offset
  | .addi rt rs imm => 0b001000#6 ++ rs ++ rt ++ imm
  | .addiu rt rs imm => 0b001001#6 ++ rs ++ rt ++ imm
  | .slti rt rs imm => 0b001010#6 ++ rs ++ rt ++ imm
  | .sltiu rt rs imm => 0b001011#6 ++ rs ++ rt ++ imm
  | .andi rt rs imm => 0b001100#6 ++ rs ++ rt ++ imm
  | .ori rt rs imm => 0b001101#6 ++ rs ++ rt ++ imm
  | .xori rt rs imm => 0b001110#6 ++ rs ++ rt ++ imm
  | .lui rt imm => 0b001111#6 ++ 0b00000#5 ++ rt ++ imm
  | .add rd rs rt => 0b000000#6 ++ rs ++ rt ++ rd ++ 0b00000#5 ++ 0b100000#6
  | .addu rd rs rt => 0b000000#6 ++ rs ++ rt ++ rd ++ 0b00000#5 ++ 0b100001#6
  | .sub rd rs rt => 0b000000#6 ++ rs ++ rt ++ rd ++ 0b00000#5 ++ 0b100010#6
  | .subu rd rs rt => 0b000000#6 ++ rs ++ rt ++ rd ++ 0b00000#5 ++ 0b100011#6
  | .slt rd rs rt => 0b000000#6 ++ rs ++ rt ++ rd ++ 0b00000#5 ++ 0b101010#6
  | .sltu rd rs rt => 0b000000#6 ++ rs ++ rt ++ rd ++ 0b00000#5 ++ 0b101011#6
  | .and rd rs rt => 0b000000#6 ++ rs ++ rt ++ rd ++ 0b00000#5 ++ 0b100100#6
  | .or rd rs rt => 0b000000#6 ++ rs ++ rt ++ rd ++ 0b00000#5 ++ 0b100101#6
  | .xor rd rs rt => 0b000000#6 ++ rs ++ rt ++ rd ++ 0b00000#5 ++ 0b100110#6
  | .nor rd rs rt => 0b000000#6 ++ rs ++ rt ++ rd ++ 0b00000#5 ++ 0b100111#6
  | .sll rd rt shamt => 0b000000#6 ++ 0b00000#5 ++ rt ++ rd ++ shamt ++ 0b000000#6
  | .srl rd rt shamt => 0b000000#6 ++ 0b00000#5 ++ rt ++ rd ++ shamt ++ 0b000010#6
  | .sra rd rt shamt => 0b000000#6 ++ 0b00000#5 ++ rt ++ rd ++ shamt ++ 0b000011#6
  | .sllv rd rt rs => 0b000000#6 ++ rs ++ rt ++ rd ++ 0b00000#5 ++ 0b000100#6
  | .srlv rd rt rs => 0b000000#6 ++ rs ++ rt ++ rd ++ 0b00000#5 ++ 0b000110#6
  | .srav rd rt rs => 0b000000#6 ++ rs ++ rt ++ rd ++ 0b00000#5 ++ 0b000111#6
  | .mult rs rt => 0b000000#6 ++ rs ++ rt ++ 0b00000#5 ++ 0b00000#5 ++ functMult enc
  | .multu rs rt => 0b000000#6 ++ rs ++ rt ++ 0b00000#5 ++ 0b00000#5 ++ functMultu enc
  | .div rs rt => 0b000000#6 ++ rs ++ rt ++ 0b00000#5 ++ 0b00000#5 ++ 0b011010#6
  | .divu rs rt => 0b000000#6 ++ rs ++ rt ++ 0b00000#5 ++ 0b00000#5 ++ 0b011011#6
  | .jr rs => 0b000000#6 ++ rs ++ 0b00000#5 ++ 0b00000#5 ++ 0b00000#5 ++ 0b001000#6
  | .jalr rs rd => 0b000000#6 ++ rs ++ 0b00000#5 ++ rd ++ 0b00000#5 ++ 0b001001#6
  | .j target => 0b000010#6 ++ target
  | .jal target => 0b000011#6 ++ target
  | .beq rs rt offset => 0b000100#6 ++ rs ++ rt ++ offset
  | .bne rs rt offset => 0b000101#6 ++ rs ++ rt ++ offset
  | .blez rs offset => 0b000110#6 ++ rs ++ 0b00000#5 ++ offset
  | .bgtz rs offset => 0b000111#6 ++ rs ++ 0b00000#5 ++ offset
  | .bltz rs offset => 0b000001#6 ++ rs ++ 0b00000#5 ++ offset
  | .bgez rs offset => 0b000001#6 ++ rs ++ 0b00001#5 ++ offset
  | .bltzal rs offset => 0b000001#6 ++ rs ++ 0b10000#5 ++ offset
  | .bgezal rs offset => 0b000001#6 ++ rs ++ 0b10001#5 ++ offset
  | .bc0f offset => 0b010000#6 ++ 0b01000#5 ++ 0b00000#5 ++ offset
  | .bc1f offset => 0b010001#6 ++ 0b01000#5 ++ 0b00000#5 ++ offset
  | .bc2f offset => 0b010010#6 ++ 0b01000#5 ++ 0b00000#5 ++ offset
  | .bc3f offset => 0b010011#6 ++ 0b01000#5 ++ 0b00000#5 ++ offset
  | .bc0t offset => 0b010000#6 ++ 0b01000#5 ++ 0b00001#5 ++ offset
  | .bc1t offset => 0b010001#6 ++ 0b01000#5 ++ 0b00001#5 ++ offset
  | .bc2t offset => 0b010010#6 ++ 0b01000#5 ++ 0b00001#5 ++ offset
  | .bc3t offset => 0b010011#6 ++ 0b01000#5 ++ 0b00001#5 ++ offset
  | .mfc0 rt rd => 0b010000#6 ++ 0b00000#5 ++ rt ++ rd ++ 0b00000#5 ++ 0b000000#6
  | .mfc1 rt rd => 0b010001#6 ++ 0b00000#5 ++ rt ++ rd ++ 0b00000#5 ++ 0b000000#6
  | .mfc2 rt rd => 0b010010#6 ++ 0b00000#5 ++ rt ++ rd ++ 0b00000#5 ++ 0b000000#6
  | .mfc3 rt rd => 0b010011#6 ++ 0b00000#5 ++ rt ++ rd ++ 0b00000#5 ++ 0b000000#6
  | .mtc0 rt rd => 0b010000#6 ++ 0b00100#5 ++ rt ++ rd ++ 0b00000#5 ++ 0b000000#6
  | .mtc1 rt rd => 0b010001#6 ++ 0b00100#5 ++ rt ++ rd ++ 0b00000#5 ++ 0b000000#6
  | .mtc2 rt rd => 0b010010#6 ++ 0b00100#5 ++ rt ++ rd ++ 0b00000#5 ++ 0b000000#6
  | .mtc3 rt rd => 0b010011#6 ++ 0b00100#5 ++ rt ++ rd ++ 0b00000#5 ++ 0b000000#6
  | .rfe => 0b010000#6 ++ 0b10000#5 ++ 0b00000#5 ++ 0b00000#5 ++ 0b00000#5 ++ 0b010000#6
  | .syscall code => 0b000000#6 ++ code ++ 0b001100#6
  | .brk code => 0b000000#6 ++ code ++ 0b001101#6
  | .mfhi rd => 0b000000#6 ++ 0b00000#5 ++ 0b00000#5 ++ rd ++ 0b00000#5 ++ 0b010000#6
  | .mthi rs => 0b000000#6 ++ rs ++ 0b00000#5 ++ 0b00000#5 ++ 0b00000#5 ++ 0b010001#6
  | .mflo rd => 0b000000#6 ++ 0b00000#5 ++ 0b00000#5 ++ rd ++ 0b00000#5 ++ 0b010010#6
  | .mtlo rs => 0b000000#6 ++ rs ++ 0b00000#5 ++ 0b00000#5 ++ 0b00000#5 ++ 0b010011#6

/-- The instruction the decoder reads from the bits `w` of a row of the opcode table: the word is laid out as the default
machine stores it and given to the decoder. -/
def decodeTableWord (nbits w : Nat) : Option Instr :=
  if nbits ≤ 32 then
    match decodeBytes Config.default.bigEndian Config.default.mulDivEncoding
        (wordToBytes Config.default.bigEndian 4 (BitVec.ofNat 32 (w % 2 ^ nbits))) with
    | .instr i => some i
    | _ => none
  else none

end Sys2Proof
end

