-- ==== Sys2Proof/Machine/State.lean ====
section
/-! DEFINITION. The machine's state as plain data (spec/10_state.md R20 and the rules each field cites), the exceptions,
the reasons a step can stop, and the state after reset. -/

namespace Sys2Proof.Machine

/-- The exceptions (60_exceptions.md R301), each with what its entry records. -/
inductive Exc where
  /-- Interrupt (R309). -/
  | interrupt
  /-- Address Error on a load or an instruction fetch, AdEL (R303). -/
  | addressErrorLoad (badAddr : Word)
  /-- Address Error on a store, AdES (R303). -/
  | addressErrorStore (badAddr : Word)
  /-- Bus Error on an instruction fetch, IBE (R304). -/
  | busErrorFetch
  /-- Bus Error on a data reference, DBE (R304). -/
  | busErrorData
  /-- System Call (R305). -/
  | systemCall
  /-- Breakpoint (R306). -/
  | breakpoint
  /-- Reserved Instruction, RI (R307). -/
  | reservedInstruction
  /-- Coprocessor Unusable, CpU, with the unit number (R308). -/
  | coprocessorUnusable (z : Unit4)
  /-- Overflow (R302). -/
  | overflow
  deriving DecidableEq, Repr

/-- Why the machine stops with a fault. -/
inductive Fault where
  /-- Any exception under TRAP.MODE = terminal (60_exceptions.md R300): the run ends with the exception, the restart
  address and whether the instruction was in a delay slot. Safe: it is the outcome R300 gives, and not the default. -/
  | trapped (e : Exc) (restart : Word) (inDelaySlot : Bool)
  /-- A jump or branch in a delay slot (44_jump_branch.md R231: the result is not detected and is undefined). Safe: the
  model stops where the hardware goes on in a way nobody states. -/
  | branchInDelaySlot
  deriving DecidableEq, Repr

/-- Why the machine refuses to go on. -/
inductive Refusal where
  /-- An arm of exec that has no meaning yet; none is left. Safe. -/
  | notModelled (mnemonic : String)
  /-- A write of HI or LO two instructions after an MFHI or MFLO whose result the instruction between has used
  (70_reset_and_hazards.md R365: that result is undefined and cannot be taken back). Raised by MULT, MULTU, DIV, DIVU,
  MTHI, MTLO. Safe. -/
  | hiLoResultConsumed
  /-- RFE directly after a load or store (70_reset_and_hazards.md R369: the operation of the memory reference is
  unspecified). Raised by RFE. Safe. -/
  | memoryBeforeRfe
  /-- A COPz operation word, z = 1..3, with Cu[z] = 1 (45_coprocessor.md R266: undefined; the operation is the
  coprocessor's own). Raised by the step for a word that is no row of the opcode table. Safe. -/
  | copOperation (z : Unit4)
  /-- A word with a constant-zero field that is not zero, under RESERVED_FIELD_POLICY = refuse (30_encoding.md R121).
  Raised by the step. Safe. -/
  | nonZeroField
  /-- An instruction fetch from a byte outside the launch image, or from one that nothing has written (20_memory.md R81;
  decision D34). Raised by the step. Safe. -/
  | fetchUnwritten (address : Word)
  /-- An instruction fetch from a byte that a store has written since launch (20_memory.md R88,
  70_reset_and_hazards.md R372). Raised by the step. Safe. -/
  | fetchStored (address : Word)
  deriving DecidableEq, Repr

/-- What a step in progress keeps of an earlier MFHI or MFLO (10_state.md R41): which register it read, the register it
wrote, and whether a later instruction has used the result. -/
structure HiLoRead where
  fromHi : Bool
  rd : Reg
  consumed : Bool
  deriving DecidableEq, Repr

/-- What the environment puts on the machine's lines for one step: the hardware interrupt lines IP[7:2]
(60_exceptions.md R310) and the condition lines CPC[3:0] (10_state.md R33). -/
structure Inputs where
  irq : BitVec 6
  cpc : BitVec 4
  deriving DecidableEq, Repr

/-- Memory by physical address (20_memory.md R60, R63, R85): the bytes that have a value, at strictly rising addresses.
An address that is not listed has no value; only addresses of the launch image have one (20_memory.md R81). -/
abbrev Memory := List Host.Cell

/-- The canonical form of a memory: strictly rising addresses, all of them 32-bit addresses. -/
abbrev Memory.wf (m : Memory) : Prop :=
  m.Pairwise (fun a b => a.1 < b.1) ∧ ∀ c ∈ m, c.1 < 2 ^ 32

/-- The state of the machine (10_state.md R20). -/
structure State where
  /-- The general registers x[0..31] (R21). Cell 0 is never read. -/
  gpr : Vector Word 32
  /-- HI (R24). -/
  hi : Word
  /-- LO (R24). -/
  lo : Word
  /-- Whether HI is defined (R25). -/
  hiDefined : Bool
  /-- Whether LO is defined (R25). -/
  loDefined : Bool
  /-- The address of the instruction executed in this step (R26, R27). -/
  pc : Word
  /-- The address of the instruction executed in the next step (R27). -/
  npc : Word
  /-- Whether the instruction at pc is in a delay slot (R27). -/
  ds : Bool
  /-- The Status register, CP0 register 12 by default (R35, R36). -/
  sr : Word
  /-- The Cause register, CP0 register 13 by default (R38), but for IP[7:2], which are the lines `irq`. -/
  cause : Word
  /-- The EPC register, CP0 register 14 by default (R37). -/
  epc : Word
  /-- BadVAddr, CP0 register 8 by default (R38). -/
  badVAddr : Word
  /-- PRId, CP0 register 15 by default, read only (R38). -/
  prId : Word
  /-- The Breakpoint Program Counter, CP0 register 3 by default (R38). -/
  bpc : Word
  /-- The Breakpoint Data Address, CP0 register 5 by default (R38). -/
  bda : Word
  /-- Debug and Cache Invalidate Control, CP0 register 7 by default (R38). -/
  dcic : Word
  /-- CPR[0, x] for the numbers x to which no rule gives a register (R34). The other cells are never written. -/
  cp0Other : Vector Word 32
  /-- CPR[z, x] for z = 1..3 (R20, R39). Row 0 is never read or written. -/
  cpr : Vector (Vector Word 32) 4
  /-- CCR[z, x] (R20, R39): no instruction of the common set reads or writes it. -/
  ccr : Vector (Vector Word 32) 4
  /-- The pending delayed register write (R40). -/
  ld : Option (Reg × Word)
  /-- The register whose delayed write this step has delivered (R40). -/
  stale : Option Reg
  /-- The HI/LO history: the instruction before this one (R41). -/
  hist1 : Option HiLoRead
  /-- The HI/LO history: the instruction before that (R41). -/
  hist2 : Option HiLoRead
  /-- md_fresh (R41). -/
  mdFresh : Bool
  /-- The condition lines during the previously executed instruction (R42). -/
  cpcPrev : BitVec 4
  /-- Whether the previously executed instruction was a load or store (70_reset_and_hazards.md R369). -/
  lastMemory : Bool
  /-- The CP0 register the previously executed instruction, an MTC0, wrote, and its value before
  (70_reset_and_hazards.md R373). -/
  mtc0 : Option (Reg × Word)
  /-- The physical addresses stored to since launch, strictly rising (20_memory.md R88). -/
  stored : List Nat
  /-- The condition lines CPC[3:0] now (R33), an input. -/
  cpc : BitVec 4
  /-- The hardware interrupt lines, shown as Cause.IP[7:2] (60_exceptions.md R310), an input. -/
  irq : BitVec 6
  /-- What the environment will put on the lines in the coming steps, one entry a step; when none is left the lines
  stay (60_exceptions.md R310, 10_state.md R33: the oracle inputs written out as data). -/
  inputs : List Inputs
  /-- The extent of the launch image, physical addresses: what is memory and not the platform's (20_memory.md R81). No
  step changes it. -/
  image : List AddressRange
  /-- Memory (20_memory.md R60). -/
  mem : Memory
  /-- The parameters (00_scope.md R8), BigEndian among them (R44); no step changes them. -/
  cfg : Config
  /-- The MODEL's own field: the number of the step, to which the free values are applied. -/
  tick : Nat
  deriving DecidableEq, Repr

/-- The machine after reset, for any setting of the parameters (10_state.md R45, 70_reset_and_hazards.md R351): pc at the
reset vector, not in a delay slot, kernel mode, interrupts disabled, BEV set, nothing pending, HI and LO undefined, memory
with nothing listed. Every register for which R45 gives no value is zero (log entry 2); the launch image may be anywhere
(log entry 45). -/
def State.resetWith (cfg : Config) : State where
  gpr := Vector.replicate 32 0
  hi := 0
  lo := 0
  hiDefined := false
  loDefined := false
  pc := cfg.trap.resetVector
  npc := cfg.trap.resetVector + 4
  ds := false
  sr := 1 <<< cfg.trap.status.bev
  cause := 0
  epc := 0
  badVAddr := 0
  prId := 0
  bpc := 0
  bda := 0
  dcic := 0
  cp0Other := Vector.replicate 32 0
  cpr := Vector.replicate 4 (Vector.replicate 32 0)
  ccr := Vector.replicate 4 (Vector.replicate 32 0)
  ld := none
  stale := none
  hist1 := none
  hist2 := none
  mdFresh := false
  cpcPrev := 0
  lastMemory := false
  mtc0 := none
  stored := []
  cpc := 0
  irq := 0
  inputs := []
  image := [⟨0, 0xFFFFFFFF⟩]
  mem := []
  cfg := cfg
  tick := 0

/-- The machine after reset, with the defaults of the parameters (00_scope.md R8). -/
def State.reset : State := .resetWith .default

end Sys2Proof.Machine
end

