-- ==== Sys2Proof/Machine/Operands.lean ====
section
/-! DEFINITION. Operands: which registers an instruction reads and writes, the one way to read and to write a general
register, the operand forms (immediates, offsets, targets, shift amounts), and the fields of the Status register as the
instruction being executed sees them. -/

namespace Sys2Proof.Machine

/-! ## What an instruction touches (10_state.md R23) -/

/-- What the step bookkeeping asks of an instruction. -/
inductive InstrKind where
  /-- None of the kinds below. -/
  | plain
  /-- One of the jumps and branches of 10_state.md R28. -/
  | branch
  /-- One of the twelve loads and stores. -/
  | memory
  | mfhi
  | mflo
  deriving DecidableEq, Repr

/-- The general registers an instruction reads and writes (R23), and its kind. -/
structure InstrInfo where
  reads : List Reg
  writes : Option Reg
  kind : InstrKind
  deriving DecidableEq, Repr

/-- The registers read and written, and the kind, of every instruction (R23, R28). -/
def instrInfo : Instr → InstrInfo
  | .lb rt _ base => ⟨[base], some rt, .memory⟩
  | .lbu rt _ base => ⟨[base], some rt, .memory⟩
  | .lh rt _ base => ⟨[base], some rt, .memory⟩
  | .lhu rt _ base => ⟨[base], some rt, .memory⟩
  | .lw rt _ base => ⟨[base], some rt, .memory⟩
  | .lwl rt _ base => ⟨[base, rt], some rt, .memory⟩
  | .lwr rt _ base => ⟨[base, rt], some rt, .memory⟩
  | .sb rt _ base => ⟨[base, rt], none, .memory⟩
  | .sh rt _ base => ⟨[base, rt], none, .memory⟩
  | .sw rt _ base => ⟨[base, rt], none, .memory⟩
  | .swl rt _ base => ⟨[base, rt], none, .memory⟩
  | .swr rt _ base => ⟨[base, rt], none, .memory⟩
  | .addi rt rs _ => ⟨[rs], some rt, .plain⟩
  | .addiu rt rs _ => ⟨[rs], some rt, .plain⟩
  | .slti rt rs _ => ⟨[rs], some rt, .plain⟩
  | .sltiu rt rs _ => ⟨[rs], some rt, .plain⟩
  | .andi rt rs _ => ⟨[rs], some rt, .plain⟩
  | .ori rt rs _ => ⟨[rs], some rt, .plain⟩
  | .xori rt rs _ => ⟨[rs], some rt, .plain⟩
  | .lui rt _ => ⟨[], some rt, .plain⟩
  | .add rd rs rt => ⟨[rs, rt], some rd, .plain⟩
  | .addu rd rs rt => ⟨[rs, rt], some rd, .plain⟩
  | .sub rd rs rt => ⟨[rs, rt], some rd, .plain⟩
  | .subu rd rs rt => ⟨[rs, rt], some rd, .plain⟩
  | .slt rd rs rt => ⟨[rs, rt], some rd, .plain⟩
  | .sltu rd rs rt => ⟨[rs, rt], some rd, .plain⟩
  | .and rd rs rt => ⟨[rs, rt], some rd, .plain⟩
  | .or rd rs rt => ⟨[rs, rt], some rd, .plain⟩
  | .xor rd rs rt => ⟨[rs, rt], some rd, .plain⟩
  | .nor rd rs rt => ⟨[rs, rt], some rd, .plain⟩
  | .sll rd rt _ => ⟨[rt], some rd, .plain⟩
  | .srl rd rt _ => ⟨[rt], some rd, .plain⟩
  | .sra rd rt _ => ⟨[rt], some rd, .plain⟩
  | .sllv rd rt rs => ⟨[rs, rt], some rd, .plain⟩
  | .srlv rd rt rs => ⟨[rs, rt], some rd, .plain⟩
  | .srav rd rt rs => ⟨[rs, rt], some rd, .plain⟩
  | .mult rs rt => ⟨[rs, rt], none, .plain⟩
  | .multu rs rt => ⟨[rs, rt], none, .plain⟩
  | .div rs rt => ⟨[rs, rt], none, .plain⟩
  | .divu rs rt => ⟨[rs, rt], none, .plain⟩
  | .jr rs => ⟨[rs], none, .branch⟩
  | .jalr rs rd => ⟨[rs], some rd, .branch⟩
  | .j _ => ⟨[], none, .branch⟩
  | .jal _ => ⟨[], some linkReg, .branch⟩
  | .beq rs rt _ => ⟨[rs, rt], none, .branch⟩
  | .bne rs rt _ => ⟨[rs, rt], none, .branch⟩
  | .blez rs _ => ⟨[rs], none, .branch⟩
  | .bgtz rs _ => ⟨[rs], none, .branch⟩
  | .bltz rs _ => ⟨[rs], none, .branch⟩
  | .bgez rs _ => ⟨[rs], none, .branch⟩
  | .bltzal rs _ => ⟨[rs], some linkReg, .branch⟩
  | .bgezal rs _ => ⟨[rs], some linkReg, .branch⟩
  | .bc0f _ => ⟨[], none, .branch⟩
  | .bc1f _ => ⟨[], none, .branch⟩
  | .bc2f _ => ⟨[], none, .branch⟩
  | .bc3f _ => ⟨[], none, .branch⟩
  | .bc0t _ => ⟨[], none, .branch⟩
  | .bc1t _ => ⟨[], none, .branch⟩
  | .bc2t _ => ⟨[], none, .branch⟩
  | .bc3t _ => ⟨[], none, .branch⟩
  | .mfc0 rt _ => ⟨[], some rt, .plain⟩
  | .mfc1 rt _ => ⟨[], some rt, .plain⟩
  | .mfc2 rt _ => ⟨[], some rt, .plain⟩
  | .mfc3 rt _ => ⟨[], some rt, .plain⟩
  | .mtc0 rt _ => ⟨[rt], none, .plain⟩
  | .mtc1 rt _ => ⟨[rt], none, .plain⟩
  | .mtc2 rt _ => ⟨[rt], none, .plain⟩
  | .mtc3 rt _ => ⟨[rt], none, .plain⟩
  | .rfe => ⟨[], none, .plain⟩
  | .syscall _ => ⟨[], none, .plain⟩
  | .brk _ => ⟨[], none, .plain⟩
  | .mfhi rd => ⟨[], some rd, .mfhi⟩
  | .mthi rs => ⟨[rs], none, .plain⟩
  | .mflo rd => ⟨[], some rd, .mflo⟩
  | .mtlo rs => ⟨[rs], none, .plain⟩

/-- Whether an instruction is a jump or branch (R28). -/
def isBranch (i : Instr) : Bool := (instrInfo i).kind == .branch

/-- Whether an instruction is a load or store (40_load_store.md R140). -/
def isMemory (i : Instr) : Bool := (instrInfo i).kind == .memory

/-- The entry an instruction makes in the HI/LO history (R41): one for MFHI and MFLO with a destination that keeps its
result (not register 0, R21). -/
def hiLoEntry (i : Instr) : Option HiLoRead :=
  match (instrInfo i).kind, (instrInfo i).writes with
  | .mfhi, some rd => if rd = 0 then none else some ⟨true, rd, false⟩
  | .mflo, some rd => if rd = 0 then none else some ⟨false, rd, false⟩
  | _, _ => none

/-- What is left of a history entry after an instruction with these reads and writes: used, if it reads the result; gone,
if it overwrites it unread. -/
def afterUse (entry : Option HiLoRead) (reads : List Reg) (writes : Option Reg) : Option HiLoRead :=
  match entry with
  | none => none
  | some e =>
    if e.rd ∈ reads then some { e with consumed := true }
    else if writes = some e.rd then none
    else some e

/-! ## General registers (10_state.md R21, R40) -/

/-- The contents of x[r]; x[0] reads 0 (R21). -/
def State.reg (s : State) (r : Reg) : Word :=
  if r = 0 then 0 else s.gpr[r.toNat]'r.isLt

/-- `x[r] <- v`; a write to register 0 is discarded (R21). -/
def State.setReg (s : State) (r : Reg) (v : Word) : State :=
  { s with gpr := if r = 0 then s.gpr else s.gpr.set r.toNat v r.isLt }

/-- A value nothing constrains, for one purpose in this step. -/
def State.free (s : State) (purpose : FreeUse) : Word :=
  Config.freeValue s.tick purpose

/-- A source operand x[r]: a free value if the register is stale, that is, if this step has delivered its delayed write
(R40; 40_load_store.md R154). -/
def State.operand (s : State) (purpose : FreeUse) (r : Reg) : Word :=
  if s.stale = some r ∧ r ≠ 0 then s.free purpose else s.reg r

/-- The operand x[rs] (or the base register of a load or store). -/
def State.rs (s : State) (r : Reg) : Word := s.operand .staleRs r

/-- The operand x[rt]. -/
def State.rt (s : State) (r : Reg) : Word := s.operand .staleRt r

/-- `load_delayed(r, v)` (40_load_store.md R154): the value reaches x[r] in the next step; for register 0 nothing is
pending (70_reset_and_hazards.md R362). -/
def State.delayReg (s : State) (r : Reg) (v : Word) : State :=
  { s with ld := if r = 0 then none else some (r, v) }

/-- Step 1 of 10_state.md R28: the pending delayed write is delivered and its register is stale for this step. -/
def State.deliver (s : State) : State :=
  match s.ld with
  | some (r, v) => { s.setReg r v with ld := none, stale := some r }
  | none => { s with stale := none }

/-! ## Immediates, offsets and targets (30_encoding.md R106 to R112) -/

/-- `sext_32` of a 16-bit immediate (R106). -/
def signExtend (imm : BitVec 16) : Word := imm.signExtend 32

/-- `zext_32` of a 16-bit immediate (R107). -/
def zeroExtend (imm : BitVec 16) : Word := imm.setWidth 32

/-- The operand of LUI: `immediate || 0^16` (R108). -/
def upperImmediate (imm : BitVec 16) : Word := imm ++ 0#16

/-- The address of the instruction in the delay slot: `pc + 4` (10_state.md R26). -/
def State.slotAddress (s : State) : Word := s.pc + 4

/-- The return address a linking jump or branch writes: `pc + 8` (44_jump_branch.md R246). -/
def State.returnAddress (s : State) : Word := s.pc + 8

/-- A branch's destination: the delay slot's address plus `sext_32(offset || 00)` (R109, 44_jump_branch.md R237). -/
def State.branchTarget (s : State) (offset : BitVec 16) : Word :=
  s.slotAddress + (offset ++ 0#2).signExtend 32

/-- A jump's destination: `(pc + 4)[31:28] || target || 00` (R110). -/
def State.jumpTarget (s : State) (target : BitVec 26) : Word :=
  s.slotAddress.extractLsb' 28 4 ++ target ++ 0#2

/-- The amount of a variable shift: the low five bits of x[rs] (R111). -/
def shiftAmount (v : Word) : BitVec 5 := v.extractLsb' 0 5

/-- The effective address of a load or store: `x[base] + sext_32(offset)` (R112, 40_load_store.md R140). -/
def State.effectiveAddress (s : State) (base : Reg) (offset : BitVec 16) : Word :=
  s.rs base + signExtend offset

/-! ## The Status register as the executing instruction sees it (10_state.md R35, R36) -/

/-- The coprocessor 0 registers that a rule names (10_state.md R34 to R38), and any other. -/
inductive Cp0Register where
  | status
  | cause
  | epc
  | badVAddr
  | prId
  | bpc
  | bda
  | dcic
  | other
  deriving DecidableEq, Repr

/-- The register that the number `r` of an MFC0 or MTC0 names, by the numbers of TRAP (10_state.md R34, R36 to R38). -/
def State.cp0Register (s : State) (r : Reg) : Cp0Register :=
  if r = s.cfg.trap.statusNumber then .status
  else if r = s.cfg.trap.causeNumber then .cause
  else if r = s.cfg.trap.epcNumber then .epc
  else if r = s.cfg.trap.badVAddrNumber then .badVAddr
  else if r = s.cfg.trap.prIdNumber then .prId
  else if r = s.cfg.trap.bpcNumber then .bpc
  else if r = s.cfg.trap.bdaNumber then .bda
  else if r = s.cfg.trap.dcicNumber then .dcic
  else .other

/-- The place of IEc, IEp and IEo within their pairs (10_state.md R36). -/
def enablePlace (layout : StatusLayout) : Nat := if layout.kernelUserUpper then 0 else 1

/-- The place of KUc, KUp and KUo within their pairs (10_state.md R36). -/
def modePlace (layout : StatusLayout) : Nat := if layout.kernelUserUpper then 1 else 0

/-- Bit k of Status as this instruction sees it: where the instruction before, an MTC0, has changed the bit, a free bit,
since the spec does not say whether the old or the new value is in effect (46_coprocessor0.md R279;
70_reset_and_hazards.md R373). -/
def State.statusBit (s : State) (k : Nat) : Bool :=
  match s.mtc0 with
  | some (r, old) =>
    if s.cp0Register r = .status ∧ old.getLsbD k ≠ s.sr.getLsbD k then (s.free (.statusBit k)).getLsbD 0
    else s.sr.getLsbD k
  | none => s.sr.getLsbD k

/-- KUc = 1: the machine is in user mode (60_exceptions.md R330). -/
def State.userMode (s : State) : Bool := s.statusBit (modePlace s.cfg.trap.status)

/-- Cu[z]: coprocessor z is usable (R35, R36). -/
def State.copUsable (s : State) (z : Unit4) : Bool := s.statusBit (s.cfg.trap.status.cu + z.toNat)

end Sys2Proof.Machine
end

