-- ==== Sys2Proof/Machine/Flags.lean ====
section
/-! DEFINITION. The CPU has no flags (10_state.md R32). What takes their place is written here whole: the overflow
conditions (41_computational_alu.md R189), the comparison results (R190) and the branch conditions
(44_jump_branch.md R238 to R245). -/

namespace Sys2Proof.Machine

/-- Signed overflow of `a + b`: bits 32 and 31 of the 33-bit sum of the sign-extended operands differ, that is, the two
highest-order carry-out bits differ (R189). -/
def addOverflows (a b : Word) : Bool :=
  let sum := a.signExtend 33 + b.signExtend 33
  sum.getLsbD 32 != sum.getLsbD 31

/-- Signed overflow of `a - b`: bits 32 and 31 of the 33-bit difference of the sign-extended operands differ (R189). -/
def subOverflows (a b : Word) : Bool :=
  let difference := a.signExtend 33 - b.signExtend 33
  difference.getLsbD 32 != difference.getLsbD 31

/-- A comparison's result: `0^31 || 1` or `0^32` (R173, R174, R183, R184). -/
def boolWord (b : Bool) : Word := if b then 1 else 0

/-- The exact comparison of two words as two's complement integers (R190). -/
def lessSigned (a b : Word) : Bool := decide (a.toInt < b.toInt)

/-- The exact comparison of two words as unsigned integers (R190). -/
def lessUnsigned (a b : Word) : Bool := decide (a.toNat < b.toNat)

/-- The sign bit is set (44_jump_branch.md R242, R244). -/
def isNegative (a : Word) : Bool := a.getLsbD 31

/-- The sign bit is set or the word is zero (44_jump_branch.md R240). -/
def isNonPositive (a : Word) : Bool := a.getLsbD 31 || a == 0

/-- The sign bit is cleared and the word is not zero (44_jump_branch.md R241; 90_conflicts.md C3). -/
def isPositive (a : Word) : Bool := !a.getLsbD 31 && a != 0

end Sys2Proof.Machine
end

