-- ==== Sys2Proof/Machine/Ops.lean ====
section
/-! DEFINITION. The named operations the meanings share: memory (spec/20_memory.md), taking an exception
(spec/60_exceptions.md R320) and the return from one beside it (spec/46_coprocessor0.md R280), the coprocessor 0
registers, the HI/LO rules (spec/70_reset_and_hazards.md R365, R366), and the end of a step (spec/10_state.md R28). -/

namespace Sys2Proof.Machine

/-- What an instruction answers. -/
abbrev Answer := Host.Outcome State Fault Refusal

/-! ## Memory cells (20_memory.md R60, R85) -/

/-- The byte at a physical address; none where no byte has been written. -/
def Memory.read : Memory → Nat → Option Byte
  | [], _ => none
  | c :: m, a => if a = c.1 then some c.2 else Memory.read m a

/-- The memory with one byte written, in its place among the rising addresses. -/
def Memory.write (m : Memory) (a : Nat) (v : Byte) : Memory :=
  match m with
  | [] => [(a, v)]
  | c :: rest =>
    if a < c.1 then (a, v) :: c :: rest
    else if a = c.1 then (a, v) :: rest
    else c :: Memory.write rest a v

/-- Whether an address lies in one of the ranges. -/
def inRanges (ranges : List AddressRange) (a : Nat) : Bool :=
  ranges.any fun r => decide (r.first ≤ a) && decide (a ≤ r.last)

/-- Bytes written at consecutive physical addresses from `a` up: those inside the launch image. One outside is the
platform's, and memory keeps nothing of it (20_memory.md R81). -/
def writeBytes (image : List AddressRange) (m : Memory) (a : Word) : List Byte → Memory
  | [] => m
  | b :: bs => writeBytes image (if inRanges image a.toNat then m.write a.toNat b else m) (a + 1) bs

/-- An address put into its place in a strictly rising list. -/
def insertAddress (l : List Nat) (a : Nat) : List Nat :=
  match l with
  | [] => [a]
  | x :: rest =>
    if a < x then a :: x :: rest
    else if a = x then x :: rest
    else x :: insertAddress rest a

/-- The record of stored addresses (20_memory.md R88) after a store of `n` bytes from `a` up. -/
def markStored (l : List Nat) (a : Word) : Nat → List Nat
  | 0 => l
  | n + 1 => markStored (insertAddress l a.toNat) (a + 1) n

/-- Whether a physical address lies in the launch image (20_memory.md R81). -/
def State.inImage (s : State) (a : Nat) : Bool := inRanges s.image a

/-- The byte of memory at a physical address; none outside the launch image, and where no byte has been written. -/
def State.cell (s : State) (a : Nat) : Option Byte :=
  if s.inImage a then s.mem.read a else none

/-- The byte a data reference finds at a physical address. Outside the launch image, and where nothing has been written, it
is the platform's answer, a free value (20_memory.md R81, decision D34). -/
def State.byteAt (s : State) (a : Word) : Byte :=
  (s.cell a.toNat).getD ((s.free (.platformByte a.toNat)).setWidth 8)

/-- `n` bytes at ascending physical addresses from `a` up (20_memory.md R72). -/
def State.loadBytes (s : State) (a : Word) : Nat → List Byte
  | 0 => []
  | n + 1 => s.byteAt a :: s.loadBytes (a + 1) n

/-- Stores bytes at ascending physical addresses from `a` up (20_memory.md R72). -/
def State.storeBytes (s : State) (a : Word) (bs : List Byte) : State :=
  { s with mem := writeBytes s.image s.mem a bs, stored := markStored s.stored a bs.length }

/-! ## Addresses (20_memory.md R62, R76) -/

/-- Whether an address lies in a segment. -/
def segmentHolds (g : Segment) (a : Word) : Bool :=
  let word := a.extractLsb' 2 30
  decide (g.firstWord.toNat ≤ word.toNat) && decide (word.toNat ≤ g.lastWord.toNat)

/-- The segments (20_memory.md R62). -/
inductive SegmentName where
  | kuseg
  | kseg0
  | kseg1
  | kseg2
  deriving DecidableEq, Repr

/-- The segment of an address; none if SEGMENTS leaves it out. -/
def segmentOf (segments : Segments) (a : Word) : Option SegmentName :=
  if segmentHolds segments.kseg0 a then some .kseg0
  else if segmentHolds segments.kseg1 a then some .kseg1
  else if segmentHolds segments.kuseg a then some .kuseg
  else if segmentHolds segments.kseg2 a then some .kseg2
  else none

/-- The physical address: kseg0 and kseg1 map onto the low 512 Mbytes, every other address is its own (20_memory.md R62,
R76). -/
def physical (segments : Segments) (a : Word) : Word :=
  match segmentOf segments a with
  | some .kseg0 => (a.extractLsb' 0 29).setWidth 32
  | some .kseg1 => (a.extractLsb' 0 29).setWidth 32
  | some .kuseg => a
  | some .kseg2 => a
  | none => a

/-- The Address Error of an access (60_exceptions.md R301). -/
def addressError (kind : AccessKind) (a : Word) : Exc :=
  match kind with
  | .load => .addressErrorLoad a
  | .store => .addressErrorStore a
  | .fetch => .addressErrorLoad a

/-- The Bus Error of an access (60_exceptions.md R301). -/
def busError (kind : AccessKind) : Exc :=
  match kind with
  | .load => .busErrorData
  | .store => .busErrorData
  | .fetch => .busErrorFetch

/-- Whether the platform answers an access with a bus error: BUS_ERROR(paddr, kind) (20_memory.md R79). -/
def busRefuses (cfg : Config) (a : Word) (kind : AccessKind) : Bool :=
  cfg.busErrors.any fun r => r.kind == kind && decide (r.first ≤ a.toNat) && decide (a.toNat ≤ r.last)

/-- The checks and the mapping before an access (20_memory.md R76, steps 1 to 4): the physical address, or the exception. -/
def State.translate (s : State) (kind : AccessKind) (align : Nat) (a : Word) : Except Exc Word :=
  if a.toNat % align ≠ 0 then .error (addressError kind a)
  else if s.userMode && a.getLsbD 31 then .error (addressError kind a)
  else if busRefuses s.cfg (physical s.cfg.segments a) kind then .error (busError kind)
  else .ok (physical s.cfg.segments a)

/-! ## Taking an exception (60_exceptions.md R320 to R323) -/

/-- What TRAP holds for an exception (60_exceptions.md R301, R322). -/
def exceptionEntry (trap : Trap) : Exc → ExceptionEntry
  | .interrupt => trap.interrupt
  | .addressErrorLoad _ => trap.addressErrorLoad
  | .addressErrorStore _ => trap.addressErrorStore
  | .busErrorFetch => trap.busErrorFetch
  | .busErrorData => trap.busErrorData
  | .systemCall => trap.systemCall
  | .breakpoint => trap.breakpoint
  | .reservedInstruction => trap.reservedInstruction
  | .coprocessorUnusable _ => trap.coprocessorUnusable
  | .overflow => trap.overflow

/-- The address of the exception's handler, by SR.BEV (60_exceptions.md R322). -/
def exceptionVector (trap : Trap) (sr : Word) (e : Exc) : Word :=
  if sr.getLsbD trap.status.bev then (exceptionEntry trap e).bootVector else (exceptionEntry trap e).vector

/-- The restart address: the instruction that does not complete, or the jump or branch before it when it is in a delay
slot (60_exceptions.md R321). -/
def State.restartAddress (s : State) : Word :=
  if s.ds then s.pc - 4 else s.pc

/-- A word with the bits of `x` in place from bit `low` up. -/
def putBits {n : Nat} (v : Word) (low : Nat) (x : BitVec n) : Word :=
  (v &&& ~~~((BitVec.allOnes n).setWidth 32 <<< low)) ||| (x.setWidth 32 <<< low)

/-- Cause after an exception: BD and ExcCode always, CE for Coprocessor Unusable only (60_exceptions.md R320). -/
def causeAfter (trap : Trap) (cause : Word) (inDelaySlot : Bool) (e : Exc) : Word :=
  let coded := putBits cause trap.cause.excCode (exceptionEntry trap e).code
  let united :=
    match e with
    | .coprocessorUnusable z => putBits coded trap.cause.ce z
    | _ => coded
  putBits united trap.cause.bd (BitVec.ofBool inDelaySlot)

/-- BadVAddr after an exception: the offending address of an Address Error (60_exceptions.md R303, R304). -/
def badVAddrAfter (badVAddr : Word) : Exc → Word
  | .addressErrorLoad a => a
  | .addressErrorStore a => a
  | _ => badVAddr

/-- The mode stack pushed: `SR[5:0] <- SR[3:0] || 00` (60_exceptions.md R323). -/
def pushMode (sr : Word) : Word :=
  sr.extractLsb' 6 26 ++ sr.extractLsb' 0 4 ++ 0#2

/-- Trap entry (60_exceptions.md R320). The general registers, HI, LO, memory, the pending load, the HI/LO history and
the sampled condition lines stay as they are; a write by an MTC0 just before is complete (R314). -/
def State.trapEntry (s : State) (e : Exc) : State :=
  { s with
    epc := s.restartAddress
    cause := causeAfter s.cfg.trap s.cause s.ds e
    badVAddr := badVAddrAfter s.badVAddr e
    sr := pushMode s.sr
    pc := exceptionVector s.cfg.trap s.sr e
    npc := exceptionVector s.cfg.trap s.sr e + 4
    ds := false
    mtc0 := none }

/-- Taking an exception: trap entry, or the end of the run under TRAP.MODE = terminal (60_exceptions.md R300). -/
def takeException (e : Exc) (s : State) : Answer :=
  match s.cfg.trap.mode with
  | .vectored => .next (s.trapEntry e)
  | .terminal => .fault (.trapped e s.restartAddress s.ds)

/-- The history after an instruction that raised an exception: it made no entry and wrote nothing
(70_reset_and_hazards.md R367), and `reads` are the registers on whose values the exception depended. -/
def State.abandoned (s : State) (reads : List Reg) : State :=
  { s with hist1 := none, hist2 := afterUse s.hist1 reads none, lastMemory := false }

/-- An instruction raises an exception (00_scope.md R12, `raise`): it has no effect of its own. -/
def raise (reads : List Reg) (e : Exc) (s : State) : Answer :=
  takeException e (s.abandoned reads)

/-- The mode stack popped, `SR[3:0] <- SR[5:2]`, with the bits of Status as this instruction sees them
(46_coprocessor0.md R280, R279). -/
def State.poppedStatus (s : State) : Word :=
  s.sr.extractLsb' 4 28 ++ BitVec.ofBool (s.statusBit 5) ++ BitVec.ofBool (s.statusBit 4) ++
    BitVec.ofBool (s.statusBit 3) ++ BitVec.ofBool (s.statusBit 2)

/-- The return from an exception's change of state: RFE pops the mode stack and touches nothing else
(46_coprocessor0.md R280). -/
def State.popMode (s : State) : State :=
  { s with sr := s.poppedStatus }

/-! ## The end of a step (10_state.md R28, step 8) -/

/-- The state after instruction `i` has completed: pc and npc move on, to `target` after the delay slot if a jump or
branch was taken, and the histories are updated (R28, R29, R41, R42). -/
def State.completed (s : State) (i : Instr) (target : Option Word) : State :=
  { s with
    pc := s.npc
    npc := target.getD (s.npc + 4)
    ds := isBranch i
    cpcPrev := s.cpc
    hist1 := hiLoEntry i
    hist2 := afterUse s.hist1 (instrInfo i).reads (instrInfo i).writes
    lastMemory := isMemory i
    mtc0 := none }

/-- Instruction `i`, no jump or branch, completes. -/
def complete (i : Instr) (s : State) : Answer := .next (s.completed i none)

/-- Instruction `i` completes with `x[r] <- v`. -/
def completeWith (i : Instr) (r : Reg) (v : Word) (s : State) : Answer := complete i (s.setReg r v)

/-- A jump or branch: `pc <- target` after the delay slot if there is a target (10_state.md R29). In a delay slot it is
undefined (44_jump_branch.md R231). -/
def transfer (i : Instr) (target : Option Word) (s : State) : Answer :=
  if s.ds then .fault .branchInDelaySlot else .next (s.completed i target)

/-- A conditional branch (44_jump_branch.md R237). -/
def branchIf (i : Instr) (condition : Bool) (offset : BitVec 16) (s : State) : Answer :=
  transfer i (if condition then some (s.branchTarget offset) else none) s

/-- A conditional branch that links, taken or not (44_jump_branch.md R246). -/
def branchAndLinkIf (i : Instr) (condition : Bool) (offset : BitVec 16) (s : State) : Answer :=
  transfer i (if condition then some (s.branchTarget offset) else none) (s.setReg linkReg s.returnAddress)

/-! ## Loads and stores (40_load_store.md) -/

/-- A load of `n` bytes at the effective address: `convert` makes the register's value of the value read
(R141 to R145, R153, R154). -/
def loadWith (i : Instr) (n : Nat) (convert : Word → Word) (rt : Reg) (offset : BitVec 16) (base : Reg) (s : State) :
    Answer :=
  match s.translate .load n (s.effectiveAddress base offset) with
  | .error e => raise [base] e s
  | .ok a => complete i (s.delayReg rt (convert (bytesToWord s.cfg.bigEndian (s.loadBytes a n))))

/-- A store of the low `n` bytes of x[rt] (R148 to R150, R153). -/
def storeOf (i : Instr) (n : Nat) (rt : Reg) (offset : BitVec 16) (base : Reg) (s : State) : Answer :=
  match s.translate .store n (s.effectiveAddress base offset) with
  | .error e => raise [base] e s
  | .ok a => complete i (s.storeBytes a (wordToBytes s.cfg.bigEndian n (s.rt rt)))

/-- The lane index `byte` of LWL, LWR, SWL and SWR: `Addr[1:0] XOR BigEndian^2` (R146). -/
def laneIndex (bigEndian : Bool) (a : Word) : Nat :=
  if bigEndian then 3 - a.toNat % 4 else a.toNat % 4

/-- The aligned word that holds the addressed byte. -/
def wordAddress (a : Word) : Word := a - BitVec.ofNat 32 (a.toNat % 4)

/-- Where the access of LWL and SWL begins: `byte + 1` bytes, from the word's start when little-endian, from the addressed
byte when big-endian (R146, R151). -/
def leftStart (bigEndian : Bool) (a : Word) : Word := if bigEndian then a else wordAddress a

/-- Where the access of LWR and SWR begins: `4 - byte` bytes, from the addressed byte when little-endian, from the word's
start when big-endian (R147, R152). -/
def rightStart (bigEndian : Bool) (a : Word) : Word := if bigEndian then wordAddress a else a

/-- `m[8*byte+7 : 0] || old[23-8*byte : 0]` (R146). -/
def mergeLeft (byte : Nat) (loaded old : Word) : Word :=
  (loaded <<< (24 - 8 * byte)) ||| (old &&& BitVec.ofNat 32 (2 ^ (24 - 8 * byte) - 1))

/-- `old[31 : 32-8*byte] || m[31 : 8*byte]` (R147). -/
def mergeRight (byte : Nat) (loaded old : Word) : Word :=
  loaded ||| (old &&& ~~~ BitVec.ofNat 32 (2 ^ (32 - 8 * byte) - 1))

/-- LWL's load and merge. The merge read of x[rt] is never stale (10_state.md R40; 70_reset_and_hazards.md R363). -/
def loadLeft (i : Instr) (rt : Reg) (offset : BitVec 16) (base : Reg) (s : State) : Answer :=
  let a := s.effectiveAddress base offset
  let byte := laneIndex s.cfg.bigEndian a
  match s.translate .load 1 (leftStart s.cfg.bigEndian a) with
  | .error e => raise [base] e s
  | .ok p =>
    complete i (s.delayReg rt (mergeLeft byte (bytesToWord s.cfg.bigEndian (s.loadBytes p (byte + 1))) (s.reg rt)))

/-- LWR's load and merge (R147). -/
def loadRight (i : Instr) (rt : Reg) (offset : BitVec 16) (base : Reg) (s : State) : Answer :=
  let a := s.effectiveAddress base offset
  let byte := laneIndex s.cfg.bigEndian a
  match s.translate .load 1 (rightStart s.cfg.bigEndian a) with
  | .error e => raise [base] e s
  | .ok p =>
    complete i (s.delayReg rt (mergeRight byte (bytesToWord s.cfg.bigEndian (s.loadBytes p (4 - byte))) (s.reg rt)))

/-- SWL's store of the `byte + 1` most significant bytes of x[rt] (R151). -/
def storeLeft (i : Instr) (rt : Reg) (offset : BitVec 16) (base : Reg) (s : State) : Answer :=
  let a := s.effectiveAddress base offset
  let byte := laneIndex s.cfg.bigEndian a
  match s.translate .store 1 (leftStart s.cfg.bigEndian a) with
  | .error e => raise [base] e s
  | .ok p => complete i (s.storeBytes p (wordToBytes s.cfg.bigEndian (byte + 1) (s.rt rt >>> (24 - 8 * byte))))

/-- SWR's store of the `4 - byte` least significant bytes of x[rt] (R152). -/
def storeRight (i : Instr) (rt : Reg) (offset : BitVec 16) (base : Reg) (s : State) : Answer :=
  let a := s.effectiveAddress base offset
  let byte := laneIndex s.cfg.bigEndian a
  match s.translate .store 1 (rightStart s.cfg.bigEndian a) with
  | .error e => raise [base] e s
  | .ok p => complete i (s.storeBytes p (wordToBytes s.cfg.bigEndian (4 - byte) (s.rt rt)))

/-! ## HI and LO (10_state.md R24, R25; 70_reset_and_hazards.md R365, R366) -/

/-- Whether a write of HI or of LO makes the result of a history entry undefined (R365). -/
def spoils (writesHi writesLo : Bool) (entry : Option HiLoRead) : Bool :=
  match entry with
  | none => false
  | some e => if e.fromHi then writesHi else writesLo

/-- The register of a spoilt history entry gets a free value; otherwise nothing changes (R365). -/
def State.spoil (s : State) (writesHi writesLo : Bool) (entry : Option HiLoRead) : State :=
  match entry with
  | none => s
  | some e => if spoils writesHi writesLo (some e) then s.setReg e.rd (s.free (.hiLoResult e.rd)) else s

/-- The HI/LO rule at an instruction that writes HI or LO (R365): the result of an MFHI or MFLO one or two instructions
before becomes undefined. Where an instruction between has used it, it cannot be taken back and the model refuses
(none); otherwise its register holds a free value from here on, and the entry is settled. -/
def State.hiLoHazard (s : State) (writesHi writesLo : Bool) : Option State :=
  if spoils writesHi writesLo s.hist2 && (s.hist2.map (·.consumed)).getD false then none
  else
    some { (s.spoil writesHi writesLo s.hist2).spoil writesHi writesLo s.hist1 with
      hist1 := if spoils writesHi writesLo s.hist1 then none else s.hist1
      hist2 := if spoils writesHi writesLo s.hist2 then none else s.hist2 }

/-- An instruction that writes HI or LO: the rule of R365, then its effect. -/
def writingHiLo (writesHi writesLo : Bool) (effect : State → Answer) (s : State) : Answer :=
  match s.hiLoHazard writesHi writesLo with
  | none => .refused .hiLoResultConsumed
  | some t => effect t

/-- HI and LO as a multiply or divide leaves them (43_computational_muldiv.md R210). -/
def State.setHiLo (s : State) (hi lo : Word) : State :=
  { s with hi := hi, lo := lo, hiDefined := true, loDefined := true, mdFresh := true }

/-- HI and LO after a division by zero: undefined, that is, each a free value and marked undefined
(43_computational_muldiv.md R213, R214; 10_state.md R25). -/
def State.loseHiLo (s : State) : State :=
  { s with hi := s.free .lostHi, lo := s.free .lostLo, hiDefined := false, loDefined := false, mdFresh := true }

/-- What MFHI reads (R25, 47_special.md R293). -/
def State.readHi (s : State) : Word := if s.hiDefined then s.hi else s.free .readHi

/-- What MFLO reads (R25, 47_special.md R296). -/
def State.readLo (s : State) : Word := if s.loDefined then s.lo else s.free .readLo

/-- MTHI's effect: LO becomes undefined if md_fresh (47_special.md R294). DESIGN CHOICE, unsafe: after a multiply or divide,
an MFHI and this MTHI the rules keep LO defined and U5 of 93_implementation_defined.md does not; the rules are followed (log
entry 47). -/
def State.moveToHi (s : State) (v : Word) : State :=
  { s with
    hi := v
    hiDefined := true
    lo := if s.mdFresh then s.free .lostLo else s.lo
    loDefined := s.loDefined && !s.mdFresh
    mdFresh := false }

/-- MTLO's effect: HI becomes undefined if md_fresh (47_special.md R295). DESIGN CHOICE, unsafe: after a multiply or divide,
an MFLO and this MTLO the rules keep HI defined and U5 of 93_implementation_defined.md does not; the rules are followed (log
entry 47). -/
def State.moveToLo (s : State) (v : Word) : State :=
  { s with
    lo := v
    loDefined := true
    hi := if s.mdFresh then s.free .lostHi else s.hi
    hiDefined := s.hiDefined && !s.mdFresh
    mdFresh := false }

/-- MFHI and MFLO both clear md_fresh (10_state.md R41), where U5 of 93_implementation_defined.md would count only the one of
the other register (DESIGN CHOICE, unsafe: log entry 47). -/
def State.staleMd (s : State) : State := { s with mdFresh := false }

/-! ## Coprocessors (45_coprocessor.md, 46_coprocessor0.md) -/

/-- Coprocessor z is not usable: Coprocessor Unusable (45_coprocessor.md R261; 46_coprocessor0.md R276 for BC0F, BC0T). -/
def unusable (z : Unit4) (s : State) : Option Exc :=
  if s.copUsable z then none else some (.coprocessorUnusable z)

/-- MFC0, MTC0 and RFE in user mode with Cu0 = 0: Reserved Instruction (46_coprocessor0.md R276). -/
def unprivileged (s : State) : Option Exc :=
  if s.userMode && !s.copUsable 0 then some .reservedInstruction else none

/-- An instruction behind a usability check. -/
def guarded (check : Option Exc) (effect : State → Answer) (s : State) : Answer :=
  match check with
  | some e => raise [] e s
  | none => effect s

/-- Cause as an instruction reads it: IP[7:2] are the interrupt lines (60_exceptions.md R310, R324). -/
def State.causeValue (s : State) : Word := putBits s.cause (s.cfg.trap.cause.ip + 2) s.irq

/-- What CP0 register `r` holds as state (10_state.md R34 to R38). -/
def State.cp0Cell (s : State) (r : Reg) : Word :=
  match s.cp0Register r with
  | .status => s.sr
  | .cause => s.cause
  | .epc => s.epc
  | .badVAddr => s.badVAddr
  | .prId => s.prId
  | .bpc => s.bpc
  | .bda => s.bda
  | .dcic => s.dcic
  | .other => s.cp0Other[r.toNat]'r.isLt

/-- `CPR[0, r]` as a read finds it: a free value for a register whose value is open (46_coprocessor0.md R277, 10_state.md
R38). -/
def State.cp0Value (s : State) (r : Reg) : Word :=
  match s.cp0Register r with
  | .status => s.sr
  | .cause => s.causeValue
  | .epc => s.epc
  | .badVAddr => s.badVAddr
  | .prId => s.prId
  | .bpc => s.free (.readCp0 r)
  | .bda => s.free (.readCp0 r)
  | .dcic => s.free (.readCp0 r)
  | .other => s.free (.readCp0 r)

/-- `CPR[0, r]` as MFC0 reads it: a free value if the MTC0 just before has changed it (46_coprocessor0.md R277, R279). -/
def State.cp0Read (s : State) (r : Reg) : Word :=
  match s.mtc0 with
  | some (q, old) => if q = r ∧ old ≠ s.cp0Cell r then s.free (.readCp0 r) else s.cp0Value r
  | none => s.cp0Value r

/-- `CPR[0, r] <- v` (46_coprocessor0.md R278). Status and EPC hold every bit as written; of Cause only the software
interrupts IP[1:0] are written (60_exceptions.md R310, R324); PRId is read only (10_state.md R38); what BadVAddr holds
after it is open, a free value. -/
def State.cp0Write (s : State) (r : Reg) (v : Word) : State :=
  match s.cp0Register r with
  | .status => { s with sr := v }
  | .cause =>
    { s with cause := putBits s.cause s.cfg.trap.cause.ip (v.extractLsb' s.cfg.trap.cause.ip 2) }
  | .epc => { s with epc := v }
  | .badVAddr => { s with badVAddr := s.free .writtenBadVAddr }
  | .prId => s
  | .bpc => { s with bpc := v }
  | .bda => { s with bda := v }
  | .dcic => { s with dcic := v }
  | .other => { s with cp0Other := s.cp0Other.set r.toNat v r.isLt }

/-- The next instruction has an MTC0 to `r`, whose value was `old`, directly before it (70_reset_and_hazards.md R373). -/
def State.afterMtc0 (s : State) (r : Reg) (old : Word) : State :=
  { s with mtc0 := some (r, old) }

/-- Whether the part has coprocessor z = 1..3 (45_coprocessor.md R260). -/
def State.copSupported (s : State) (z : Unit4) : Bool := s.cfg.copSupported.getLsbD z.toNat

/-- `CPR[z, r]` as MFCz, z = 1..3, reads it: undefined without the coprocessor (45_coprocessor.md R264). -/
def State.copRead (s : State) (z : Unit4) (r : Reg) : Word :=
  if s.copSupported z then (s.cpr[z.toNat]'z.isLt)[r.toNat]'r.isLt else s.free (.readCop z r)

/-- `CPR[z, r] <- v` as MTCz, z = 1..3, does it: undefined without the coprocessor (45_coprocessor.md R265). -/
def State.copWrite (s : State) (z : Unit4) (r : Reg) (v : Word) : State :=
  let w := if s.copSupported z then v else s.free (.writtenCop z r)
  { s with cpr := s.cpr.set z.toNat ((s.cpr[z.toNat]'z.isLt).set r.toNat w r.isLt) z.isLt }

/-- Whether the part has the condition line of coprocessor z: always for z = 0 (45_coprocessor.md R262). -/
def State.conditionValid (s : State) (z : Unit4) : Bool := z == 0 || s.cfg.bczValid.getLsbD z.toNat

/-- The condition line BCzF and BCzT test: the sample of the instruction before (10_state.md R42), or a free bit where the
part has no such line (45_coprocessor.md R262). -/
def State.condition (s : State) (z : Unit4) : Bool :=
  if s.conditionValid z then s.cpcPrev.getLsbD z.toNat else (s.free (.condition z)).getLsbD 0

/-- BCzF (`sense` false) and BCzT (`sense` true) (45_coprocessor.md R262, R263). -/
def branchOnCondition (i : Instr) (z : Unit4) (sense : Bool) (offset : BitVec 16) (s : State) : Answer :=
  guarded (unusable z s) (branchIf i (s.condition z == sense) offset) s

/-- MFCz, z = 1..3 (45_coprocessor.md R264). -/
def moveFromCop (i : Instr) (z : Unit4) (rt rd : Reg) (s : State) : Answer :=
  guarded (unusable z s) (fun s => complete i (s.delayReg rt (s.copRead z rd))) s

/-- MTCz, z = 1..3 (45_coprocessor.md R265). -/
def moveToCop (i : Instr) (z : Unit4) (rt rd : Reg) (s : State) : Answer :=
  guarded (unusable z s) (fun s => complete i (s.copWrite z rd (s.rt rt))) s

/-! ## Interrupts (60_exceptions.md R310 to R312) -/

/-- Status as the interrupt decision sees it: an MTC0 just before is not yet in effect (70_reset_and_hazards.md R373). -/
def State.interruptStatus (s : State) : Word :=
  match s.mtc0 with
  | some (r, old) => if s.cp0Register r = Cp0Register.status then old else s.sr
  | none => s.sr

/-- Cause.IP as the interrupt decision sees it (R310; 70_reset_and_hazards.md R373). -/
def State.interruptLines (s : State) : BitVec 8 :=
  let soft :=
    match s.mtc0 with
    | some (r, old) => if s.cp0Register r = Cp0Register.cause then old else s.cause
    | none => s.cause
  s.irq ++ soft.extractLsb' s.cfg.trap.cause.ip 2

/-- An interrupt is to be taken: IEc is set and an unmasked line is pending (R311). -/
def State.interruptPending (s : State) : Bool :=
  s.interruptStatus.getLsbD (enablePlace s.cfg.trap.status) &&
    (s.interruptLines &&& s.interruptStatus.extractLsb' s.cfg.trap.status.im 8) != 0

/-! ## The beginning of a step -/

/-- A step begins: the environment's lines for this step are taken over, and the free values are those of a new step. -/
def State.beginStep (s : State) : State :=
  match s.inputs with
  | [] => { s with tick := s.tick + 1 }
  | e :: rest => { s with tick := s.tick + 1, irq := e.irq, cpc := e.cpc, inputs := rest }

/-- What an instruction fetch gives. -/
inductive Fetched where
  | bytes (bs : List Byte)
  | raised (e : Exc)
  | refused (r : Refusal)
  deriving DecidableEq, Repr

/-- `n` instruction bytes from a physical address up. A byte outside the launch image, or without a value, is refused
(20_memory.md R81); one that a store has written may or may not be what the fetch sees, and is refused as well (20_memory.md R88). -/
def State.fetchBytes (s : State) (a : Word) : Nat → Except Refusal (List Byte)
  | 0 => .ok []
  | n + 1 =>
    if a.toNat ∈ s.stored then .error (.fetchStored a)
    else
      match s.cell a.toNat with
      | none => .error (.fetchUnwritten a)
      | some b =>
        match s.fetchBytes (a + 1) n with
        | .ok bs => .ok (b :: bs)
        | .error r => .error r

/-- `FetchWord(pc)` as bytes: the checks of a word access, then the four bytes (20_memory.md R76, R78). -/
def State.fetch (s : State) : Fetched :=
  match s.translate .fetch 4 s.pc with
  | .error e => .raised e
  | .ok a =>
    match s.fetchBytes a 4 with
    | .ok bs => .bytes bs
    | .error r => .refused r

end Sys2Proof.Machine
end

