-- ==== Sys2Proof/Machine/Alu.lean ====
section
/-! DEFINITION. The arithmetic, logical and comparison instructions (spec/41_computational_alu.md). -/

namespace Sys2Proof.Machine

/-- ADDI, 41_computational_alu.md R171: the sum with the sign-extended immediate, or Overflow. -/
def execAddi (rt rs : Reg) (imm : BitVec 16) (s : State) : Answer :=
  if addOverflows (s.rs rs) (signExtend imm) then raise [rs] .overflow s
  else completeWith (.addi rt rs imm) rt (s.rs rs + signExtend imm) s

/-- ADDIU, 41_computational_alu.md R172: the sum with the sign-extended immediate, modulo 2^32. -/
def execAddiu (rt rs : Reg) (imm : BitVec 16) (s : State) : Answer :=
  completeWith (.addiu rt rs imm) rt (s.rs rs + signExtend imm) s

/-- SLTI, 41_computational_alu.md R173: the signed comparison with the sign-extended immediate. -/
def execSlti (rt rs : Reg) (imm : BitVec 16) (s : State) : Answer :=
  completeWith (.slti rt rs imm) rt (boolWord (lessSigned (s.rs rs) (signExtend imm))) s

/-- SLTIU, 41_computational_alu.md R174: the unsigned comparison with the sign-extended immediate. -/
def execSltiu (rt rs : Reg) (imm : BitVec 16) (s : State) : Answer :=
  completeWith (.sltiu rt rs imm) rt (boolWord (lessUnsigned (s.rs rs) (signExtend imm))) s

/-- ANDI, 41_computational_alu.md R175: AND with the zero-extended immediate. -/
def execAndi (rt rs : Reg) (imm : BitVec 16) (s : State) : Answer :=
  completeWith (.andi rt rs imm) rt (s.rs rs &&& zeroExtend imm) s

/-- ORI, 41_computational_alu.md R176: OR with the zero-extended immediate. -/
def execOri (rt rs : Reg) (imm : BitVec 16) (s : State) : Answer :=
  completeWith (.ori rt rs imm) rt (s.rs rs ||| zeroExtend imm) s

/-- XORI, 41_computational_alu.md R177: exclusive OR with the zero-extended immediate. -/
def execXori (rt rs : Reg) (imm : BitVec 16) (s : State) : Answer :=
  completeWith (.xori rt rs imm) rt (s.rs rs ^^^ zeroExtend imm) s

/-- LUI, 41_computational_alu.md R178: the immediate in the upper half, zeros below. -/
def execLui (rt : Reg) (imm : BitVec 16) (s : State) : Answer :=
  completeWith (.lui rt imm) rt (upperImmediate imm) s

/-- ADD, 41_computational_alu.md R179: the sum, or Overflow. -/
def execAdd (rd rs rt : Reg) (s : State) : Answer :=
  if addOverflows (s.rs rs) (s.rt rt) then raise [rs, rt] .overflow s
  else completeWith (.add rd rs rt) rd (s.rs rs + s.rt rt) s

/-- ADDU, 41_computational_alu.md R180: the sum modulo 2^32. -/
def execAddu (rd rs rt : Reg) (s : State) : Answer :=
  completeWith (.addu rd rs rt) rd (s.rs rs + s.rt rt) s

/-- SUB, 41_computational_alu.md R181: the difference, or Overflow. -/
def execSub (rd rs rt : Reg) (s : State) : Answer :=
  if subOverflows (s.rs rs) (s.rt rt) then raise [rs, rt] .overflow s
  else completeWith (.sub rd rs rt) rd (s.rs rs - s.rt rt) s

/-- SUBU, 41_computational_alu.md R182: the difference modulo 2^32. -/
def execSubu (rd rs rt : Reg) (s : State) : Answer :=
  completeWith (.subu rd rs rt) rd (s.rs rs - s.rt rt) s

/-- SLT, 41_computational_alu.md R183: the signed comparison. -/
def execSlt (rd rs rt : Reg) (s : State) : Answer :=
  completeWith (.slt rd rs rt) rd (boolWord (lessSigned (s.rs rs) (s.rt rt))) s

/-- SLTU, 41_computational_alu.md R184: the unsigned comparison. -/
def execSltu (rd rs rt : Reg) (s : State) : Answer :=
  completeWith (.sltu rd rs rt) rd (boolWord (lessUnsigned (s.rs rs) (s.rt rt))) s

/-- AND, 41_computational_alu.md R185: bitwise AND. -/
def execAnd (rd rs rt : Reg) (s : State) : Answer :=
  completeWith (.and rd rs rt) rd (s.rs rs &&& s.rt rt) s

/-- OR, 41_computational_alu.md R186: bitwise OR. -/
def execOr (rd rs rt : Reg) (s : State) : Answer :=
  completeWith (.or rd rs rt) rd (s.rs rs ||| s.rt rt) s

/-- XOR, 41_computational_alu.md R187: bitwise exclusive OR. -/
def execXor (rd rs rt : Reg) (s : State) : Answer :=
  completeWith (.xor rd rs rt) rd (s.rs rs ^^^ s.rt rt) s

/-- NOR, 41_computational_alu.md R188: bitwise NOR. -/
def execNor (rd rs rt : Reg) (s : State) : Answer :=
  completeWith (.nor rd rs rt) rd (~~~(s.rs rs ||| s.rt rt)) s

end Sys2Proof.Machine
end

