-- ==== Sys2Proof/Machine/Coprocessor.lean ====
section
/-! DEFINITION. The coprocessor branches, and the moves of coprocessors 1 to 3 (spec/45_coprocessor.md). -/

namespace Sys2Proof.Machine

/-- BC0F, 45_coprocessor.md R262: if the condition line of coprocessor 0 was false. -/
def execBc0f (offset : BitVec 16) (s : State) : Answer :=
  branchOnCondition (.bc0f offset) 0 false offset s

/-- BC1F, 45_coprocessor.md R262: if the condition line of coprocessor 1 was false. -/
def execBc1f (offset : BitVec 16) (s : State) : Answer :=
  branchOnCondition (.bc1f offset) 1 false offset s

/-- BC2F, 45_coprocessor.md R262: if the condition line of coprocessor 2 was false. -/
def execBc2f (offset : BitVec 16) (s : State) : Answer :=
  branchOnCondition (.bc2f offset) 2 false offset s

/-- BC3F, 45_coprocessor.md R262: if the condition line of coprocessor 3 was false. -/
def execBc3f (offset : BitVec 16) (s : State) : Answer :=
  branchOnCondition (.bc3f offset) 3 false offset s

/-- BC0T, 45_coprocessor.md R263: if the condition line of coprocessor 0 was true. -/
def execBc0t (offset : BitVec 16) (s : State) : Answer :=
  branchOnCondition (.bc0t offset) 0 true offset s

/-- BC1T, 45_coprocessor.md R263: if the condition line of coprocessor 1 was true. -/
def execBc1t (offset : BitVec 16) (s : State) : Answer :=
  branchOnCondition (.bc1t offset) 1 true offset s

/-- BC2T, 45_coprocessor.md R263: if the condition line of coprocessor 2 was true. -/
def execBc2t (offset : BitVec 16) (s : State) : Answer :=
  branchOnCondition (.bc2t offset) 2 true offset s

/-- BC3T, 45_coprocessor.md R263: if the condition line of coprocessor 3 was true. -/
def execBc3t (offset : BitVec 16) (s : State) : Answer :=
  branchOnCondition (.bc3t offset) 3 true offset s

/-- MFC1, 45_coprocessor.md R264: CPR[1, rd] to x[rt], one instruction late. -/
def execMfc1 (rt rd : Reg) (s : State) : Answer :=
  moveFromCop (.mfc1 rt rd) 1 rt rd s

/-- MFC2, 45_coprocessor.md R264: CPR[2, rd] to x[rt], one instruction late. -/
def execMfc2 (rt rd : Reg) (s : State) : Answer :=
  moveFromCop (.mfc2 rt rd) 2 rt rd s

/-- MFC3, 45_coprocessor.md R264: CPR[3, rd] to x[rt], one instruction late. -/
def execMfc3 (rt rd : Reg) (s : State) : Answer :=
  moveFromCop (.mfc3 rt rd) 3 rt rd s

/-- MTC1, 45_coprocessor.md R265: x[rt] to CPR[1, rd]. -/
def execMtc1 (rt rd : Reg) (s : State) : Answer :=
  moveToCop (.mtc1 rt rd) 1 rt rd s

/-- MTC2, 45_coprocessor.md R265: x[rt] to CPR[2, rd]. -/
def execMtc2 (rt rd : Reg) (s : State) : Answer :=
  moveToCop (.mtc2 rt rd) 2 rt rd s

/-- MTC3, 45_coprocessor.md R265: x[rt] to CPR[3, rd]. -/
def execMtc3 (rt rd : Reg) (s : State) : Answer :=
  moveToCop (.mtc3 rt rd) 3 rt rd s

end Sys2Proof.Machine
end

