-- ==== Sys2Proof/Machine/Cp0.lean ====
section
/-! DEFINITION. The coprocessor 0 moves and the return from exception (spec/46_coprocessor0.md). -/

namespace Sys2Proof.Machine

/-- MFC0, 46_coprocessor0.md R277: CPR[0, rd] to x[rt], one instruction late. -/
def execMfc0 (rt rd : Reg) (s : State) : Answer :=
  guarded (unprivileged s) (fun s => complete (.mfc0 rt rd) (s.delayReg rt (s.cp0Read rd))) s

/-- MTC0, 46_coprocessor0.md R278: x[rt] to CPR[0, rd], in effect from the end of this step (R279). -/
def execMtc0 (rt rd : Reg) (s : State) : Answer :=
  guarded (unprivileged s) (fun s =>
    .next (((s.cp0Write rd (s.rt rt)).completed (.mtc0 rt rd) none).afterMtc0 rd (s.cp0Cell rd))) s

/-- RFE, 46_coprocessor0.md R280: the mode stack is popped. Directly after a load or store it is refused, since the operation
of that memory reference is unspecified (70_reset_and_hazards.md R369). -/
def execRfe (s : State) : Answer :=
  guarded (unprivileged s) (fun s =>
    if s.lastMemory then .refused .memoryBeforeRfe else complete .rfe s.popMode) s

end Sys2Proof.Machine
end

