-- ==== Sys2Proof/Machine/JumpBranch.lean ====
section
/-! DEFINITION. The jumps and branches (spec/44_jump_branch.md). Each takes effect after its delay slot (R230). -/

namespace Sys2Proof.Machine

/-- JR, 44_jump_branch.md R233: to the address in x[rs]. -/
def execJr (rs : Reg) (s : State) : Answer :=
  transfer (.jr rs) (some (s.rs rs)) s

/-- JALR, 44_jump_branch.md R234: to the address in x[rs], with the return address in x[rd]. With rs = rd the result is
undefined and not trapped: the link and the target are free values. -/
def execJalr (rs rd : Reg) (s : State) : Answer :=
  if rs = rd then transfer (.jalr rs rd) (some (s.free .jalrTarget)) (s.setReg rd (s.free .jalrLink))
  else transfer (.jalr rs rd) (some (s.rs rs)) (s.setReg rd s.returnAddress)

/-- J, 44_jump_branch.md R235: within the 256-Mbyte region of the delay slot. -/
def execJ (target : BitVec 26) (s : State) : Answer :=
  transfer (.j target) (some (s.jumpTarget target)) s

/-- JAL, 44_jump_branch.md R236: as J, with the return address in r31. -/
def execJal (target : BitVec 26) (s : State) : Answer :=
  transfer (.jal target) (some (s.jumpTarget target)) (s.setReg linkReg s.returnAddress)

/-- BEQ, 44_jump_branch.md R238: if x[rs] = x[rt]. -/
def execBeq (rs rt : Reg) (offset : BitVec 16) (s : State) : Answer :=
  branchIf (.beq rs rt offset) (s.rs rs == s.rt rt) offset s

/-- BNE, 44_jump_branch.md R239: if x[rs] and x[rt] differ. -/
def execBne (rs rt : Reg) (offset : BitVec 16) (s : State) : Answer :=
  branchIf (.bne rs rt offset) (s.rs rs != s.rt rt) offset s

/-- BLEZ, 44_jump_branch.md R240: if x[rs] is negative or zero. -/
def execBlez (rs : Reg) (offset : BitVec 16) (s : State) : Answer :=
  branchIf (.blez rs offset) (isNonPositive (s.rs rs)) offset s

/-- BGTZ, 44_jump_branch.md R241: if x[rs] is positive. -/
def execBgtz (rs : Reg) (offset : BitVec 16) (s : State) : Answer :=
  branchIf (.bgtz rs offset) (isPositive (s.rs rs)) offset s

/-- BLTZ, 44_jump_branch.md R242: if x[rs] is negative. -/
def execBltz (rs : Reg) (offset : BitVec 16) (s : State) : Answer :=
  branchIf (.bltz rs offset) (isNegative (s.rs rs)) offset s

/-- BGEZ, 44_jump_branch.md R243: if x[rs] is not negative. -/
def execBgez (rs : Reg) (offset : BitVec 16) (s : State) : Answer :=
  branchIf (.bgez rs offset) (!isNegative (s.rs rs)) offset s

/-- BLTZAL, 44_jump_branch.md R244: if x[rs] is negative; the return address goes to r31 in any case, after the
condition is read. -/
def execBltzal (rs : Reg) (offset : BitVec 16) (s : State) : Answer :=
  branchAndLinkIf (.bltzal rs offset) (isNegative (s.rs rs)) offset s

/-- BGEZAL, 44_jump_branch.md R245: if x[rs] is not negative; the return address goes to r31 in any case, after the
condition is read. -/
def execBgezal (rs : Reg) (offset : BitVec 16) (s : State) : Answer :=
  branchAndLinkIf (.bgezal rs offset) (!isNegative (s.rs rs)) offset s

end Sys2Proof.Machine
end

