-- ==== Sys2Proof/Machine/LoadStore.lean ====
section
/-! DEFINITION. The loads and stores (spec/40_load_store.md), each a line over the shared access operations. -/

namespace Sys2Proof.Machine

/-- LB, 40_load_store.md R141: the byte sign-extended, delivered one instruction late. -/
def execLb (rt : Reg) (offset : BitVec 16) (base : Reg) (s : State) : Answer :=
  loadWith (.lb rt offset base) 1 (fun b => (b.setWidth 8).signExtend 32) rt offset base s

/-- LBU, 40_load_store.md R142: the byte zero-extended, delivered one instruction late. -/
def execLbu (rt : Reg) (offset : BitVec 16) (base : Reg) (s : State) : Answer :=
  loadWith (.lbu rt offset base) 1 (fun b => (b.setWidth 8).setWidth 32) rt offset base s

/-- LH, 40_load_store.md R143: the halfword sign-extended, delivered one instruction late. -/
def execLh (rt : Reg) (offset : BitVec 16) (base : Reg) (s : State) : Answer :=
  loadWith (.lh rt offset base) 2 (fun h => (h.setWidth 16).signExtend 32) rt offset base s

/-- LHU, 40_load_store.md R144: the halfword zero-extended, delivered one instruction late. -/
def execLhu (rt : Reg) (offset : BitVec 16) (base : Reg) (s : State) : Answer :=
  loadWith (.lhu rt offset base) 2 (fun h => (h.setWidth 16).setWidth 32) rt offset base s

/-- LW, 40_load_store.md R145: the word, delivered one instruction late. -/
def execLw (rt : Reg) (offset : BitVec 16) (base : Reg) (s : State) : Answer :=
  loadWith (.lw rt offset base) 4 (fun w => w) rt offset base s

/-- LWL, 40_load_store.md R146: the bytes up to the addressed one, merged into the left of x[rt]. -/
def execLwl (rt : Reg) (offset : BitVec 16) (base : Reg) (s : State) : Answer :=
  loadLeft (.lwl rt offset base) rt offset base s

/-- LWR, 40_load_store.md R147: the bytes from the addressed one, merged into the right of x[rt]. -/
def execLwr (rt : Reg) (offset : BitVec 16) (base : Reg) (s : State) : Answer :=
  loadRight (.lwr rt offset base) rt offset base s

/-- SB, 40_load_store.md R148: the low 1 byte of x[rt]. -/
def execSb (rt : Reg) (offset : BitVec 16) (base : Reg) (s : State) : Answer :=
  storeOf (.sb rt offset base) 1 rt offset base s

/-- SH, 40_load_store.md R149: the low 2 bytes of x[rt]. -/
def execSh (rt : Reg) (offset : BitVec 16) (base : Reg) (s : State) : Answer :=
  storeOf (.sh rt offset base) 2 rt offset base s

/-- SW, 40_load_store.md R150: the low 4 bytes of x[rt]. -/
def execSw (rt : Reg) (offset : BitVec 16) (base : Reg) (s : State) : Answer :=
  storeOf (.sw rt offset base) 4 rt offset base s

/-- SWL, 40_load_store.md R151: the left bytes of x[rt], down to the addressed byte. -/
def execSwl (rt : Reg) (offset : BitVec 16) (base : Reg) (s : State) : Answer :=
  storeLeft (.swl rt offset base) rt offset base s

/-- SWR, 40_load_store.md R152: the right bytes of x[rt], up to the addressed byte. -/
def execSwr (rt : Reg) (offset : BitVec 16) (base : Reg) (s : State) : Answer :=
  storeRight (.swr rt offset base) rt offset base s

end Sys2Proof.Machine
end

