-- ==== Sys2Proof/Machine/MulDiv.lean ====
section
/-! DEFINITION. Multiply and divide (spec/43_computational_muldiv.md): exact integers, narrowed at the end. -/

namespace Sys2Proof.Machine

/-- MULT, 43_computational_muldiv.md R211: the exact signed product, high word in HI, low word in LO. -/
def execMult (rs rt : Reg) (s : State) : Answer :=
  writingHiLo true true (fun s =>
    let t := BitVec.ofInt 64 ((s.rs rs).toInt * (s.rt rt).toInt)
    complete (.mult rs rt) (s.setHiLo (t.extractLsb' 32 32) (t.extractLsb' 0 32))) s

/-- MULTU, 43_computational_muldiv.md R212: the exact unsigned product, high word in HI, low word in LO. -/
def execMultu (rs rt : Reg) (s : State) : Answer :=
  writingHiLo true true (fun s =>
    let t := BitVec.ofNat 64 ((s.rs rs).toNat * (s.rt rt).toNat)
    complete (.multu rs rt) (s.setHiLo (t.extractLsb' 32 32) (t.extractLsb' 0 32))) s

/-- DIV, 43_computational_muldiv.md R213: quotient in LO, remainder in HI, rounded toward zero (R215). A zero divisor leaves HI
and LO undefined; -2^31 by -1 gives DIV_CORNER. -/
def execDiv (rs rt : Reg) (s : State) : Answer :=
  writingHiLo true true (fun s =>
    let n := (s.rs rs).toInt
    let d := (s.rt rt).toInt
    if d = 0 then complete (.div rs rt) s.loseHiLo
    else if n = -2 ^ 31 ∧ d = -1 then complete (.div rs rt) (s.setHiLo s.cfg.divCornerHi s.cfg.divCornerLo)
    else complete (.div rs rt) (s.setHiLo (BitVec.ofInt 32 (n.tmod d)) (BitVec.ofInt 32 (n.tdiv d)))) s

/-- DIVU, 43_computational_muldiv.md R214: unsigned quotient in LO, remainder in HI. A zero divisor leaves HI and LO
undefined. -/
def execDivu (rs rt : Reg) (s : State) : Answer :=
  writingHiLo true true (fun s =>
    let n := (s.rs rs).toNat
    let d := (s.rt rt).toNat
    if d = 0 then complete (.divu rs rt) s.loseHiLo
    else complete (.divu rs rt) (s.setHiLo (BitVec.ofNat 32 (n % d)) (BitVec.ofNat 32 (n / d)))) s

end Sys2Proof.Machine
end

