-- ==== Sys2Proof/Machine/Shift.lean ====
section
/-! DEFINITION. The shifts (spec/42_computational_shift.md): by the shamt field, or by the low five bits of a register. -/

namespace Sys2Proof.Machine

/-- SLL, 42_computational_shift.md R201: x[rt] shifted left by shamt, zeros below. -/
def execSll (rd rt : Reg) (shamt : BitVec 5) (s : State) : Answer :=
  completeWith (.sll rd rt shamt) rd (s.rt rt <<< shamt) s

/-- SRL, 42_computational_shift.md R202: x[rt] shifted right by shamt, zeros above. -/
def execSrl (rd rt : Reg) (shamt : BitVec 5) (s : State) : Answer :=
  completeWith (.srl rd rt shamt) rd (s.rt rt >>> shamt) s

/-- SRA, 42_computational_shift.md R203: x[rt] shifted right by shamt, copies of the sign bit above. -/
def execSra (rd rt : Reg) (shamt : BitVec 5) (s : State) : Answer :=
  completeWith (.sra rd rt shamt) rd ((s.rt rt).sshiftRight shamt.toNat) s

/-- SLLV, 42_computational_shift.md R204: x[rt] shifted by the low five bits of x[rs] left, zeros below. -/
def execSllv (rd rt rs : Reg) (s : State) : Answer :=
  completeWith (.sllv rd rt rs) rd (s.rt rt <<< shiftAmount (s.rs rs)) s

/-- SRLV, 42_computational_shift.md R205: x[rt] shifted by the low five bits of x[rs] right, zeros above. -/
def execSrlv (rd rt rs : Reg) (s : State) : Answer :=
  completeWith (.srlv rd rt rs) rd (s.rt rt >>> shiftAmount (s.rs rs)) s

/-- SRAV, 42_computational_shift.md R206: x[rt] shifted by the low five bits of x[rs] right, copies of the sign bit above. -/
def execSrav (rd rt rs : Reg) (s : State) : Answer :=
  completeWith (.srav rd rt rs) rd ((s.rt rt).sshiftRight (shiftAmount (s.rs rs)).toNat) s

end Sys2Proof.Machine
end

