-- ==== Sys2Proof/Machine/Special.lean ====
section
/-! DEFINITION. The special instructions (spec/47_special.md): system call, breakpoint, and the moves of HI and LO. -/

namespace Sys2Proof.Machine

/-- SYSCALL, 47_special.md R291: System Call, whatever the code field holds. -/
def execSyscall (_code : BitVec 20) (s : State) : Answer :=
  raise [] .systemCall s

/-- BREAK, 47_special.md R292: Breakpoint, whatever the code field holds. -/
def execBrk (_code : BitVec 20) (s : State) : Answer :=
  raise [] .breakpoint s

/-- MFHI, 47_special.md R293: HI to x[rd]. -/
def execMfhi (rd : Reg) (s : State) : Answer :=
  completeWith (.mfhi rd) rd s.readHi s.staleMd

/-- MTHI, 47_special.md R294: x[rs] to HI. -/
def execMthi (rs : Reg) (s : State) : Answer :=
  writingHiLo true false (fun s => complete (.mthi rs) (s.moveToHi (s.rs rs))) s

/-- MFLO, 47_special.md R296: LO to x[rd]. -/
def execMflo (rd : Reg) (s : State) : Answer :=
  completeWith (.mflo rd) rd s.readLo s.staleMd

/-- MTLO, 47_special.md R295: x[rs] to LO. -/
def execMtlo (rs : Reg) (s : State) : Answer :=
  writingHiLo false true (fun s => complete (.mtlo rs) (s.moveToLo (s.rs rs))) s

end Sys2Proof.Machine
end

