-- ==== Sys2Proof/Machine/Dispatch.lean ====
section
/-! DEFINITION. The instruction's meaning, one arm per constructor of Instr. -/

namespace Sys2Proof.Machine

/-- What an instruction does (steps 6 to 8 of 10_state.md R28). -/
def exec (i : Instr) (s : State) : Host.Outcome State Fault Refusal :=
  match i with
  | .lb rt offset base => Sys2Proof.Machine.execLb rt offset base s
  | .lbu rt offset base => Sys2Proof.Machine.execLbu rt offset base s
  | .lh rt offset base => Sys2Proof.Machine.execLh rt offset base s
  | .lhu rt offset base => Sys2Proof.Machine.execLhu rt offset base s
  | .lw rt offset base => Sys2Proof.Machine.execLw rt offset base s
  | .lwl rt offset base => Sys2Proof.Machine.execLwl rt offset base s
  | .lwr rt offset base => Sys2Proof.Machine.execLwr rt offset base s
  | .sb rt offset base => Sys2Proof.Machine.execSb rt offset base s
  | .sh rt offset base => Sys2Proof.Machine.execSh rt offset base s
  | .sw rt offset base => Sys2Proof.Machine.execSw rt offset base s
  | .swl rt offset base => Sys2Proof.Machine.execSwl rt offset base s
  | .swr rt offset base => Sys2Proof.Machine.execSwr rt offset base s
  | .addi rt rs imm => Sys2Proof.Machine.execAddi rt rs imm s
  | .addiu rt rs imm => Sys2Proof.Machine.execAddiu rt rs imm s
  | .slti rt rs imm => Sys2Proof.Machine.execSlti rt rs imm s
  | .sltiu rt rs imm => Sys2Proof.Machine.execSltiu rt rs imm s
  | .andi rt rs imm => Sys2Proof.Machine.execAndi rt rs imm s
  | .ori rt rs imm => Sys2Proof.Machine.execOri rt rs imm s
  | .xori rt rs imm => Sys2Proof.Machine.execXori rt rs imm s
  | .lui rt imm => Sys2Proof.Machine.execLui rt imm s
  | .add rd rs rt => Sys2Proof.Machine.execAdd rd rs rt s
  | .addu rd rs rt => Sys2Proof.Machine.execAddu rd rs rt s
  | .sub rd rs rt => Sys2Proof.Machine.execSub rd rs rt s
  | .subu rd rs rt => Sys2Proof.Machine.execSubu rd rs rt s
  | .slt rd rs rt => Sys2Proof.Machine.execSlt rd rs rt s
  | .sltu rd rs rt => Sys2Proof.Machine.execSltu rd rs rt s
  | .and rd rs rt => Sys2Proof.Machine.execAnd rd rs rt s
  | .or rd rs rt => Sys2Proof.Machine.execOr rd rs rt s
  | .xor rd rs rt => Sys2Proof.Machine.execXor rd rs rt s
  | .nor rd rs rt => Sys2Proof.Machine.execNor rd rs rt s
  | .sll rd rt shamt => Sys2Proof.Machine.execSll rd rt shamt s
  | .srl rd rt shamt => Sys2Proof.Machine.execSrl rd rt shamt s
  | .sra rd rt shamt => Sys2Proof.Machine.execSra rd rt shamt s
  | .sllv rd rt rs => Sys2Proof.Machine.execSllv rd rt rs s
  | .srlv rd rt rs => Sys2Proof.Machine.execSrlv rd rt rs s
  | .srav rd rt rs => Sys2Proof.Machine.execSrav rd rt rs s
  | .mult rs rt => Sys2Proof.Machine.execMult rs rt s
  | .multu rs rt => Sys2Proof.Machine.execMultu rs rt s
  | .div rs rt => Sys2Proof.Machine.execDiv rs rt s
  | .divu rs rt => Sys2Proof.Machine.execDivu rs rt s
  | .jr rs => Sys2Proof.Machine.execJr rs s
  | .jalr rs rd => Sys2Proof.Machine.execJalr rs rd s
  | .j target => Sys2Proof.Machine.execJ target s
  | .jal target => Sys2Proof.Machine.execJal target s
  | .beq rs rt offset => Sys2Proof.Machine.execBeq rs rt offset s
  | .bne rs rt offset => Sys2Proof.Machine.execBne rs rt offset s
  | .blez rs offset => Sys2Proof.Machine.execBlez rs offset s
  | .bgtz rs offset => Sys2Proof.Machine.execBgtz rs offset s
  | .bltz rs offset => Sys2Proof.Machine.execBltz rs offset s
  | .bgez rs offset => Sys2Proof.Machine.execBgez rs offset s
  | .bltzal rs offset => Sys2Proof.Machine.execBltzal rs offset s
  | .bgezal rs offset => Sys2Proof.Machine.execBgezal rs offset s
  | .bc0f offset => Sys2Proof.Machine.execBc0f offset s
  | .bc1f offset => Sys2Proof.Machine.execBc1f offset s
  | .bc2f offset => Sys2Proof.Machine.execBc2f offset s
  | .bc3f offset => Sys2Proof.Machine.execBc3f offset s
  | .bc0t offset => Sys2Proof.Machine.execBc0t offset s
  | .bc1t offset => Sys2Proof.Machine.execBc1t offset s
  | .bc2t offset => Sys2Proof.Machine.execBc2t offset s
  | .bc3t offset => Sys2Proof.Machine.execBc3t offset s
  | .mfc0 rt rd => Sys2Proof.Machine.execMfc0 rt rd s
  | .mfc1 rt rd => Sys2Proof.Machine.execMfc1 rt rd s
  | .mfc2 rt rd => Sys2Proof.Machine.execMfc2 rt rd s
  | .mfc3 rt rd => Sys2Proof.Machine.execMfc3 rt rd s
  | .mtc0 rt rd => Sys2Proof.Machine.execMtc0 rt rd s
  | .mtc1 rt rd => Sys2Proof.Machine.execMtc1 rt rd s
  | .mtc2 rt rd => Sys2Proof.Machine.execMtc2 rt rd s
  | .mtc3 rt rd => Sys2Proof.Machine.execMtc3 rt rd s
  | .rfe => Sys2Proof.Machine.execRfe s
  | .syscall code => Sys2Proof.Machine.execSyscall code s
  | .brk code => Sys2Proof.Machine.execBrk code s
  | .mfhi rd => Sys2Proof.Machine.execMfhi rd s
  | .mthi rs => Sys2Proof.Machine.execMthi rs s
  | .mflo rd => Sys2Proof.Machine.execMflo rd s
  | .mtlo rs => Sys2Proof.Machine.execMtlo rs s

end Sys2Proof.Machine
end

