-- ==== Sys2Proof/Machine/Execute.lean ====
section
/-! DEFINITION. From decoded bytes to the outcome: the instruction's meaning, or what becomes of a word that is none
(30_encoding.md R120 to R123; 60_exceptions.md R331). -/

namespace Sys2Proof.Machine

/-- A word that is no instruction raises an exception: it counts as an executed instruction that did not complete
(70_reset_and_hazards.md R367). -/
def raiseUndecoded (e : Exc) (s : State) : Answer := raise [] e s

/-- The usability exception of an instruction of the COPz words, none for the others: the check that comes before the
word's constant fields are looked at (30_encoding.md R120). -/
def usabilityOf (i : Instr) (s : State) : Option Exc :=
  match i with
  | .lb _ _ _ => none
  | .lbu _ _ _ => none
  | .lh _ _ _ => none
  | .lhu _ _ _ => none
  | .lw _ _ _ => none
  | .lwl _ _ _ => none
  | .lwr _ _ _ => none
  | .sb _ _ _ => none
  | .sh _ _ _ => none
  | .sw _ _ _ => none
  | .swl _ _ _ => none
  | .swr _ _ _ => none
  | .addi _ _ _ => none
  | .addiu _ _ _ => none
  | .slti _ _ _ => none
  | .sltiu _ _ _ => none
  | .andi _ _ _ => none
  | .ori _ _ _ => none
  | .xori _ _ _ => none
  | .lui _ _ => none
  | .add _ _ _ => none
  | .addu _ _ _ => none
  | .sub _ _ _ => none
  | .subu _ _ _ => none
  | .slt _ _ _ => none
  | .sltu _ _ _ => none
  | .and _ _ _ => none
  | .or _ _ _ => none
  | .xor _ _ _ => none
  | .nor _ _ _ => none
  | .sll _ _ _ => none
  | .srl _ _ _ => none
  | .sra _ _ _ => none
  | .sllv _ _ _ => none
  | .srlv _ _ _ => none
  | .srav _ _ _ => none
  | .mult _ _ => none
  | .multu _ _ => none
  | .div _ _ => none
  | .divu _ _ => none
  | .jr _ => none
  | .jalr _ _ => none
  | .j _ => none
  | .jal _ => none
  | .beq _ _ _ => none
  | .bne _ _ _ => none
  | .blez _ _ => none
  | .bgtz _ _ => none
  | .bltz _ _ => none
  | .bgez _ _ => none
  | .bltzal _ _ => none
  | .bgezal _ _ => none
  | .bc0f _ => unusable 0 s
  | .bc1f _ => unusable 1 s
  | .bc2f _ => unusable 2 s
  | .bc3f _ => unusable 3 s
  | .bc0t _ => unusable 0 s
  | .bc1t _ => unusable 1 s
  | .bc2t _ => unusable 2 s
  | .bc3t _ => unusable 3 s
  | .mfc0 _ _ => unprivileged s
  | .mfc1 _ _ => unusable 1 s
  | .mfc2 _ _ => unusable 2 s
  | .mfc3 _ _ => unusable 3 s
  | .mtc0 _ _ => unprivileged s
  | .mtc1 _ _ => unusable 1 s
  | .mtc2 _ _ => unusable 2 s
  | .mtc3 _ _ => unusable 3 s
  | .rfe => unprivileged s
  | .syscall _ => none
  | .brk _ => none
  | .mfhi _ => none
  | .mthi _ => none
  | .mflo _ => none
  | .mtlo _ => none

/-- A word that names an instruction but has a constant-zero field that is not zero: RESERVED_FIELD_POLICY (R121). -/
def runNonZeroField (i : Instr) (s : State) : Answer :=
  match usabilityOf i s with
  | some e => raiseUndecoded e s
  | none =>
    match s.cfg.reservedFieldPolicy with
    | .refuse => .refused .nonZeroField
    | .ri => raiseUndecoded .reservedInstruction s
    | .ignore => exec i s

/-- A COPz word with an undefined minor opcode: the usability check first (CpU), then Reserved Instruction
(60_exceptions.md R331). For z = 0 only a word whose bits 25:21 are BC is checked. -/
def runCopReserved (z : Unit4) (branch : Bool) (s : State) : Answer :=
  if z = 0 ∧ branch = false then raiseUndecoded .reservedInstruction s
  else
    match unusable z s with
    | some e => raiseUndecoded e s
    | none => raiseUndecoded .reservedInstruction s

/-- A COPz operation, z = 1..3: Coprocessor Unusable, or refused (45_coprocessor.md R266). -/
def runCopOperation (z : Unit4) (s : State) : Answer :=
  match unusable z s with
  | some e => raiseUndecoded e s
  | none => .refused (.copOperation z)

/-- What becomes of a fetched word (steps 5 to 8 of 10_state.md R28). A fetch never gives fewer than four bytes; such a
list would be no instruction at all. -/
def runDecoded (d : Decoded) (s : State) : Answer :=
  match d with
  | .instr i => exec i s
  | .nonZeroField i => runNonZeroField i s
  | .reserved => raiseUndecoded .reservedInstruction s
  | .copReserved z branch => runCopReserved z branch s
  | .copOperation z => runCopOperation z s
  | .truncated => raiseUndecoded .reservedInstruction s

/-- One step (10_state.md R28): an interrupt if one is to be taken; otherwise the pending delayed write is delivered and
the instruction at pc is fetched, decoded and run. -/
def runStep (s : State) : Answer :=
  let b := s.beginStep
  if b.interruptPending then takeException .interrupt b
  else
    let d := b.deliver
    match d.fetch with
    | .raised e => takeException e d
    | .refused r => .refused r
    | .bytes bs => runDecoded (decodeBytes d.cfg.bigEndian d.cfg.mulDivEncoding bs) d

/-- The bytes of a word placed at a physical address as part of what is loaded before the run: they are not stores of the
program (20_memory.md R88). Where the launch image does not cover them, it does so now. -/
def placeBytes (s : State) (a : Word) (bs : List Byte) : State :=
  let image :=
    if (List.range bs.length).all fun k => inRanges s.image (a + BitVec.ofNat 32 k).toNat then s.image
    else ⟨a.toNat, a.toNat + bs.length - 1⟩ :: s.image
  { s with
    image := image
    mem := writeBytes image s.mem a bs
    stored := s.stored.filter fun x => x < a.toNat || a.toNat + bs.length ≤ x }

end Sys2Proof.Machine
end

