-- ==== Sys2Proof/Machine/Step.lean ====
section
/-! DEFINITION. The step function, and where a step fetches its instruction. -/

namespace Sys2Proof.Machine

/-- One step of the machine (10_state.md R28). -/
def step (s : State) : Host.Outcome State Fault Refusal := runStep s

/-- `s` with the instruction whose bits are `w` in memory where the next step fetches: at the physical address of pc, in
the configured byte order (20_memory.md R62, R71). It stands for a program loaded from outside (log entry 3). -/
def State.withFetchWord (s : State) (nbits w : Nat) : State :=
  placeBytes s (physical s.cfg.segments s.pc) (wordToBytes s.cfg.bigEndian 4 (BitVec.ofNat 32 (w % 2 ^ nbits)))

end Sys2Proof.Machine
end

