-- ==== Sys2Proof/Safety.lean ====
section
/-! DEFINITION. The terms in which statements about the machine are made: what an instruction leaves as it was, the ways
in which it completes, the state after trap entry, and the invariant of every run. -/

namespace Sys2Proof.Machine

/-! ## What stays as it was -/

/-- Every general register reads as before. -/
def SameRegs (s t : State) : Prop := ∀ q : Reg, t.reg q = s.reg q

/-- Every general register but x[d] reads as before. -/
def SameRegsExcept (d : Reg) (s t : State) : Prop := ∀ q : Reg, q ≠ d → t.reg q = s.reg q

/-- HI and LO, and whether they are defined, are as before (10_state.md R24, R25). -/
def SameHiLo (s t : State) : Prop :=
  t.hi = s.hi ∧ t.lo = s.lo ∧ t.hiDefined = s.hiDefined ∧ t.loDefined = s.loDefined

/-- Every coprocessor 0 register is as before (10_state.md R34 to R38). -/
def SameCp0 (s t : State) : Prop :=
  t.sr = s.sr ∧ t.cause = s.cause ∧ t.epc = s.epc ∧ t.badVAddr = s.badVAddr ∧ t.prId = s.prId ∧ t.bpc = s.bpc ∧
    t.bda = s.bda ∧ t.dcic = s.dcic ∧ t.cp0Other = s.cp0Other

/-- Every register of coprocessors 1 to 3 is as before (10_state.md R39). -/
def SameCops (s t : State) : Prop := t.cpr = s.cpr ∧ t.ccr = s.ccr

/-- Every byte of memory reads as before, no more bytes count as stored to, and the launch image is the same (20_memory.md
R60, R81, R88). -/
def SameMemory (s t : State) : Prop :=
  (∀ a : Word, t.byteAt a = s.byteAt a) ∧ (∀ a : Nat, t.mem.read a = s.mem.read a) ∧ t.stored = s.stored ∧
    t.image = s.image

/-- The input lines, the inputs to come, the parameters and the number of the step are as before. -/
def SameInputs (s t : State) : Prop :=
  t.cpc = s.cpc ∧ t.irq = s.irq ∧ t.inputs = s.inputs ∧ t.cfg = s.cfg ∧ t.tick = s.tick

/-- The pending delayed register write and the stale register are as before (10_state.md R40). -/
def SamePending (s t : State) : Prop := t.ld = s.ld ∧ t.stale = s.stale

/-! ## How an instruction completes -/

/-- Execution goes on with the next instruction, not in a delay slot (10_state.md R28, step 8). -/
def GoesOn (s t : State) : Prop := t.pc = s.npc ∧ t.npc = s.npc + 4 ∧ t.ds = false

/-- `i` completes with `x[d] <- v` and nothing else: the result can be read at once (41_computational_alu.md R170), and a
write to register 0 is discarded (R170; 10_state.md R21 by decision D1, log entry 20). -/
def WritesReg (i : Instr) (d : Reg) (v : Word) (s : State) : Prop :=
  ∃ t, exec i s = .next t ∧ t.reg d = (if d = 0 then 0 else v) ∧ SameRegsExcept d s t ∧ SameHiLo s t ∧
    t.mdFresh = s.mdFresh ∧ SameCp0 s t ∧ SameCops s t ∧ SamePending s t ∧ SameMemory s t ∧ SameInputs s t ∧ GoesOn s t

/-- `i` completes with `v` pending for x[d], to arrive one instruction late (40_load_store.md R154), and nothing else; for
register 0 nothing is pending. -/
def LoadsReg (i : Instr) (d : Reg) (v : Word) (s : State) : Prop :=
  ∃ t, exec i s = .next t ∧ t.ld = (if d = 0 then none else some (d, v)) ∧ t.stale = s.stale ∧ SameRegs s t ∧
    SameHiLo s t ∧ t.mdFresh = s.mdFresh ∧ SameCp0 s t ∧ SameCops s t ∧ SameMemory s t ∧ SameInputs s t ∧ GoesOn s t

/-- `i` completes with the bytes `bs` stored at ascending physical addresses from `p` up, where these are in the launch
image, every other byte reading as before, and nothing else (20_memory.md R70, R72, R80). A byte outside the launch image
is the platform's: a later load there finds the platform's answer, not what was stored (R81; log entry 4). -/
def StoresBytes (i : Instr) (p : Word) (bs : List Byte) (s : State) : Prop :=
  ∃ t, exec i s = .next t ∧
    (∀ k b, bs[k]? = some b → s.inImage (p + BitVec.ofNat 32 k).toNat = true → t.byteAt (p + BitVec.ofNat 32 k) = b) ∧
    (∀ a : Word, (∀ k < bs.length, a ≠ p + BitVec.ofNat 32 k) ∨ s.inImage a.toNat = false →
      t.byteAt a = s.byteAt a ∧ t.mem.read a.toNat = s.mem.read a.toNat) ∧
    t.image = s.image ∧
    (∀ a : Nat, a ∈ t.stored ↔ a ∈ s.stored ∨ ∃ k < bs.length, a = (p + BitVec.ofNat 32 k).toNat) ∧
    SameRegs s t ∧ SameHiLo s t ∧ t.mdFresh = s.mdFresh ∧ SameCp0 s t ∧ SameCops s t ∧ SamePending s t ∧
    SameInputs s t ∧ GoesOn s t

/-- The register `q` was written by an MFHI (`fromHi`) or MFLO one or two instructions ago (70_reset_and_hazards.md
R365). -/
def RecentRead (fromHi : Bool) (q : Reg) (s : State) : Prop :=
  ∃ e, (s.hist1 = some e ∨ s.hist2 = some e) ∧ e.fromHi = fromHi ∧ e.rd = q

/-- The result of an MFHI (`fromHi`) or MFLO two instructions ago has been used by the instruction between. -/
def ConsumedRead (fromHi : Bool) (s : State) : Prop :=
  ∃ e, s.hist2 = some e ∧ e.fromHi = fromHi ∧ e.consumed = true

/-- `v` is what a writer of HI or LO reads from x[r]: the register as an operand, but a free value where it holds the
result of a recent read of what is written (70_reset_and_hazards.md R365; the free value is log entry 7). -/
def ReadsOperand (writesHi writesLo : Bool) (purpose : FreeUse) (r : Reg) (v : Word) (s : State) : Prop :=
  ((r = 0 ∨ s.stale = some r ∨
      (¬ (writesHi = true ∧ RecentRead true r s) ∧ ¬ (writesLo = true ∧ RecentRead false r s))) →
    v = s.operand purpose r) ∧
  (r ≠ 0 → s.stale ≠ some r → (writesHi = true ∧ RecentRead true r s) ∨ (writesLo = true ∧ RecentRead false r s) →
    v = s.free (.hiLoResult r))

/-- Every general register reads as before but those that a recent MFHI (if HI is written) or MFLO (if LO is written) has
written, whose contents are undefined (70_reset_and_hazards.md R365). -/
def SameRegsButRecent (writesHi writesLo : Bool) (s t : State) : Prop :=
  ∀ q : Reg, ¬ (writesHi = true ∧ RecentRead true q s) → ¬ (writesLo = true ∧ RecentRead false q s) → t.reg q = s.reg q

/-- `i` completes with both HI and LO defined as given (43_computational_muldiv.md R210). -/
def SetsHiLo (i : Instr) (hi lo : Word) (s : State) : Prop :=
  ∃ t, exec i s = .next t ∧ t.hi = hi ∧ t.lo = lo ∧ t.hiDefined = true ∧ t.loDefined = true ∧ t.mdFresh = true ∧
    SameRegsButRecent true true s t ∧ SameCp0 s t ∧ SameCops s t ∧ SamePending s t ∧ SameMemory s t ∧ SameInputs s t ∧
    GoesOn s t

/-- `i` completes with HI and LO undefined: each holds a free value and is marked undefined (10_state.md R25 c). -/
def LosesHiLo (i : Instr) (s : State) : Prop :=
  ∃ t, exec i s = .next t ∧ t.hi = s.free .lostHi ∧ t.lo = s.free .lostLo ∧ t.hiDefined = false ∧ t.loDefined = false ∧
    t.mdFresh = true ∧ SameRegsButRecent true true s t ∧ SameCp0 s t ∧ SameCops s t ∧ SamePending s t ∧
    SameMemory s t ∧ SameInputs s t ∧ GoesOn s t

/-- The general registers after a jump or branch: as before, but for the link if there is one. -/
def LinksReg (link : Option (Reg × Word)) (s t : State) : Prop :=
  match link with
  | none => SameRegs s t
  | some (d, v) => t.reg d = (if d = 0 then 0 else v) ∧ SameRegsExcept d s t

/-- The jump or branch `i` completes: the instruction in the delay slot comes next, and after it the one at the target, if
there is one (10_state.md R28, R29; 44_jump_branch.md R230). -/
def Transfers (i : Instr) (target : Option Word) (link : Option (Reg × Word)) (s : State) : Prop :=
  ∃ t, exec i s = .next t ∧ t.pc = s.npc ∧ t.npc = target.getD (s.npc + 4) ∧ t.ds = true ∧ LinksReg link s t ∧
    SameHiLo s t ∧ t.mdFresh = s.mdFresh ∧ SameCp0 s t ∧ SameCops s t ∧ SamePending s t ∧ SameMemory s t ∧
    SameInputs s t

/-! ## Exceptions -/

/-- What TRAP holds for an exception (60_exceptions.md R301, R322). -/
def entryFor (trap : Trap) : Exc → ExceptionEntry
  | .interrupt => trap.interrupt
  | .addressErrorLoad _ => trap.addressErrorLoad
  | .addressErrorStore _ => trap.addressErrorStore
  | .busErrorFetch => trap.busErrorFetch
  | .busErrorData => trap.busErrorData
  | .systemCall => trap.systemCall
  | .breakpoint => trap.breakpoint
  | .reservedInstruction => trap.reservedInstruction
  | .coprocessorUnusable _ => trap.coprocessorUnusable
  | .overflow => trap.overflow

/-- The unit that a Coprocessor Unusable records in Cause.CE; no other exception writes CE (60_exceptions.md R320). -/
def unitFor : Exc → Option Unit4
  | .coprocessorUnusable z => some z
  | _ => none

/-- Bit k of Cause after trap entry: BD, CE for a Coprocessor Unusable, ExcCode, and the other bits kept (60_exceptions.md
R320, R324), at the places TRAP gives the fields. Where a TRAP lets fields overlap, the one named first here wins; in the
default they do not (log entry 46). -/
def causeBitAfter (trap : Trap) (old : Word) (inDelaySlot : Bool) (e : Exc) (k : Nat) : Bool :=
  if k = trap.cause.bd then inDelaySlot
  else if trap.cause.ce ≤ k ∧ k < trap.cause.ce + 2 ∧ unitFor e ≠ none then
    ((unitFor e).getD 0).getLsbD (k - trap.cause.ce)
  else if trap.cause.excCode ≤ k ∧ k < trap.cause.excCode + 5 then
    (entryFor trap e).code.getLsbD (k - trap.cause.excCode)
  else old.getLsbD k

/-- BadVAddr after trap entry: the address of an Address Error; any other exception keeps it (60_exceptions.md R303,
R304). -/
def badAddressAfter (old : Word) : Exc → Word
  | .addressErrorLoad a => a
  | .addressErrorStore a => a
  | _ => old

/-- The state after trap entry for `e`, field by field (60_exceptions.md R320 to R323; log entry 21). -/
structure TrapEntered (e : Exc) (s t : State) : Prop where
  /-- EPC holds the address of the instruction, or of the jump or branch before it (R321). -/
  epc : t.epc = if s.ds then s.pc - 4 else s.pc
  /-- Cause: BD, ExcCode and CE as R320 says, the other bits kept (R324). -/
  cause : ∀ k < 32, t.cause.getLsbD k = causeBitAfter s.cfg.trap s.cause s.ds e k
  /-- BadVAddr holds the address of an Address Error and is kept by any other exception (R303, R304). -/
  badVAddr : t.badVAddr = badAddressAfter s.badVAddr e
  /-- Kernel mode, interrupts disabled (R323). -/
  current : t.sr.getLsbD 0 = false ∧ t.sr.getLsbD 1 = false
  /-- Current goes to previous, previous to old (R323). -/
  pushed : ∀ k < 4, t.sr.getLsbD (k + 2) = s.sr.getLsbD k
  /-- The other bits of Status are kept. -/
  otherStatus : ∀ k, 6 ≤ k → t.sr.getLsbD k = s.sr.getLsbD k
  /-- The handler's address, by SR.BEV; its first instruction is not in a delay slot (R322). -/
  vector : t.pc = (if s.sr.getLsbD s.cfg.trap.status.bev then (entryFor s.cfg.trap e).bootVector
    else (entryFor s.cfg.trap e).vector) ∧ t.npc = t.pc + 4 ∧ t.ds = false
  /-- A write by an MTC0 just before is complete (R314). -/
  settled : t.mtc0 = none
  /-- Nothing else changes (R320). -/
  regs : SameRegs s t
  hiLo : SameHiLo s t ∧ t.mdFresh = s.mdFresh
  cp0 : t.prId = s.prId ∧ t.bpc = s.bpc ∧ t.bda = s.bda ∧ t.dcic = s.dcic ∧ t.cp0Other = s.cp0Other
  cops : SameCops s t
  pending : SamePending s t
  memory : SameMemory s t
  inputs : SameInputs s t ∧ t.cpcPrev = s.cpcPrev

/-- The answer `a` takes the exception `e` in state `s`: trap entry under TRAP.MODE = vectored, the end of the run under
TRAP.MODE = terminal (60_exceptions.md R300). -/
def Takes (a : Answer) (e : Exc) (s : State) : Prop :=
  (s.cfg.trap.mode = .vectored → ∃ t, a = .next t ∧ TrapEntered e s t) ∧
    (s.cfg.trap.mode = .terminal → a = .fault (.trapped e (if s.ds then s.pc - 4 else s.pc) s.ds))

/-! ## Accesses -/

/-- An access of `n` bytes at the virtual address `a` passes every check of 20_memory.md R76: it is aligned, not a user
mode reference to the upper half of the address space, and not refused by the platform. -/
def Accessible (kind : AccessKind) (n : Nat) (a : Word) (s : State) : Prop :=
  a.toNat % n = 0 ∧ ¬ (s.userMode = true ∧ 2 ^ 31 ≤ a.toNat) ∧ busRefuses s.cfg (physical s.cfg.segments a) kind = false

/-- An address lies in a segment: between its first byte and the last byte of its last word (20_memory.md R62). -/
def InSegment (g : Segment) (a : Word) : Prop :=
  4 * g.firstWord.toNat ≤ a.toNat ∧ a.toNat < 4 * g.lastWord.toNat + 4

/-! ## What kind of instruction it is -/

/-- The twelve loads and stores (40_load_store.md R140). -/
def LoadOrStore (i : Instr) : Prop :=
  ∃ rt offset base, i ∈ [.lb rt offset base, .lbu rt offset base, .lh rt offset base, .lhu rt offset base,
    .lw rt offset base, .lwl rt offset base, .lwr rt offset base, .sb rt offset base, .sh rt offset base,
    .sw rt offset base, .swl rt offset base, .swr rt offset base]

/-- The jumps and branches (10_state.md R28). -/
def JumpOrBranch (i : Instr) : Prop :=
  (∃ target, i ∈ [.j target, .jal target]) ∨ (∃ rs rd, i ∈ [.jr rs, .jalr rs rd]) ∨
  (∃ rs rt offset, i ∈ [.beq rs rt offset, .bne rs rt offset, .blez rs offset, .bgtz rs offset, .bltz rs offset,
    .bgez rs offset, .bltzal rs offset, .bgezal rs offset]) ∨
  ∃ z offset, i ∈ [branchFalse z offset, branchTrue z offset]

/-- Instruction `i` reads x[q] (10_state.md R23). -/
def ReadsRegister (i : Instr) (q : Reg) : Prop :=
  (∃ rt offset, i ∈ [.lb rt offset q, .lbu rt offset q, .lh rt offset q, .lhu rt offset q, .lw rt offset q,
    .lwl rt offset q, .lwr rt offset q, .sb rt offset q, .sh rt offset q, .sw rt offset q, .swl rt offset q,
    .swr rt offset q]) ∨
  (∃ offset base, i ∈ [.lwl q offset base, .lwr q offset base, .sb q offset base, .sh q offset base, .sw q offset base,
    .swl q offset base, .swr q offset base]) ∨
  (∃ rt imm, i ∈ [.addi rt q imm, .addiu rt q imm, .slti rt q imm, .sltiu rt q imm, .andi rt q imm, .ori rt q imm,
    .xori rt q imm]) ∨
  (∃ rd rs rt, (q = rs ∨ q = rt) ∧ i ∈ [.add rd rs rt, .addu rd rs rt, .sub rd rs rt, .subu rd rs rt, .slt rd rs rt,
    .sltu rd rs rt, .and rd rs rt, .or rd rs rt, .xor rd rs rt, .nor rd rs rt, .sllv rd rt rs, .srlv rd rt rs,
    .srav rd rt rs, .mult rs rt, .multu rs rt, .div rs rt, .divu rs rt]) ∨
  (∃ rs rt offset, (q = rs ∨ q = rt) ∧ i ∈ [.beq rs rt offset, .bne rs rt offset]) ∨
  (∃ offset, i ∈ [.blez q offset, .bgtz q offset, .bltz q offset, .bgez q offset, .bltzal q offset, .bgezal q offset]) ∨
  (∃ rd, i ∈ [.jr q, .jalr q rd, .mthi q, .mtlo q, .mtc0 q rd, .mtc1 q rd, .mtc2 q rd, .mtc3 q rd]) ∨
  ∃ rd shamt, i ∈ [.sll rd q shamt, .srl rd q shamt, .sra rd q shamt]

/-- Instruction `i` writes x[q], at once or one instruction late (10_state.md R23). -/
def WritesRegister (i : Instr) (q : Reg) : Prop :=
  (∃ offset base, i ∈ [.lb q offset base, .lbu q offset base, .lh q offset base, .lhu q offset base, .lw q offset base,
    .lwl q offset base, .lwr q offset base]) ∨
  (∃ rs imm, i ∈ [.addi q rs imm, .addiu q rs imm, .slti q rs imm, .sltiu q rs imm, .andi q rs imm, .ori q rs imm,
    .xori q rs imm, .lui q imm]) ∨
  (∃ rs rt, i ∈ [.add q rs rt, .addu q rs rt, .sub q rs rt, .subu q rs rt, .slt q rs rt, .sltu q rs rt, .and q rs rt,
    .or q rs rt, .xor q rs rt, .nor q rs rt, .sllv q rt rs, .srlv q rt rs, .srav q rt rs, .jalr rs q]) ∨
  (∃ rt shamt, i ∈ [.sll q rt shamt, .srl q rt shamt, .sra q rt shamt]) ∨
  (∃ rd, i ∈ [.mfhi q, .mflo q, .mfc0 q rd, .mfc1 q rd, .mfc2 q rd, .mfc3 q rd]) ∨
  (q = 31 ∧ ∃ target rs offset, i ∈ [.jal target, .bltzal rs offset, .bgezal rs offset])

/-- Instruction `i` writes what the MFHI or MFLO of the entry `e` read: HI for MFHI, LO for MFLO (70_reset_and_hazards.md
R365). -/
def SpoilsRead (i : Instr) (e : HiLoRead) : Prop :=
  ∃ rs rt, i ∈ [.mult rs rt, .multu rs rt, .div rs rt, .divu rs rt] ∨ (i = .mthi rs ∧ e.fromHi = true) ∨
    (i = .mtlo rs ∧ e.fromHi = false)

/-- Whether instruction `i` raises an exception depends on x[q]: the base of a load or store, the operands of ADD, ADDI
and SUB (60_exceptions.md R302, R303). -/
def TestsRegister (i : Instr) (q : Reg) : Prop :=
  (∃ rt offset, i ∈ [.lb rt offset q, .lbu rt offset q, .lh rt offset q, .lhu rt offset q, .lw rt offset q,
    .lwl rt offset q, .lwr rt offset q, .sb rt offset q, .sh rt offset q, .sw rt offset q, .swl rt offset q,
    .swr rt offset q]) ∨
  (∃ rt imm, i = .addi rt q imm) ∨
  ∃ rd rs rt, (q = rs ∨ q = rt) ∧ i ∈ [.add rd rs rt, .sub rd rs rt]

/-! ## Runs -/

/-- The state in which the instruction of this step executes: the environment's lines for this step are there and the
pending delayed write is delivered (10_state.md R28, steps 0 to 2). -/
def State.executing (s : State) : State := s.beginStep.deliver

/-- The step fetches the bytes `bs` and takes no interrupt. -/
def Fetches (s : State) (bs : List Byte) : Prop :=
  s.beginStep.interruptPending = false ∧ s.executing.fetch = .bytes bs

/-- The invariant of every run. -/
structure State.Inv (s : State) : Prop where
  /-- Memory is in its canonical form. -/
  memory : s.mem.wf
  /-- The record of stored addresses rises. -/
  storedRising : s.stored.Pairwise (· < ·)
  /-- Memory lists bytes of the launch image only (20_memory.md R81). -/
  inside : ∀ c ∈ s.mem, s.inImage c.1 = true
  /-- A byte of the launch image that was stored to has a value. -/
  storedListed : ∀ a ∈ s.stored, s.inImage a = true → (s.mem.read a).isSome = true
  /-- Outside a delay slot `npc = pc + 4` (10_state.md R27). -/
  sequential : s.ds = false → s.npc = s.pc + 4
  /-- In a delay slot the instruction before was a jump or branch: no load or store, no MTC0, no MFHI or MFLO. -/
  afterBranch : s.ds = true → s.lastMemory = false ∧ s.mtc0 = none ∧ s.hist1 = none
  /-- Nothing is pending for register 0 (70_reset_and_hazards.md R362). -/
  pending : ∀ r v, s.ld = some (r, v) → r ≠ 0
  /-- The result of the instruction just executed has not been used, and no entry names register 0 (10_state.md R41). -/
  history : (∀ e, s.hist1 = some e → e.consumed = false ∧ e.rd ≠ 0) ∧ ∀ e, s.hist2 = some e → e.rd ≠ 0

end Sys2Proof.Machine
end

