-- ==== Sys2Proof/WellFormed.lean ====
section
/-! DEFINITION. The rules a program keeps that the width of a field does not already say: the register specifiers of the
linking jumps and branches (44_jump_branch.md R234, R244, R245). The hardware does not trap an instruction that breaks
one, so such an instruction decodes and has a meaning as well (log entries 10 and 11). -/

namespace Sys2Proof

/-- JALR has rs and rd different; BLTZAL and BGEZAL do not test r31. Every other instruction is well formed: its operands
have the widths of their fields. -/
def Instr.wellFormed : Instr → Bool
  | .lb _ _ _ => true
  | .lbu _ _ _ => true
  | .lh _ _ _ => true
  | .lhu _ _ _ => true
  | .lw _ _ _ => true
  | .lwl _ _ _ => true
  | .lwr _ _ _ => true
  | .sb _ _ _ => true
  | .sh _ _ _ => true
  | .sw _ _ _ => true
  | .swl _ _ _ => true
  | .swr _ _ _ => true
  | .addi _ _ _ => true
  | .addiu _ _ _ => true
  | .slti _ _ _ => true
  | .sltiu _ _ _ => true
  | .andi _ _ _ => true
  | .ori _ _ _ => true
  | .xori _ _ _ => true
  | .lui _ _ => true
  | .add _ _ _ => true
  | .addu _ _ _ => true
  | .sub _ _ _ => true
  | .subu _ _ _ => true
  | .slt _ _ _ => true
  | .sltu _ _ _ => true
  | .and _ _ _ => true
  | .or _ _ _ => true
  | .xor _ _ _ => true
  | .nor _ _ _ => true
  | .sll _ _ _ => true
  | .srl _ _ _ => true
  | .sra _ _ _ => true
  | .sllv _ _ _ => true
  | .srlv _ _ _ => true
  | .srav _ _ _ => true
  | .mult _ _ => true
  | .multu _ _ => true
  | .div _ _ => true
  | .divu _ _ => true
  | .jr _ => true
  | .jalr rs rd => rs != rd
  | .j _ => true
  | .jal _ => true
  | .beq _ _ _ => true
  | .bne _ _ _ => true
  | .blez _ _ => true
  | .bgtz _ _ => true
  | .bltz _ _ => true
  | .bgez _ _ => true
  | .bltzal rs _ => rs != linkReg
  | .bgezal rs _ => rs != linkReg
  | .bc0f _ => true
  | .bc1f _ => true
  | .bc2f _ => true
  | .bc3f _ => true
  | .bc0t _ => true
  | .bc1t _ => true
  | .bc2t _ => true
  | .bc3t _ => true
  | .mfc0 _ _ => true
  | .mfc1 _ _ => true
  | .mfc2 _ _ => true
  | .mfc3 _ _ => true
  | .mtc0 _ _ => true
  | .mtc1 _ _ => true
  | .mtc2 _ _ => true
  | .mtc3 _ _ => true
  | .rfe => true
  | .syscall _ => true
  | .brk _ => true
  | .mfhi _ => true
  | .mthi _ => true
  | .mflo _ => true
  | .mtlo _ => true

end Sys2Proof
end

