-- ==== Sys2Proof/Certificates/Slice0/Obligations.lean ====
section
/-! DEFINITION. The statements about the machine. A value that an instruction reads is written `s.rs r` or `s.rt r`: the
operand x[r] as 10_state.md R21 and R40 give it (Obligations.OperandReads). -/

open Sys2Proof Sys2Proof.Machine

/-! ## Decoding and encoding -/

/-- Words of 95_test_vectors.md section 2 decode to the instructions they stand for. -/
def Obligations.SpecWordsDecode : Prop :=
  decodeWord .source 0x80A6FFFC = .instr (.lb 6 0xFFFC 5) ∧
  decodeWord .source 0xB8A6FFFC = .instr (.swr 6 0xFFFC 5) ∧
  decodeWord .source 0x24A68234 = .instr (.addiu 6 5 0x8234) ∧
  decodeWord .source 0x00A63822 = .instr (.sub 7 5 6) ∧
  decodeWord .source 0x00063A43 = .instr (.sra 7 6 9) ∧
  decodeWord .source 0x00A63804 = .instr (.sllv 7 6 5) ∧
  decodeWord .source 0x00A6000E = .instr (.mult 5 6) ∧
  decodeWord .mips1 0x00A60018 = .instr (.mult 5 6) ∧
  decodeWord .source 0x00A03809 = .instr (.jalr 5 7) ∧
  decodeWord .source 0x0D55AA55 = .instr (.jal 0x155AA55) ∧
  decodeWord .source 0x04B1FFFC = .instr (.bgezal 5 0xFFFC) ∧
  decodeWord .source 0x4901FFFC = .instr (.bc2t 0xFFFC) ∧
  decodeWord .source 0x40863800 = .instr (.mtc0 6 7) ∧
  decodeWord .source 0x42000010 = .instr .rfe ∧
  decodeWord .source 0x02AF378D = .instr (.brk 0xABCDE) ∧
  decodeWord .source 0x00003812 = .instr (.mflo 7)

/-- Decoding the encoding of any instruction, with any operands and under either MULDIV_ENCODING, gives it back. -/
def Obligations.DecodeOfEncode : Prop :=
  ∀ (enc : MulDivEncoding) (i : Instr), decodeWord enc (encode enc i) = .instr i

/-- A word that decodes to an instruction is that instruction's encoding: no two words have one meaning, and no bit of a
word is dropped. A word that the decoder rejects for a constant-zero field names the instruction whose encoding it is but
for bits that are 1 and should be 0 (R121). -/
def Obligations.EncodeOfDecode : Prop :=
  ∀ (enc : MulDivEncoding) (w : Word) (i : Instr),
    (decodeWord enc w = .instr i → encode enc i = w) ∧
    (decodeWord enc w = .nonZeroField i → encode enc i ≠ w ∧ encode enc i &&& w = encode enc i)

/-- The four bytes of an instruction, in the configured byte order, decode to what its word decodes to; byte k from the
lowest address is bits 31-8k..24-8k when big-endian and bits 8k+7..8k when little-endian. -/
def Obligations.InstructionByteOrder : Prop :=
  ∀ (bigEndian : Bool) (enc : MulDivEncoding) (w : Word) (b0 b1 b2 b3 : Byte),
    b0 = (if bigEndian then w.extractLsb' 24 8 else w.extractLsb' 0 8) →
    b1 = (if bigEndian then w.extractLsb' 16 8 else w.extractLsb' 8 8) →
    b2 = (if bigEndian then w.extractLsb' 8 8 else w.extractLsb' 16 8) →
    b3 = (if bigEndian then w.extractLsb' 0 8 else w.extractLsb' 24 8) →
    decodeBytes bigEndian enc [b0, b1, b2, b3] = decodeWord enc w

/-- The undefined encodings of R123, exactly: outside the COPz words the decoder calls them reserved; in a COPz word bits
25:21 are none of MF, MT, BC and CO, or are BC with bits 20:16 neither BCF nor BCT, or the word is a COP0 operation other
than RFE. The COPz operations (R266) are the words of COP1 to COP3 with bit 25 set. -/
def Obligations.UndefinedEncodings : Prop :=
  ∀ (enc : MulDivEncoding) (w : Word),
    (decodeWord enc w = .reserved ↔
      (w.toNat / 2 ^ 26 ∈ [0b010100, 0b010101, 0b010110, 0b010111, 0b011000, 0b011001, 0b011010, 0b011011, 0b011100,
          0b011101, 0b011110, 0b011111, 0b100111, 0b101100, 0b101101, 0b101111] ∨ 0b110000 ≤ w.toNat / 2 ^ 26) ∨
      (w.toNat / 2 ^ 26 = 0 ∧ (w.toNat % 64 ∈ [0b000001, 0b000101, 0b001010, 0b001011, 0b001111, 0b010100, 0b010101,
          0b010110, 0b010111, 0b011100, 0b011101, 0b011110, 0b011111, 0b101000, 0b101001] ∨ 0b101100 ≤ w.toNat % 64 ∨
          w.toNat % 64 = (match enc with | .source => 0b011001 | .mips1 => 0b001110))) ∨
      (w.toNat / 2 ^ 26 = 1 ∧ w.toNat / 2 ^ 16 % 32 ∉ [0b00000, 0b00001, 0b10000, 0b10001])) ∧
    (∀ z : Unit4, decodeWord enc w = .copOperation z ↔
      z ≠ 0 ∧ w.toNat / 2 ^ 26 = 16 + z.toNat ∧ 16 ≤ w.toNat / 2 ^ 21 % 32) ∧
    ∀ (z : Unit4) (branch : Bool), decodeWord enc w = .copReserved z branch ↔
      w.toNat / 2 ^ 26 = 16 + z.toNat ∧
        ((branch = false ∧ w.toNat / 2 ^ 21 % 32 < 16 ∧ w.toNat / 2 ^ 21 % 32 ∉ [0b00000, 0b00100, 0b01000]) ∨
         (branch = true ∧ w.toNat / 2 ^ 21 % 32 = 0b01000 ∧ 2 ≤ w.toNat / 2 ^ 16 % 32) ∨
         (branch = false ∧ z = 0 ∧ 16 ≤ w.toNat / 2 ^ 21 % 32 ∧ w.toNat % 32 ≠ 0b10000))

/-! ## The step -/

/-- When the bytes at pc decode to an instruction and no interrupt is taken, the step is that instruction's meaning in the
state in which the inputs of this step are there and the pending delayed write is delivered. The bytes at pc are the four
at the physical address of pc, where the fetch passes the checks of R76, they are listed in the launch image, and no store
has written them. The first of the four that a store has written ends the step with the refusal of R88 and R372 (D13, log
entry 26); the first that is outside the launch image or has no value, with that of R81 (D34, log entry 25). -/
def Obligations.StepRunsDecodedInstruction : Prop :=
  (∀ (s : State) (bs : List Byte) (i : Instr), Fetches s bs →
    decodeBytes s.cfg.bigEndian s.cfg.mulDivEncoding bs = .instr i → step s = exec i s.executing) ∧
  ∀ (s : State) (p : Word), s.beginStep.interruptPending = false → Accessible .fetch 4 s.pc s.executing →
    p = physical s.cfg.segments s.pc →
    (∀ b0 b1 b2 b3 : Byte, s.cell p.toNat = some b0 → s.cell (p + 1).toNat = some b1 → s.cell (p + 2).toNat = some b2 →
      s.cell (p + 3).toNat = some b3 → p.toNat ∉ s.stored → (p + 1).toNat ∉ s.stored → (p + 2).toNat ∉ s.stored →
      (p + 3).toNat ∉ s.stored → Fetches s [b0, b1, b2, b3]) ∧
    ∀ k < 4, (∀ j < k, (p + BitVec.ofNat 32 j).toNat ∉ s.stored ∧ s.cell (p + BitVec.ofNat 32 j).toNat ≠ none) →
      ((p + BitVec.ofNat 32 k).toNat ∈ s.stored → step s = .refused (.fetchStored (p + BitVec.ofNat 32 k))) ∧
      ((p + BitVec.ofNat 32 k).toNat ∉ s.stored →
        s.inImage (p + BitVec.ofNat 32 k).toNat = false ∨ s.mem.read (p + BitVec.ofNat 32 k).toNat = none →
        step s = .refused (.fetchUnwritten (p + BitVec.ofNat 32 k)))

/-- What the step does with a fetched word that is no instruction. An undefined encoding raises Reserved Instruction; if it
is a COPz word, Coprocessor Unusable comes first when the unit is not usable, for COP0 only if its bits 25:21 are BC. A
COPz operation, z = 1 to 3, raises Coprocessor Unusable without Cu[z], and with it is refused (R266 calls it undefined; log
entry 13). A word with a constant-zero field that is not zero goes by RESERVED_FIELD_POLICY, after the usability check of
the instruction it names (R121; log entry 16). -/
def Obligations.UndefinedEncodingTraps : Prop :=
  ∀ (s : State) (bs : List Byte) (d : Decoded), Fetches s bs →
    decodeBytes s.cfg.bigEndian s.cfg.mulDivEncoding bs = d →
    (d = .reserved → Takes (step s) .reservedInstruction s.executing) ∧
    (∀ z branch, d = .copReserved z branch →
      if (z = 0 ∧ branch = false) ∨ s.executing.copUsable z = true
      then Takes (step s) .reservedInstruction s.executing
      else Takes (step s) (.coprocessorUnusable z) s.executing) ∧
    (∀ z, d = .copOperation z →
      if s.executing.copUsable z = true then step s = .refused (.copOperation z)
      else Takes (step s) (.coprocessorUnusable z) s.executing) ∧
    ∀ i, d = .nonZeroField i →
      (∀ z rt rd, z ≠ 0 → (i = moveFrom z rt rd ∨ i = moveTo z rt rd) → s.executing.copUsable z = false →
        Takes (step s) (.coprocessorUnusable z) s.executing) ∧
      (∀ rt rd, (i = .mfc0 rt rd ∨ i = .mtc0 rt rd ∨ i = .rfe) → s.executing.userMode = true →
        s.executing.copUsable 0 = false → Takes (step s) .reservedInstruction s.executing) ∧
      ((∀ z rt rd, z ≠ 0 → (i = moveFrom z rt rd ∨ i = moveTo z rt rd) → s.executing.copUsable z = true) →
        (∀ rt rd, (i = .mfc0 rt rd ∨ i = .mtc0 rt rd ∨ i = .rfe) →
          s.executing.userMode = false ∨ s.executing.copUsable 0 = true) →
        (s.cfg.reservedFieldPolicy = .refuse → step s = .refused .nonZeroField) ∧
        (s.cfg.reservedFieldPolicy = .ri → Takes (step s) .reservedInstruction s.executing) ∧
        (s.cfg.reservedFieldPolicy = .ignore → step s = exec i s.executing))

/-- An interrupt is taken in place of the instruction at pc exactly when IEc is set and an unmasked line is pending; the
lines are IP[1:0] of Cause and the six hardware lines. Directly after an MTC0 to Status or Cause the decision uses the value
the register had before it (R373; log entry 19). The pending delayed write and the histories are kept, and the write of an
MTC0 just before is settled. -/
def Obligations.InterruptTaken : Prop :=
  ∀ (s : State) (status cause : Word),
    status = (match s.mtc0 with
      | some (r, old) => if s.cp0Register r = .status then old else s.sr
      | none => s.sr) →
    cause = (match s.mtc0 with
      | some (r, old) => if s.cp0Register r = .cause then old else s.cause
      | none => s.cause) →
    ((status.getLsbD (if s.cfg.trap.status.kernelUserUpper then 0 else 1) = true ∧
        ∃ k < 8, status.getLsbD (s.cfg.trap.status.im + k) = true ∧
          (if k < 2 then cause.getLsbD (s.cfg.trap.cause.ip + k) else s.beginStep.irq.getLsbD (k - 2)) = true) ↔
      s.beginStep.interruptPending = true) ∧
    (s.beginStep.interruptPending = true →
      Takes (step s) .interrupt s.beginStep ∧
      ∀ t, step s = .next t → t.hist1 = s.hist1 ∧ t.hist2 = s.hist2 ∧ t.lastMemory = s.lastMemory ∧ t.ld = s.ld ∧
        t.mtc0 = none)

/-- A fetch from an address that is not a multiple of 4, or in user mode from the upper half of the address space, raises
Address Error with that address in BadVAddr; where the platform refuses the fetch, Bus Error. The user mode cause is the
choice of decision D11 (log entry 22). -/
def Obligations.FetchErrors : Prop :=
  ∀ s : State, s.beginStep.interruptPending = false →
    (s.pc.toNat % 4 ≠ 0 ∨ (s.executing.userMode = true ∧ 2 ^ 31 ≤ s.pc.toNat) →
      Takes (step s) (.addressErrorLoad s.pc) s.executing) ∧
    (s.pc.toNat % 4 = 0 → ¬ (s.executing.userMode = true ∧ 2 ^ 31 ≤ s.pc.toNat) →
      busRefuses s.cfg (physical s.cfg.segments s.pc) .fetch = true → Takes (step s) .busErrorFetch s.executing)

/-- The state after reset, where the spec gives the value (R351), for every setting of the parameters that keeps BEV out of
the three pairs of Status; and the defaults the spec gives the parameters: SEGMENTS (R62) and TRAP (R301, R322, R36 to
R38). Big-endian, the register values and the launch image are the model's choice (log entries 1, 2 and 45) and are not
stated here. -/
def Obligations.ResetState : Prop :=
  (∀ (cfg : Config) (s : State), 6 ≤ cfg.trap.status.bev → cfg.trap.status.bev < 32 → s = State.resetWith cfg →
    s.pc = cfg.trap.resetVector ∧ s.npc = cfg.trap.resetVector + 4 ∧ s.ds = false ∧ s.ld = none ∧
    s.stale = none ∧ s.hist1 = none ∧ s.hist2 = none ∧ s.mdFresh = false ∧ s.hiDefined = false ∧ s.loDefined = false ∧
    s.sr.getLsbD 1 = false ∧ s.sr.getLsbD 0 = false ∧ s.sr.getLsbD cfg.trap.status.bev = true ∧
    s.reg 0 = 0 ∧ s.mem = [] ∧ s.cfg = cfg) ∧
  State.reset = State.resetWith Config.default ∧ Config.default.trap.resetVector = 0xBFC00000 ∧
  Config.default.trap.mode = .vectored ∧
  (∀ e : Exc, (entryFor Config.default.trap e).vector = 0x80000080 ∧
    (entryFor Config.default.trap e).bootVector = 0xBFC00180 ∧
    (entryFor Config.default.trap e).code = (match e with
      | .interrupt => 0
      | .addressErrorLoad _ => 4
      | .addressErrorStore _ => 5
      | .busErrorFetch => 6
      | .busErrorData => 7
      | .systemCall => 8
      | .breakpoint => 9
      | .reservedInstruction => 10
      | .coprocessorUnusable _ => 11
      | .overflow => 12)) ∧
  Config.default.trap.status = { kernelUserUpper := true, im := 8, bev := 22, cu := 28 } ∧
  Config.default.trap.cause = { bd := 31, ce := 28, ip := 8, excCode := 2 } ∧
  State.reset.cp0Register 12 = .status ∧ State.reset.cp0Register 13 = .cause ∧ State.reset.cp0Register 14 = .epc ∧
  State.reset.cp0Register 8 = .badVAddr ∧ State.reset.cp0Register 15 = .prId ∧ State.reset.cp0Register 3 = .bpc ∧
  State.reset.cp0Register 5 = .bda ∧ State.reset.cp0Register 7 = .dcic ∧
  ∀ a : Word,
    (InSegment Config.default.segments.kuseg a ↔ a.toNat < 0x80000000) ∧
    (InSegment Config.default.segments.kseg0 a ↔ 0x80000000 ≤ a.toNat ∧ a.toNat < 0xA0000000) ∧
    (InSegment Config.default.segments.kseg1 a ↔ 0xA0000000 ≤ a.toNat ∧ a.toNat < 0xC0000000) ∧
    (InSegment Config.default.segments.kseg2 a ↔ 0xC0000000 ≤ a.toNat)

/-- The invariant holds after reset, for every setting of the parameters. -/
def Obligations.InvariantHoldsAtReset : Prop := State.reset.Inv ∧ ∀ cfg : Config, (State.resetWith cfg).Inv

/-- Every step keeps the invariant, from every state that has it. -/
def Obligations.EveryStepKeepsInvariant : Prop :=
  ∀ s t : State, s.Inv → step s = .next t → t.Inv

/-- No step writes the parameters (the byte order, SEGMENTS and TRAP among them), the extent of the launch image, PRId, or a
coprocessor control register, and each step numbers itself and takes its inputs from the environment's list. -/
def Obligations.EveryStepKeepsConfiguration : Prop :=
  ∀ s t : State, step s = .next t →
    t.cfg = s.cfg ∧ t.image = s.image ∧ t.prId = s.prId ∧ t.ccr = s.ccr ∧ t.tick = s.tick + 1 ∧ t.inputs = s.inputs.tail ∧
    t.irq = ((s.inputs.head?.map Inputs.irq).getD s.irq) ∧ t.cpc = ((s.inputs.head?.map Inputs.cpc).getD s.cpc)

/-- What user mode cannot do (R332, with D11 and D18): with KUc = 1, Cu0 = 0 and no MTC0 just before, a step leaves every
coprocessor 0 register as it was, or it is a trap entry and nothing more: for an interrupt, from the state with this step's
inputs; for another exception, from that state with the pending delayed write delivered. And it changes no byte at a
physical address in the upper half. -/
def Obligations.UserModeIsConfined : Prop :=
  ∀ s t : State, s.sr.getLsbD (if s.cfg.trap.status.kernelUserUpper then 1 else 0) = true →
    s.sr.getLsbD s.cfg.trap.status.cu = false → s.mtc0 = none → step s = .next t →
    (SameCp0 s t ∨ TrapEntered .interrupt s.beginStep t ∨ ∃ e, TrapEntered e s.executing t) ∧
    SameCp0 s s.beginStep ∧ SameCp0 s s.executing ∧ ∀ a, 2 ^ 31 ≤ a → t.mem.read a = s.mem.read a

/-- Whatever becomes of it, an instruction other than the five stores leaves every byte of memory as it was, and one other
than the four multiplies and divides, MTHI and MTLO leaves HI and LO as they were. -/
def Obligations.OnlyStoresWriteMemory : Prop :=
  ∀ (i : Instr) (s t : State), exec i s = .next t →
    ((∀ rt offset base, i ≠ .sb rt offset base ∧ i ≠ .sh rt offset base ∧ i ≠ .sw rt offset base ∧
      i ≠ .swl rt offset base ∧ i ≠ .swr rt offset base) → SameMemory s t) ∧
    ((∀ rs rt, i ≠ .mult rs rt ∧ i ≠ .multu rs rt ∧ i ≠ .div rs rt ∧ i ≠ .divu rs rt ∧ i ≠ .mthi rs ∧ i ≠ .mtlo rs) →
      SameHiLo s t)

/-- What becomes of the histories at an instruction (R28 step 8, R41, R42; R367 for one that traps). One that completes enters
itself if it is MFHI or MFLO, samples the condition lines, and records whether it was a load or store, and whether a jump or
branch; the entry of the instruction before moves on, used if this one reads the result, and is dropped if this one
overwrites the result unread, or writes what was read (log entry 7). One that traps enters nothing, and the entry of the
instruction before moves on, used if the exception depends on the result. -/
def Obligations.HistoriesMoveOn : Prop :=
  ∀ (i : Instr) (s t : State), exec i s = .next t →
    (t.pc = s.npc ∧ t.cpcPrev = s.cpc ∧ (t.lastMemory = true ↔ LoadOrStore i) ∧ (t.ds = true ↔ JumpOrBranch i) ∧
      ((∀ rt rd, i ≠ .mtc0 rt rd) → t.mtc0 = none) ∧
      (∀ e, t.hist1 = some e ↔ e.rd ≠ 0 ∧ e.consumed = false ∧ i = (if e.fromHi then .mfhi e.rd else .mflo e.rd)) ∧
      ∀ e, t.hist2 = some e ↔ ∃ e', s.hist1 = some e' ∧ ¬ SpoilsRead i e' ∧
        (ReadsRegister i e'.rd ∨ ¬ WritesRegister i e'.rd) ∧ e.rd = e'.rd ∧ e.fromHi = e'.fromHi ∧
        (e.consumed = true ↔ e'.consumed = true ∨ ReadsRegister i e'.rd)) ∨
    ((∃ e, TrapEntered e s t) ∧ t.hist1 = none ∧ t.lastMemory = false ∧ t.mtc0 = none ∧ t.cpcPrev = s.cpcPrev ∧
      ∀ e, t.hist2 = some e ↔ ∃ e', s.hist1 = some e' ∧ e.rd = e'.rd ∧ e.fromHi = e'.fromHi ∧
        (e.consumed = true ↔ e'.consumed = true ∨ TestsRegister i e'.rd))

/-! ## Operands -/

/-- An operand: register 0 reads zero (D1, log entry 20); the register whose delayed write this step has delivered reads a
free value (the model's choice for U3, log entry 5); any other reads its contents. KUc and Cu[z] as the instruction sees
them are the bits of Status that TRAP places there; one that an MTC0 just before has changed is a free bit (the model's
choice for U21, log entry 19). -/
def Obligations.OperandReads : Prop :=
  ∀ (s : State) (r : Reg) (z : Unit4) (ku cu : Nat),
    s.rs 0 = 0 ∧ s.rt 0 = 0 ∧ s.reg 0 = 0 ∧
    (r ≠ 0 → s.reg r = s.gpr[r.toNat]'r.isLt) ∧
    (s.stale ≠ some r → s.rs r = s.reg r ∧ s.rt r = s.reg r) ∧
    (s.stale = some r → r ≠ 0 → s.rs r = s.free .staleRs ∧ s.rt r = s.free .staleRt) ∧
    (ku = (if s.cfg.trap.status.kernelUserUpper then 1 else 0) → cu = s.cfg.trap.status.cu + z.toNat →
      ((∀ q old, s.mtc0 = some (q, old) → s.cp0Register q = .status → old.getLsbD ku = s.sr.getLsbD ku) →
        s.userMode = s.sr.getLsbD ku) ∧
      ((∀ q old, s.mtc0 = some (q, old) → s.cp0Register q = .status → old.getLsbD cu = s.sr.getLsbD cu) →
        s.copUsable z = s.sr.getLsbD cu) ∧
      ∀ q old, s.mtc0 = some (q, old) → s.cp0Register q = .status →
        (old.getLsbD ku ≠ s.sr.getLsbD ku → s.userMode = (s.free (.statusBit ku)).getLsbD 0) ∧
        (old.getLsbD cu ≠ s.sr.getLsbD cu → s.copUsable z = (s.free (.statusBit cu)).getLsbD 0))

/-- The pending delayed write is delivered before the instruction executes: its register holds the value and is stale for
this one step, and no other register changes (R40, R28 step 1). With nothing pending no register is stale. -/
def Obligations.LoadDelivery : Prop :=
  ∀ (s : State),
    (∀ r v, s.ld = some (r, v) → r ≠ 0 →
      s.executing.reg r = v ∧ s.executing.stale = some r ∧ s.executing.ld = none ∧ SameRegsExcept r s s.executing) ∧
    (s.ld = none → SameRegs s s.executing ∧ s.executing.stale = none ∧ s.executing.ld = none) ∧
    SameHiLo s s.executing ∧ SameCp0 s s.executing ∧ s.executing.mem = s.mem ∧ s.executing.image = s.image ∧
    s.executing.pc = s.pc ∧
    s.executing.ds = s.ds

/-- The effective address of a load or store is the exact sum of the base and the signed offset, modulo 2^32. An address of
kseg0 or kseg1, wherever SEGMENTS puts them, is mapped onto the low 512 Mbytes by its low 29 bits, and every other address
is its own. With the default of SEGMENTS (decision D10, log entry 22) kuseg and kseg2 are not mapped, and each of kseg0
and kseg1 is mapped by subtracting its start. -/
def Obligations.AddressesAndSegments : Prop :=
  (∀ (s : State) (base : Reg) (offset : BitVec 16),
    ((s.effectiveAddress base offset).toNat : Int) = ((s.rs base).toNat + offset.toInt) % 2 ^ 32) ∧
  (∀ (segments : Segments) (a : Word),
    (InSegment segments.kseg0 a ∨ InSegment segments.kseg1 a → (physical segments a).toNat = a.toNat % 2 ^ 29) ∧
    (¬ InSegment segments.kseg0 a → ¬ InSegment segments.kseg1 a → physical segments a = a)) ∧
  ∀ a : Word,
    (a.toNat < 0x80000000 → physical .default a = a) ∧
    (0x80000000 ≤ a.toNat → a.toNat < 0xA0000000 → (physical .default a).toNat = a.toNat - 0x80000000) ∧
    (0xA0000000 ≤ a.toNat → a.toNat < 0xC0000000 → (physical .default a).toNat = a.toNat - 0xA0000000) ∧
    (0xC0000000 ≤ a.toNat → physical .default a = a)

/-! ## Arithmetic, logic and comparison -/

/-- ADDIU: encoding, and the sum modulo 2^32, with no trap (R172). -/
def Obligations.AddiuResult : Prop :=
  ∀ (enc : MulDivEncoding) (rt rs : Reg) (imm : BitVec 16) (s : State),
    decodeWord enc (0b001001#6 ++ rs ++ rt ++ imm) = .instr (.addiu rt rs imm) ∧
    WritesReg (.addiu rt rs imm) rt (BitVec.ofInt 32 ((s.rs rs).toInt + imm.toInt)) s

/-- SLTI compares signed, SLTIU unsigned, both with the sign-extended immediate (R173, R174). -/
def Obligations.SetLessImmediateResult : Prop :=
  ∀ (enc : MulDivEncoding) (rt rs : Reg) (imm : BitVec 16) (s : State),
    decodeWord enc (0b001010#6 ++ rs ++ rt ++ imm) = .instr (.slti rt rs imm) ∧
    WritesReg (.slti rt rs imm) rt (if (s.rs rs).toInt < imm.toInt then 1 else 0) s ∧
    decodeWord enc (0b001011#6 ++ rs ++ rt ++ imm) = .instr (.sltiu rt rs imm) ∧
    WritesReg (.sltiu rt rs imm) rt
      (if (s.rs rs).toNat < (if imm.toNat < 2 ^ 15 then imm.toNat else 0xFFFF0000 + imm.toNat) then 1 else 0) s

/-- ANDI, ORI and XORI with the zero-extended immediate (R175 to R177). -/
def Obligations.LogicalImmediateResult : Prop :=
  ∀ (enc : MulDivEncoding) (rt rs : Reg) (imm : BitVec 16) (s : State),
    decodeWord enc (0b001100#6 ++ rs ++ rt ++ imm) = .instr (.andi rt rs imm) ∧
    WritesReg (.andi rt rs imm) rt (0#16 ++ (imm &&& (s.rs rs).extractLsb' 0 16)) s ∧
    decodeWord enc (0b001101#6 ++ rs ++ rt ++ imm) = .instr (.ori rt rs imm) ∧
    WritesReg (.ori rt rs imm) rt ((s.rs rs).extractLsb' 16 16 ++ (imm ||| (s.rs rs).extractLsb' 0 16)) s ∧
    decodeWord enc (0b001110#6 ++ rs ++ rt ++ imm) = .instr (.xori rt rs imm) ∧
    WritesReg (.xori rt rs imm) rt ((s.rs rs).extractLsb' 16 16 ++ (imm ^^^ (s.rs rs).extractLsb' 0 16)) s

/-- LUI: the immediate times 2^16 (R178). -/
def Obligations.LuiResult : Prop :=
  ∀ (enc : MulDivEncoding) (rt : Reg) (imm : BitVec 16) (s : State),
    decodeWord enc (0b001111#6 ++ 0b00000#5 ++ rt ++ imm) = .instr (.lui rt imm) ∧
    WritesReg (.lui rt imm) rt (BitVec.ofNat 32 (imm.toNat * 2 ^ 16)) s

/-- ADD and ADDI: where the exact sum is a 32-bit integer, it is the result; elsewhere Overflow, with the destination as it
was (R171, R179, R189; trap entry and the kept destination rest on D19 and D31, log entry 21). -/
def Obligations.AddResultOrOverflow : Prop :=
  ∀ (enc : MulDivEncoding) (rd rs rt : Reg) (imm : BitVec 16) (s : State),
    decodeWord enc (0b000000#6 ++ rs ++ rt ++ rd ++ 0b00000#5 ++ 0b100000#6) = .instr (.add rd rs rt) ∧
    (if -2 ^ 31 ≤ (s.rs rs).toInt + (s.rt rt).toInt ∧ (s.rs rs).toInt + (s.rt rt).toInt < 2 ^ 31
      then WritesReg (.add rd rs rt) rd (BitVec.ofInt 32 ((s.rs rs).toInt + (s.rt rt).toInt)) s
      else Takes (exec (.add rd rs rt) s) .overflow s) ∧
    decodeWord enc (0b001000#6 ++ rs ++ rt ++ imm) = .instr (.addi rt rs imm) ∧
    (if -2 ^ 31 ≤ (s.rs rs).toInt + imm.toInt ∧ (s.rs rs).toInt + imm.toInt < 2 ^ 31
      then WritesReg (.addi rt rs imm) rt (BitVec.ofInt 32 ((s.rs rs).toInt + imm.toInt)) s
      else Takes (exec (.addi rt rs imm) s) .overflow s)

/-- SUB: the exact difference, or Overflow with the destination as it was (R181, R189; D19 and D31, log entry 21). -/
def Obligations.SubResultOrOverflow : Prop :=
  ∀ (enc : MulDivEncoding) (rd rs rt : Reg) (s : State),
    decodeWord enc (0b000000#6 ++ rs ++ rt ++ rd ++ 0b00000#5 ++ 0b100010#6) = .instr (.sub rd rs rt) ∧
    (if -2 ^ 31 ≤ (s.rs rs).toInt - (s.rt rt).toInt ∧ (s.rs rs).toInt - (s.rt rt).toInt < 2 ^ 31
      then WritesReg (.sub rd rs rt) rd (BitVec.ofInt 32 ((s.rs rs).toInt - (s.rt rt).toInt)) s
      else Takes (exec (.sub rd rs rt) s) .overflow s)

/-- ADDU: the sum modulo 2^32, with no trap (R180 by decision D5, log entry 23). -/
def Obligations.AdduResult : Prop :=
  ∀ (enc : MulDivEncoding) (rd rs rt : Reg) (s : State),
    decodeWord enc (0b000000#6 ++ rs ++ rt ++ rd ++ 0b00000#5 ++ 0b100001#6) = .instr (.addu rd rs rt) ∧
    WritesReg (.addu rd rs rt) rd (BitVec.ofNat 32 ((s.rs rs).toNat + (s.rt rt).toNat)) s

/-- SUBU: the difference modulo 2^32, with no trap (R182). -/
def Obligations.SubuResult : Prop :=
  ∀ (enc : MulDivEncoding) (rd rs rt : Reg) (s : State),
    decodeWord enc (0b000000#6 ++ rs ++ rt ++ rd ++ 0b00000#5 ++ 0b100011#6) = .instr (.subu rd rs rt) ∧
    WritesReg (.subu rd rs rt) rd (BitVec.ofInt 32 ((s.rs rs).toInt - (s.rt rt).toInt)) s

/-- SLT compares signed, SLTU unsigned, each exactly (R183, R184). -/
def Obligations.SetLessResult : Prop :=
  ∀ (enc : MulDivEncoding) (rd rs rt : Reg) (s : State),
    decodeWord enc (0b000000#6 ++ rs ++ rt ++ rd ++ 0b00000#5 ++ 0b101010#6) = .instr (.slt rd rs rt) ∧
    WritesReg (.slt rd rs rt) rd (if (s.rs rs).toInt < (s.rt rt).toInt then 1 else 0) s ∧
    decodeWord enc (0b000000#6 ++ rs ++ rt ++ rd ++ 0b00000#5 ++ 0b101011#6) = .instr (.sltu rd rs rt) ∧
    WritesReg (.sltu rd rs rt) rd (if (s.rs rs).toNat < (s.rt rt).toNat then 1 else 0) s

/-- AND, OR, XOR and NOR, bit by bit (R185 to R188). -/
def Obligations.LogicalResult : Prop :=
  ∀ (enc : MulDivEncoding) (rd rs rt : Reg) (s : State),
    decodeWord enc (0b000000#6 ++ rs ++ rt ++ rd ++ 0b00000#5 ++ 0b100100#6) = .instr (.and rd rs rt) ∧
    (∃ v, (∀ k < 32, v.getLsbD k = ((s.rs rs).getLsbD k && (s.rt rt).getLsbD k)) ∧ WritesReg (.and rd rs rt) rd v s) ∧
    decodeWord enc (0b000000#6 ++ rs ++ rt ++ rd ++ 0b00000#5 ++ 0b100101#6) = .instr (.or rd rs rt) ∧
    (∃ v, (∀ k < 32, v.getLsbD k = ((s.rs rs).getLsbD k || (s.rt rt).getLsbD k)) ∧ WritesReg (.or rd rs rt) rd v s) ∧
    decodeWord enc (0b000000#6 ++ rs ++ rt ++ rd ++ 0b00000#5 ++ 0b100110#6) = .instr (.xor rd rs rt) ∧
    (∃ v, (∀ k < 32, v.getLsbD k = ((s.rs rs).getLsbD k ^^ (s.rt rt).getLsbD k)) ∧ WritesReg (.xor rd rs rt) rd v s) ∧
    decodeWord enc (0b000000#6 ++ rs ++ rt ++ rd ++ 0b00000#5 ++ 0b100111#6) = .instr (.nor rd rs rt) ∧
    (∃ v, (∀ k < 32, v.getLsbD k = !((s.rs rs).getLsbD k || (s.rt rt).getLsbD k)) ∧ WritesReg (.nor rd rs rt) rd v s)

/-! ## Shifts -/

/-- SLL, SRL and SRA by shamt: multiplication by 2^s modulo 2^32, and the quotients by 2^s rounded down of the unsigned and
of the signed value (R201 to R203). -/
def Obligations.ShiftByConstantResult : Prop :=
  ∀ (enc : MulDivEncoding) (rd rt : Reg) (shamt : BitVec 5) (s : State),
    decodeWord enc (0b000000#6 ++ 0b00000#5 ++ rt ++ rd ++ shamt ++ 0b000000#6) = .instr (.sll rd rt shamt) ∧
    WritesReg (.sll rd rt shamt) rd (BitVec.ofNat 32 ((s.rt rt).toNat * 2 ^ shamt.toNat)) s ∧
    decodeWord enc (0b000000#6 ++ 0b00000#5 ++ rt ++ rd ++ shamt ++ 0b000010#6) = .instr (.srl rd rt shamt) ∧
    WritesReg (.srl rd rt shamt) rd (BitVec.ofNat 32 ((s.rt rt).toNat / 2 ^ shamt.toNat)) s ∧
    decodeWord enc (0b000000#6 ++ 0b00000#5 ++ rt ++ rd ++ shamt ++ 0b000011#6) = .instr (.sra rd rt shamt) ∧
    WritesReg (.sra rd rt shamt) rd (BitVec.ofInt 32 ((s.rt rt).toInt / 2 ^ shamt.toNat)) s

/-- SLLV, SRLV and SRAV by the low five bits of x[rs] (R204 to R206). -/
def Obligations.ShiftByRegisterResult : Prop :=
  ∀ (enc : MulDivEncoding) (rd rt rs : Reg) (s : State),
    decodeWord enc (0b000000#6 ++ rs ++ rt ++ rd ++ 0b00000#5 ++ 0b000100#6) = .instr (.sllv rd rt rs) ∧
    WritesReg (.sllv rd rt rs) rd (BitVec.ofNat 32 ((s.rt rt).toNat * 2 ^ ((s.rs rs).toNat % 32))) s ∧
    decodeWord enc (0b000000#6 ++ rs ++ rt ++ rd ++ 0b00000#5 ++ 0b000110#6) = .instr (.srlv rd rt rs) ∧
    WritesReg (.srlv rd rt rs) rd (BitVec.ofNat 32 ((s.rt rt).toNat / 2 ^ ((s.rs rs).toNat % 32))) s ∧
    decodeWord enc (0b000000#6 ++ rs ++ rt ++ rd ++ 0b00000#5 ++ 0b000111#6) = .instr (.srav rd rt rs) ∧
    WritesReg (.srav rd rt rs) rd (BitVec.ofInt 32 ((s.rt rt).toInt / 2 ^ ((s.rs rs).toNat % 32))) s

/-! ## Multiply, divide, HI and LO -/

/-- MULT and MULTU: the exact product, its low word in LO and its high word in HI, under either MULDIV_ENCODING (R211,
R212). It completes unless the result of an MFHI or MFLO two instructions before has been used (HiLoSpacing); an operand
that is itself the result of such a recent read is a free value (R365, log entry 7). -/
def Obligations.MultiplyResult : Prop :=
  ∀ (rs rt : Reg) (s : State) (a b : Word),
    decodeWord .source (0b000000#6 ++ rs ++ rt ++ 0#10 ++ 0b001110#6) = .instr (.mult rs rt) ∧
    decodeWord .mips1 (0b000000#6 ++ rs ++ rt ++ 0#10 ++ 0b011000#6) = .instr (.mult rs rt) ∧
    decodeWord .source (0b000000#6 ++ rs ++ rt ++ 0#10 ++ 0b011000#6) = .instr (.multu rs rt) ∧
    decodeWord .mips1 (0b000000#6 ++ rs ++ rt ++ 0#10 ++ 0b011001#6) = .instr (.multu rs rt) ∧
    (¬ ConsumedRead true s → ¬ ConsumedRead false s →
      ReadsOperand true true .staleRs rs a s → ReadsOperand true true .staleRt rt b s →
      SetsHiLo (.mult rs rt) (BitVec.ofInt 32 (a.toInt * b.toInt / 2 ^ 32)) (BitVec.ofInt 32 (a.toInt * b.toInt)) s ∧
      SetsHiLo (.multu rs rt) (BitVec.ofNat 32 (a.toNat * b.toNat / 2 ^ 32)) (BitVec.ofNat 32 (a.toNat * b.toNat)) s)

/-- DIV: the quotient rounded toward zero in LO and the remainder, with the sign of the dividend, in HI (R213, R215 by
decision D7); a zero divisor leaves both undefined (D6) and -2^31 by -1 gives DIV_CORNER (D8): log entry 24. The operands
are as for MULT. -/
def Obligations.DivideSignedResult : Prop :=
  ∀ (enc : MulDivEncoding) (rs rt : Reg) (s : State) (a b : Word),
    decodeWord enc (0b000000#6 ++ rs ++ rt ++ 0#10 ++ 0b011010#6) = .instr (.div rs rt) ∧
    (¬ ConsumedRead true s → ¬ ConsumedRead false s →
      ReadsOperand true true .staleRs rs a s → ReadsOperand true true .staleRt rt b s →
      (b.toInt = 0 → LosesHiLo (.div rs rt) s) ∧
      (a.toInt = -2 ^ 31 → b.toInt = -1 → SetsHiLo (.div rs rt) s.cfg.divCornerHi s.cfg.divCornerLo s) ∧
      (∀ q r : Int, a.toInt = b.toInt * q + r → |r| < |b.toInt| → (0 ≤ a.toInt → 0 ≤ r) → (a.toInt ≤ 0 → r ≤ 0) →
        q < 2 ^ 31 → SetsHiLo (.div rs rt) (BitVec.ofInt 32 r) (BitVec.ofInt 32 q) s))

/-- DIVU: the unsigned quotient in LO and remainder in HI; a zero divisor leaves both undefined (R214). The operands are as
for MULT. -/
def Obligations.DivideUnsignedResult : Prop :=
  ∀ (enc : MulDivEncoding) (rs rt : Reg) (s : State) (a b : Word),
    decodeWord enc (0b000000#6 ++ rs ++ rt ++ 0#10 ++ 0b011011#6) = .instr (.divu rs rt) ∧
    (¬ ConsumedRead true s → ¬ ConsumedRead false s →
      ReadsOperand true true .staleRs rs a s → ReadsOperand true true .staleRt rt b s →
      (b.toNat = 0 → LosesHiLo (.divu rs rt) s) ∧
      (∀ q r : Nat, a.toNat = b.toNat * q + r → r < b.toNat →
        SetsHiLo (.divu rs rt) (BitVec.ofNat 32 r) (BitVec.ofNat 32 q) s))

/-- MFHI and MFLO: the register reads HI (LO) at once; where HI (LO) is undefined, a free value (R293, R296; the free value
is the model's choice for U5, log entry 6). md_fresh is cleared by either (log entry 47). -/
def Obligations.MoveFromHiLoResult : Prop :=
  ∀ (enc : MulDivEncoding) (rd : Reg) (s : State),
    decodeWord enc (0b000000#6 ++ 0#10 ++ rd ++ 0b00000#5 ++ 0b010000#6) = .instr (.mfhi rd) ∧
    decodeWord enc (0b000000#6 ++ 0#10 ++ rd ++ 0b00000#5 ++ 0b010010#6) = .instr (.mflo rd) ∧
    ∀ i v, (i = .mfhi rd ∧ v = (if s.hiDefined then s.hi else s.free .readHi)) ∨
        (i = .mflo rd ∧ v = (if s.loDefined then s.lo else s.free .readLo)) →
      ∃ t, exec i s = .next t ∧ t.reg rd = (if rd = 0 then 0 else v) ∧ t.mdFresh = false ∧ SameRegsExcept rd s t ∧
        SameHiLo s t ∧ SameCp0 s t ∧ SameCops s t ∧ SamePending s t ∧ SameMemory s t ∧ SameInputs s t ∧ GoesOn s t

/-- MTHI and MTLO: the special register is defined as x[rs]; the other becomes undefined if a multiply or divide came since
the last of the four moves, and is as it was if not (R294, R295, R25 b; that all four count, where U5 names two, is the
model's choice, log entry 47). The operand is as for MULT (log entry 7). -/
def Obligations.MoveToHiLoResult : Prop :=
  ∀ (enc : MulDivEncoding) (rs : Reg) (s : State) (v : Word),
    decodeWord enc (0b000000#6 ++ rs ++ 0#15 ++ 0b010001#6) = .instr (.mthi rs) ∧
    decodeWord enc (0b000000#6 ++ rs ++ 0#15 ++ 0b010011#6) = .instr (.mtlo rs) ∧
    (¬ ConsumedRead true s → ReadsOperand true false .staleRs rs v s →
      ∃ t, exec (.mthi rs) s = .next t ∧ t.hi = v ∧ t.hiDefined = true ∧ t.mdFresh = false ∧
      (s.mdFresh = true → t.loDefined = false) ∧ (s.mdFresh = false → t.lo = s.lo ∧ t.loDefined = s.loDefined) ∧
      SameRegsButRecent true false s t ∧ SameCp0 s t ∧ SameCops s t ∧ SamePending s t ∧ SameMemory s t ∧
      SameInputs s t ∧ GoesOn s t) ∧
    (¬ ConsumedRead false s → ReadsOperand false true .staleRs rs v s →
      ∃ t, exec (.mtlo rs) s = .next t ∧ t.lo = v ∧ t.loDefined = true ∧ t.mdFresh = false ∧
      (s.mdFresh = true → t.hiDefined = false) ∧ (s.mdFresh = false → t.hi = s.hi ∧ t.hiDefined = s.hiDefined) ∧
      SameRegsButRecent false true s t ∧ SameCp0 s t ∧ SameCops s t ∧ SamePending s t ∧ SameMemory s t ∧
      SameInputs s t ∧ GoesOn s t)

/-- A write of HI (LO) one or two instructions after an MFHI (MFLO): the register that one wrote holds a free value, its
result being undefined; where an instruction between has used it, the writer is refused (R365; the treatment is the
model's, log entry 7). -/
def Obligations.HiLoSpacing : Prop :=
  ∀ (i : Instr) (writesHi writesLo : Bool) (s : State),
    (∃ rs rt, ((i = .mult rs rt ∨ i = .multu rs rt ∨ i = .div rs rt ∨ i = .divu rs rt) ∧
        writesHi = true ∧ writesLo = true) ∨
      (i = .mthi rs ∧ writesHi = true ∧ writesLo = false) ∨ (i = .mtlo rs ∧ writesHi = false ∧ writesLo = true)) →
    ((writesHi = true ∧ ConsumedRead true s) ∨ (writesLo = true ∧ ConsumedRead false s) →
      exec i s = .refused .hiLoResultConsumed) ∧
    (¬ (writesHi = true ∧ ConsumedRead true s) → ¬ (writesLo = true ∧ ConsumedRead false s) →
      ∃ t, exec i s = .next t ∧
        ∀ q, q ≠ 0 → (writesHi = true ∧ RecentRead true q s) ∨ (writesLo = true ∧ RecentRead false q s) →
          t.reg q = s.free (.hiLoResult q))

/-! ## Loads and stores -/

/-- LB and LBU: the byte at the effective address, sign-extended or zero-extended, one instruction late (R141, R142). -/
def Obligations.LoadByteResult : Prop :=
  ∀ (enc : MulDivEncoding) (rt : Reg) (offset : BitVec 16) (base : Reg) (s : State),
    decodeWord enc (0b100000#6 ++ base ++ rt ++ offset) = .instr (.lb rt offset base) ∧
    decodeWord enc (0b100100#6 ++ base ++ rt ++ offset) = .instr (.lbu rt offset base) ∧
    (Accessible .load 1 (s.effectiveAddress base offset) s →
      LoadsReg (.lb rt offset base) rt (BitVec.ofInt 32 (s.byteAt (physical s.cfg.segments (s.effectiveAddress base offset))).toInt) s ∧
      LoadsReg (.lbu rt offset base) rt
        (BitVec.ofNat 32 (s.byteAt (physical s.cfg.segments (s.effectiveAddress base offset))).toNat) s)

/-- LH and LHU: the two bytes at the effective address in the configured byte order, sign-extended or zero-extended, one
instruction late (R143, R144, R70). -/
def Obligations.LoadHalfwordResult : Prop :=
  ∀ (enc : MulDivEncoding) (rt : Reg) (offset : BitVec 16) (base : Reg) (s : State),
    decodeWord enc (0b100001#6 ++ base ++ rt ++ offset) = .instr (.lh rt offset base) ∧
    decodeWord enc (0b100101#6 ++ base ++ rt ++ offset) = .instr (.lhu rt offset base) ∧
    ∀ p h, Accessible .load 2 (s.effectiveAddress base offset) s → p = physical s.cfg.segments (s.effectiveAddress base offset) →
      h = (if s.cfg.bigEndian then s.byteAt p ++ s.byteAt (p + 1) else s.byteAt (p + 1) ++ s.byteAt p) →
      LoadsReg (.lh rt offset base) rt (BitVec.ofInt 32 h.toInt) s ∧
      LoadsReg (.lhu rt offset base) rt (BitVec.ofNat 32 h.toNat) s

/-- LW: the four bytes at the effective address in the configured byte order, one instruction late (R145, R70). -/
def Obligations.LoadWordResult : Prop :=
  ∀ (enc : MulDivEncoding) (rt : Reg) (offset : BitVec 16) (base : Reg) (s : State),
    decodeWord enc (0b100011#6 ++ base ++ rt ++ offset) = .instr (.lw rt offset base) ∧
    ∀ p, Accessible .load 4 (s.effectiveAddress base offset) s → p = physical s.cfg.segments (s.effectiveAddress base offset) →
      LoadsReg (.lw rt offset base) rt
        (if s.cfg.bigEndian
          then s.byteAt p ++ s.byteAt (p + 1) ++ s.byteAt (p + 2) ++ s.byteAt (p + 3)
          else s.byteAt (p + 3) ++ s.byteAt (p + 2) ++ s.byteAt (p + 1) ++ s.byteAt p) s

/-- LWL and LWR, by the tables of R146 and R147: `b0` to `b3` are the bytes of the word that holds the addressed byte, in
address order; `o3` to `o0` are those of x[rt], from the left, which is read past the load delay. -/
def Obligations.LoadWordPartResult : Prop :=
  ∀ (enc : MulDivEncoding) (rt : Reg) (offset : BitVec 16) (base : Reg) (s : State) (a w p : Word)
    (b0 b1 b2 b3 o0 o1 o2 o3 : Byte),
    decodeWord enc (0b100010#6 ++ base ++ rt ++ offset) = .instr (.lwl rt offset base) ∧
    decodeWord enc (0b100110#6 ++ base ++ rt ++ offset) = .instr (.lwr rt offset base) ∧
    (a = s.effectiveAddress base offset → w = a - BitVec.ofNat 32 (a.toNat % 4) → p = physical s.cfg.segments w →
      b0 = s.byteAt p → b1 = s.byteAt (p + 1) → b2 = s.byteAt (p + 2) → b3 = s.byteAt (p + 3) →
      s.reg rt = o3 ++ o2 ++ o1 ++ o0 →
      (Accessible .load 1 (if s.cfg.bigEndian then a else w) s →
        LoadsReg (.lwl rt offset base) rt
          (match s.cfg.bigEndian, a.toNat % 4 with
            | true, 0 => b0 ++ b1 ++ b2 ++ b3
            | true, 1 => b1 ++ b2 ++ b3 ++ o0
            | true, 2 => b2 ++ b3 ++ o1 ++ o0
            | true, _ => b3 ++ o2 ++ o1 ++ o0
            | false, 0 => b0 ++ o2 ++ o1 ++ o0
            | false, 1 => b1 ++ b0 ++ o1 ++ o0
            | false, 2 => b2 ++ b1 ++ b0 ++ o0
            | false, _ => b3 ++ b2 ++ b1 ++ b0) s) ∧
      (Accessible .load 1 (if s.cfg.bigEndian then w else a) s →
        LoadsReg (.lwr rt offset base) rt
          (match s.cfg.bigEndian, a.toNat % 4 with
            | true, 0 => o3 ++ o2 ++ o1 ++ b0
            | true, 1 => o3 ++ o2 ++ b0 ++ b1
            | true, 2 => o3 ++ b0 ++ b1 ++ b2
            | true, _ => b0 ++ b1 ++ b2 ++ b3
            | false, 0 => b3 ++ b2 ++ b1 ++ b0
            | false, 1 => o3 ++ b3 ++ b2 ++ b1
            | false, 2 => o3 ++ o2 ++ b3 ++ b2
            | false, _ => o3 ++ o2 ++ o1 ++ b3) s))

/-- SB, SH and SW: the low byte, halfword or word of x[rt], in the configured byte order, at the effective address; every
other byte of memory reads as before (R148 to R150, R70). A byte outside the launch image goes to the platform (R81, log
entry 4). -/
def Obligations.StoreResult : Prop :=
  ∀ (enc : MulDivEncoding) (rt : Reg) (offset : BitVec 16) (base : Reg) (s : State) (p : Word) (r0 r1 r2 r3 : Byte),
    decodeWord enc (0b101000#6 ++ base ++ rt ++ offset) = .instr (.sb rt offset base) ∧
    decodeWord enc (0b101001#6 ++ base ++ rt ++ offset) = .instr (.sh rt offset base) ∧
    decodeWord enc (0b101011#6 ++ base ++ rt ++ offset) = .instr (.sw rt offset base) ∧
    (p = physical s.cfg.segments (s.effectiveAddress base offset) → s.rt rt = r3 ++ r2 ++ r1 ++ r0 →
      (Accessible .store 1 (s.effectiveAddress base offset) s → StoresBytes (.sb rt offset base) p [r0] s) ∧
      (Accessible .store 2 (s.effectiveAddress base offset) s →
        StoresBytes (.sh rt offset base) p (if s.cfg.bigEndian then [r1, r0] else [r0, r1]) s) ∧
      (Accessible .store 4 (s.effectiveAddress base offset) s →
        StoresBytes (.sw rt offset base) p (if s.cfg.bigEndian then [r3, r2, r1, r0] else [r0, r1, r2, r3]) s))

/-- SWL and SWR, by the tables of R151 and R152. SWL stores the bytes of x[rt] from the left, `r3` first, from the addressed
byte to the end (big-endian) or the start (little-endian) of its word; SWR those from the right, `r0` first, to the start
or the end. Every other byte of memory reads as before. -/
def Obligations.StoreWordPartResult : Prop :=
  ∀ (enc : MulDivEncoding) (rt : Reg) (offset : BitVec 16) (base : Reg) (s : State) (a w : Word) (r0 r1 r2 r3 : Byte),
    decodeWord enc (0b101010#6 ++ base ++ rt ++ offset) = .instr (.swl rt offset base) ∧
    decodeWord enc (0b101110#6 ++ base ++ rt ++ offset) = .instr (.swr rt offset base) ∧
    (a = s.effectiveAddress base offset → w = a - BitVec.ofNat 32 (a.toNat % 4) → s.rt rt = r3 ++ r2 ++ r1 ++ r0 →
      (Accessible .store 1 (if s.cfg.bigEndian then a else w) s →
        StoresBytes (.swl rt offset base) (physical s.cfg.segments (if s.cfg.bigEndian then a else w))
          (match s.cfg.bigEndian, a.toNat % 4 with
            | true, 0 => [r3, r2, r1, r0]
            | true, 1 => [r3, r2, r1]
            | true, 2 => [r3, r2]
            | true, _ => [r3]
            | false, 0 => [r3]
            | false, 1 => [r2, r3]
            | false, 2 => [r1, r2, r3]
            | false, _ => [r0, r1, r2, r3]) s) ∧
      (Accessible .store 1 (if s.cfg.bigEndian then w else a) s →
        StoresBytes (.swr rt offset base) (physical s.cfg.segments (if s.cfg.bigEndian then w else a))
          (match s.cfg.bigEndian, a.toNat % 4 with
            | true, 0 => [r0]
            | true, 1 => [r1, r0]
            | true, 2 => [r2, r1, r0]
            | true, _ => [r3, r2, r1, r0]
            | false, 0 => [r0, r1, r2, r3]
            | false, 1 => [r0, r1, r2]
            | false, 2 => [r0, r1]
            | false, _ => [r0]) s))

/-- A load or store whose address is not aligned, or is in the upper half in user mode, raises Address Error with the
address in BadVAddr; one that the platform refuses raises Bus Error; neither has another effect (R153, R74, R303, R304; the
user mode cause is decision D11, log entry 22; the address of LWL, LWR, SWL and SWR is that of the lowest byte, log entry
15). -/
def Obligations.DataAccessErrors : Prop :=
  ∀ (rt : Reg) (offset : BitVec 16) (base : Reg) (s : State) (i : Instr) (kind : AccessKind) (n : Nat) (a a' : Word),
    a' = s.effectiveAddress base offset →
    (kind = .load ∧ a = a' ∧ ((n = 1 ∧ (i = .lb rt offset base ∨ i = .lbu rt offset base)) ∨
        (n = 2 ∧ (i = .lh rt offset base ∨ i = .lhu rt offset base)) ∨ (n = 4 ∧ i = .lw rt offset base))) ∨
    (kind = .store ∧ a = a' ∧ ((n = 1 ∧ i = .sb rt offset base) ∨ (n = 2 ∧ i = .sh rt offset base) ∨
        (n = 4 ∧ i = .sw rt offset base))) ∨
    (n = 1 ∧ ((kind = .load ∧ i = .lwl rt offset base) ∨ (kind = .store ∧ i = .swl rt offset base)) ∧
      a = (if s.cfg.bigEndian then a' else a' - BitVec.ofNat 32 (a'.toNat % 4))) ∨
    (n = 1 ∧ ((kind = .load ∧ i = .lwr rt offset base) ∨ (kind = .store ∧ i = .swr rt offset base)) ∧
      a = (if s.cfg.bigEndian then a' - BitVec.ofNat 32 (a'.toNat % 4) else a')) →
    (a.toNat % n ≠ 0 ∨ (s.userMode = true ∧ 2 ^ 31 ≤ a.toNat) →
      Takes (exec i s) (if kind = .load then .addressErrorLoad a else .addressErrorStore a) s) ∧
    (a.toNat % n = 0 → ¬ (s.userMode = true ∧ 2 ^ 31 ≤ a.toNat) → busRefuses s.cfg (physical s.cfg.segments a) kind = true →
      Takes (exec i s) .busErrorData s)

/-- An unaligned word is loaded by LWL and LWR in two steps, in either order: the pending value is then the four bytes at
`a` to `a + 3` in the configured byte order, whatever x[rt] held (R156, R363). The four bytes have a value (a byte without
one is a free value, drawn anew at each step: log entry 4). -/
def Obligations.UnalignedLoadPair : Prop :=
  ∀ (rt base : Reg) (offset : BitVec 16) (s : State) (a : Word) (first second : Instr) (b0 b1 b2 b3 : Byte),
    rt ≠ 0 → base ≠ rt → s.stale ≠ some base → (∀ v, s.ld ≠ some (base, v)) → s.mtc0 = none →
    offset.toInt + 3 < 2 ^ 15 → a = s.effectiveAddress base offset →
    Accessible .load 1 a s → Accessible .load 1 (a + 3 - BitVec.ofNat 32 ((a + 3).toNat % 4)) s →
    s.cell (physical s.cfg.segments a).toNat = some b0 → s.cell (physical s.cfg.segments (a + 1)).toNat = some b1 →
    s.cell (physical s.cfg.segments (a + 2)).toNat = some b2 → s.cell (physical s.cfg.segments (a + 3)).toNat = some b3 →
    (if s.cfg.bigEndian
      then (first = .lwl rt offset base ∧ second = .lwr rt (offset + 3) base) ∨
        (first = .lwr rt (offset + 3) base ∧ second = .lwl rt offset base)
      else (first = .lwr rt offset base ∧ second = .lwl rt (offset + 3) base) ∨
        (first = .lwl rt (offset + 3) base ∧ second = .lwr rt offset base)) →
    ∃ t u, exec first s = .next t ∧ exec second t.executing = .next u ∧
      u.ld = some (rt, if s.cfg.bigEndian then b0 ++ b1 ++ b2 ++ b3 else b3 ++ b2 ++ b1 ++ b0)

/-- An unaligned word is stored by SWL and SWR in two steps, in either order: the four bytes at `a` to `a + 3` are those of
x[rt] in the configured byte order, where they are in the launch image, and every other byte is as before (R157). -/
def Obligations.UnalignedStorePair : Prop :=
  ∀ (rt base : Reg) (offset : BitVec 16) (s : State) (a : Word) (first second : Instr) (b0 b1 b2 b3 : Byte),
    s.stale ≠ some base → s.stale ≠ some rt → s.ld = none → s.mtc0 = none →
    offset.toInt + 3 < 2 ^ 15 → a = s.effectiveAddress base offset →
    Accessible .store 1 a s → Accessible .store 1 (a + 3 - BitVec.ofNat 32 ((a + 3).toNat % 4)) s →
    s.reg rt = (if s.cfg.bigEndian then b0 ++ b1 ++ b2 ++ b3 else b3 ++ b2 ++ b1 ++ b0) →
    (if s.cfg.bigEndian
      then (first = .swl rt offset base ∧ second = .swr rt (offset + 3) base) ∨
        (first = .swr rt (offset + 3) base ∧ second = .swl rt offset base)
      else (first = .swr rt offset base ∧ second = .swl rt (offset + 3) base) ∨
        (first = .swl rt (offset + 3) base ∧ second = .swr rt offset base)) →
    ∃ t u, exec first s = .next t ∧ exec second t.executing = .next u ∧
      (∀ k b, [b0, b1, b2, b3][k]? = some b →
        s.inImage (physical s.cfg.segments (a + BitVec.ofNat 32 k)).toNat = true →
        u.mem.read (physical s.cfg.segments (a + BitVec.ofNat 32 k)).toNat = some b) ∧
      u.image = s.image ∧
      ∀ b, (∀ k < 4, b ≠ (physical s.cfg.segments (a + BitVec.ofNat 32 k)).toNat) ∨ s.inImage b = false →
        u.mem.read b = s.mem.read b

/-! ## Jumps and branches -/

/-- J and JAL: to the word `target` of the 256-Mbyte region of the delay slot; JAL links (R235, R236). -/
def Obligations.JumpResult : Prop :=
  ∀ (enc : MulDivEncoding) (target : BitVec 26) (s : State),
    decodeWord enc (0b000010#6 ++ target) = .instr (.j target) ∧
    decodeWord enc (0b000011#6 ++ target) = .instr (.jal target) ∧
    (s.ds = false →
      Transfers (.j target) (some (BitVec.ofNat 32 ((s.pc + 4).toNat / 2 ^ 28 * 2 ^ 28 + target.toNat * 4))) none s ∧
      Transfers (.jal target) (some (BitVec.ofNat 32 ((s.pc + 4).toNat / 2 ^ 28 * 2 ^ 28 + target.toNat * 4)))
        (some (31, s.pc + 8)) s)

/-- JR and JALR: to the address that x[rs] holds before the link is written; JALR links in x[rd]. With rs = rd the link and
the target are free values (R233, R234; the free values are the model's choice for U7, log entry 10). -/
def Obligations.JumpRegisterResult : Prop :=
  ∀ (enc : MulDivEncoding) (rs rd : Reg) (s : State),
    decodeWord enc (0b000000#6 ++ rs ++ 0#15 ++ 0b001000#6) = .instr (.jr rs) ∧
    decodeWord enc (0b000000#6 ++ rs ++ 0b00000#5 ++ rd ++ 0b00000#5 ++ 0b001001#6) = .instr (.jalr rs rd) ∧
    (s.ds = false →
      Transfers (.jr rs) (some (s.rs rs)) none s ∧
      (rs ≠ rd → Transfers (.jalr rs rd) (some (s.rs rs)) (some (rd, s.pc + 8)) s) ∧
      (rs = rd → Transfers (.jalr rs rd) (some (s.free .jalrTarget)) (some (rd, s.free .jalrLink)) s))

/-- BEQ and BNE: to the delay slot's address plus four times the signed offset, if the operands are (not) equal (R237 to
R239). -/
def Obligations.BranchOnEqualityResult : Prop :=
  ∀ (enc : MulDivEncoding) (rs rt : Reg) (offset : BitVec 16) (s : State) (dest : Word),
    decodeWord enc (0b000100#6 ++ rs ++ rt ++ offset) = .instr (.beq rs rt offset) ∧
    decodeWord enc (0b000101#6 ++ rs ++ rt ++ offset) = .instr (.bne rs rt offset) ∧
    (s.ds = false → dest = BitVec.ofInt 32 (s.pc.toNat + 4 + 4 * offset.toInt) →
      Transfers (.beq rs rt offset) (if (s.rs rs).toNat = (s.rt rt).toNat then some dest else none) none s ∧
      Transfers (.bne rs rt offset) (if (s.rs rs).toNat = (s.rt rt).toNat then none else some dest) none s)

/-- BLEZ, BGTZ, BLTZ and BGEZ: the signed comparison of x[rs] with zero (R240 to R243, R237). -/
def Obligations.BranchOnSignResult : Prop :=
  ∀ (enc : MulDivEncoding) (rs : Reg) (offset : BitVec 16) (s : State) (dest : Word),
    decodeWord enc (0b000110#6 ++ rs ++ 0b00000#5 ++ offset) = .instr (.blez rs offset) ∧
    decodeWord enc (0b000111#6 ++ rs ++ 0b00000#5 ++ offset) = .instr (.bgtz rs offset) ∧
    decodeWord enc (0b000001#6 ++ rs ++ 0b00000#5 ++ offset) = .instr (.bltz rs offset) ∧
    decodeWord enc (0b000001#6 ++ rs ++ 0b00001#5 ++ offset) = .instr (.bgez rs offset) ∧
    (s.ds = false → dest = BitVec.ofInt 32 (s.pc.toNat + 4 + 4 * offset.toInt) →
      Transfers (.blez rs offset) (if (s.rs rs).toInt ≤ 0 then some dest else none) none s ∧
      Transfers (.bgtz rs offset) (if 0 < (s.rs rs).toInt then some dest else none) none s ∧
      Transfers (.bltz rs offset) (if (s.rs rs).toInt < 0 then some dest else none) none s ∧
      Transfers (.bgez rs offset) (if 0 ≤ (s.rs rs).toInt then some dest else none) none s)

/-- BLTZAL and BGEZAL: the same comparisons, and r31 links whether or not the branch is taken. The condition is that of
x[rs] before the link, for rs = 31 too (R244, R245; that rs = 31 runs is the model's choice for U8, log entry 11). -/
def Obligations.BranchAndLinkResult : Prop :=
  ∀ (enc : MulDivEncoding) (rs : Reg) (offset : BitVec 16) (s : State) (dest : Word),
    decodeWord enc (0b000001#6 ++ rs ++ 0b10000#5 ++ offset) = .instr (.bltzal rs offset) ∧
    decodeWord enc (0b000001#6 ++ rs ++ 0b10001#5 ++ offset) = .instr (.bgezal rs offset) ∧
    (s.ds = false → dest = BitVec.ofInt 32 (s.pc.toNat + 4 + 4 * offset.toInt) →
      Transfers (.bltzal rs offset) (if (s.rs rs).toInt < 0 then some dest else none) (some (31, s.pc + 8)) s ∧
      Transfers (.bgezal rs offset) (if 0 ≤ (s.rs rs).toInt then some dest else none) (some (31, s.pc + 8)) s)

/-- BCzF and BCzT with the unit usable: the sample of the condition line from the instruction before decides; for a line
the part does not have, a free bit (R262, R263; the free bit is the model's choice for U12, log entry 12). -/
def Obligations.BranchOnConditionResult : Prop :=
  ∀ (enc : MulDivEncoding) (z : Unit4) (offset : BitVec 16) (s : State) (dest : Word) (line : Bool),
    decodeWord enc (0b0100#4 ++ z ++ 0b01000#5 ++ 0b00000#5 ++ offset) = .instr (branchFalse z offset) ∧
    decodeWord enc (0b0100#4 ++ z ++ 0b01000#5 ++ 0b00001#5 ++ offset) = .instr (branchTrue z offset) ∧
    (s.ds = false → s.copUsable z = true → dest = BitVec.ofInt 32 (s.pc.toNat + 4 + 4 * offset.toInt) →
      line = (if z = 0 ∨ s.cfg.bczValid.getLsbD z.toNat = true then s.cpcPrev.getLsbD z.toNat
        else (s.free (.condition z)).getLsbD 0) →
      Transfers (branchFalse z offset) (if line = false then some dest else none) none s ∧
      Transfers (branchTrue z offset) (if line = true then some dest else none) none s)

/-- A jump or branch in a delay slot stops the model, whether or not either is taken; a coprocessor branch only if its
unit is usable (R231, R361; the stop is the model's for an operation the spec calls undefined, log entry 8). -/
def Obligations.BranchInDelaySlotStops : Prop :=
  ∀ (rs rt rd : Reg) (offset : BitVec 16) (target : BitVec 26) (z : Unit4) (s : State) (i : Instr), s.ds = true →
    i ∈ [.j target, .jal target, .jr rs, .jalr rs rd, .beq rs rt offset, .bne rs rt offset, .blez rs offset,
        .bgtz rs offset, .bltz rs offset, .bgez rs offset, .bltzal rs offset, .bgezal rs offset] ∨
      (s.copUsable z = true ∧ i ∈ [branchFalse z offset, branchTrue z offset]) →
    exec i s = .fault .branchInDelaySlot

/-! ## Coprocessors, exceptions -/

/-- The usability matrix of R331: without Cu[z] the branches of every coprocessor and the moves of coprocessors 1 to 3 take
Coprocessor Unusable in either mode; MFC0, MTC0 and RFE take Reserved Instruction in user mode without Cu0. -/
def Obligations.UnusableCoprocessorTraps : Prop :=
  ∀ (z : Unit4) (rt rd : Reg) (offset : BitVec 16) (s : State),
    (s.copUsable z = false →
      Takes (exec (branchFalse z offset) s) (.coprocessorUnusable z) s ∧
      Takes (exec (branchTrue z offset) s) (.coprocessorUnusable z) s ∧
      (z ≠ 0 → Takes (exec (moveFrom z rt rd) s) (.coprocessorUnusable z) s ∧
        Takes (exec (moveTo z rt rd) s) (.coprocessorUnusable z) s)) ∧
    (s.userMode = true → s.copUsable 0 = false →
      Takes (exec (.mfc0 rt rd) s) .reservedInstruction s ∧ Takes (exec (.mtc0 rt rd) s) .reservedInstruction s ∧
      Takes (exec .rfe s) .reservedInstruction s)

/-- MFC0, where it may execute: the register arrives one instruction late (R277). Status, EPC, BadVAddr and PRId are read
as they are, Cause with the interrupt lines in its IP[7:2] (D29, log entry 18); directly after an MTC0 to the same register
that changed it, and for a register the spec gives no value, the value is free (log entries 17 and 19). Which register a
number names is TRAP's: with numbers all different, each number names its register. -/
def Obligations.MoveFromCp0Result : Prop :=
  ∀ (enc : MulDivEncoding) (rt rd : Reg) (s : State) (trap : Trap),
    decodeWord enc (0b010000#6 ++ 0b00000#5 ++ rt ++ rd ++ 0#11) = .instr (.mfc0 rt rd) ∧
    (trap = s.cfg.trap → [trap.statusNumber, trap.causeNumber, trap.epcNumber, trap.badVAddrNumber, trap.prIdNumber,
        trap.bpcNumber, trap.bdaNumber, trap.dcicNumber].Nodup →
      (s.cp0Register rd = .status ↔ rd = trap.statusNumber) ∧ (s.cp0Register rd = .cause ↔ rd = trap.causeNumber) ∧
      (s.cp0Register rd = .epc ↔ rd = trap.epcNumber) ∧ (s.cp0Register rd = .badVAddr ↔ rd = trap.badVAddrNumber) ∧
      (s.cp0Register rd = .prId ↔ rd = trap.prIdNumber) ∧ (s.cp0Register rd = .bpc ↔ rd = trap.bpcNumber) ∧
      (s.cp0Register rd = .bda ↔ rd = trap.bdaNumber) ∧ (s.cp0Register rd = .dcic ↔ rd = trap.dcicNumber)) ∧
    (s.userMode = false ∨ s.copUsable 0 = true →
      ∃ v, LoadsReg (.mfc0 rt rd) rt v s ∧
        (s.cp0Register rd ∈ [.bpc, .bda, .dcic, .other] → v = s.free (.readCp0 rd)) ∧
        ∀ cell, (s.cp0Register rd, cell) ∈ [(Cp0Register.status, s.sr), (Cp0Register.epc, s.epc),
            (Cp0Register.badVAddr, s.badVAddr), (Cp0Register.prId, s.prId), (Cp0Register.cause, s.cause)] →
          (∀ old, s.mtc0 = some (rd, old) → old ≠ cell → v = s.free (.readCp0 rd)) ∧
          ((∀ old, s.mtc0 = some (rd, old) → old = cell) →
            if s.cp0Register rd = .cause then
              ∀ k < 32, v.getLsbD k =
                if s.cfg.trap.cause.ip + 2 ≤ k ∧ k < s.cfg.trap.cause.ip + 8
                then s.irq.getLsbD (k - (s.cfg.trap.cause.ip + 2)) else cell.getLsbD k
            else v = cell))

/-- MTC0, where it may execute: Status and EPC hold x[rt] when the step ends, Cause takes only its two bits IP[1:0] (R278,
R310), and no other coprocessor 0 register but the one named changes; a general register, HI, LO and memory are as before.
The next instruction finds recorded which register was written, and its value before (R373). What the registers without a
rule hold is the model's choice (log entries 17 and 18). Which register a number names: MoveFromCp0Result. -/
def Obligations.MoveToCp0Result : Prop :=
  ∀ (enc : MulDivEncoding) (rt rd : Reg) (s : State) (named : Cp0Register),
    decodeWord enc (0b010000#6 ++ 0b00100#5 ++ rt ++ rd ++ 0#11) = .instr (.mtc0 rt rd) ∧
    (s.userMode = false ∨ s.copUsable 0 = true → named = s.cp0Register rd →
      ∃ t old, exec (.mtc0 rt rd) s = .next t ∧
        t.sr = (if named = .status then s.rt rt else s.sr) ∧
        t.epc = (if named = .epc then s.rt rt else s.epc) ∧
        (∀ k < 32, t.cause.getLsbD k =
          if named = .cause ∧ (k = s.cfg.trap.cause.ip ∨ k = s.cfg.trap.cause.ip + 1) then (s.rt rt).getLsbD k
          else s.cause.getLsbD k) ∧
        t.badVAddr = (if named = .badVAddr then s.free .writtenBadVAddr else s.badVAddr) ∧ t.prId = s.prId ∧
        t.bpc = (if named = .bpc then s.rt rt else s.bpc) ∧ t.bda = (if named = .bda then s.rt rt else s.bda) ∧
        t.dcic = (if named = .dcic then s.rt rt else s.dcic) ∧
        (∀ q : Reg, t.cp0Other[q.toNat]'q.isLt =
          if named = .other ∧ q = rd then s.rt rt else s.cp0Other[q.toNat]'q.isLt) ∧
        t.mtc0 = some (rd, old) ∧
        (named, old) ∈ [(Cp0Register.status, s.sr), (Cp0Register.cause, s.cause), (Cp0Register.epc, s.epc),
          (Cp0Register.badVAddr, s.badVAddr), (Cp0Register.prId, s.prId), (Cp0Register.bpc, s.bpc),
          (Cp0Register.bda, s.bda), (Cp0Register.dcic, s.dcic),
          (Cp0Register.other, s.cp0Other[rd.toNat]'rd.isLt)] ∧
        SameRegs s t ∧ SameHiLo s t ∧ t.mdFresh = s.mdFresh ∧ SameCops s t ∧
        SamePending s t ∧ SameMemory s t ∧ SameInputs s t ∧ GoesOn s t)

/-- MFCz and MTCz, z = 1 to 3, with Cu[z] = 1: a supported coprocessor's register arrives one instruction late, and is
written; without the coprocessor the value is free (R264, R265; the free values are the model's choice for U9, log entry
9). Only the named register of the named coprocessor changes. -/
def Obligations.CoprocessorMoveResult : Prop :=
  ∀ (enc : MulDivEncoding) (z : Unit4) (rt rd : Reg) (s : State), z ≠ 0 →
    decodeWord enc (0b0100#4 ++ z ++ 0b00000#5 ++ rt ++ rd ++ 0#11) = .instr (moveFrom z rt rd) ∧
    decodeWord enc (0b0100#4 ++ z ++ 0b00100#5 ++ rt ++ rd ++ 0#11) = .instr (moveTo z rt rd) ∧
    (s.copUsable z = true →
      LoadsReg (moveFrom z rt rd) rt
        (if s.cfg.copSupported.getLsbD z.toNat then (s.cpr[z.toNat]'z.isLt)[rd.toNat]'rd.isLt
          else s.free (.readCop z rd)) s ∧
      ∃ t, exec (moveTo z rt rd) s = .next t ∧
        (∀ (y : Unit4) (q : Reg), (t.cpr[y.toNat]'y.isLt)[q.toNat]'q.isLt =
          if y = z ∧ q = rd then
            (if s.cfg.copSupported.getLsbD z.toNat then s.rt rt else s.free (.writtenCop z rd))
          else (s.cpr[y.toNat]'y.isLt)[q.toNat]'q.isLt) ∧
        t.ccr = s.ccr ∧ SameRegs s t ∧ SameHiLo s t ∧ t.mdFresh = s.mdFresh ∧ SameCp0 s t ∧ SamePending s t ∧
        SameMemory s t ∧ SameInputs s t ∧ GoesOn s t)

/-- RFE, where it may execute and the instruction before was no load or store: previous goes to current and old to
previous, old and the other bits are kept, and nothing else changes; directly after a load or store it is refused (R280;
the refusal is R369's for an operation the spec calls unspecified, log entry 14). -/
def Obligations.RestoreFromExceptionResult : Prop :=
  ∀ (enc : MulDivEncoding) (s : State),
    decodeWord enc 0x42000010 = .instr .rfe ∧
    (s.userMode = false ∨ s.copUsable 0 = true →
      (s.lastMemory = true → exec .rfe s = .refused .memoryBeforeRfe) ∧
      (s.lastMemory = false → ∃ t, exec .rfe s = .next t ∧
        (∀ k < 4, t.sr.getLsbD k = s.statusBit (k + 2)) ∧ (s.mtc0 = none → ∀ k, s.statusBit k = s.sr.getLsbD k) ∧
        (∀ k, 4 ≤ k → t.sr.getLsbD k = s.sr.getLsbD k) ∧
        t.cause = s.cause ∧ t.epc = s.epc ∧ t.badVAddr = s.badVAddr ∧ t.prId = s.prId ∧ t.bpc = s.bpc ∧ t.bda = s.bda ∧
        t.dcic = s.dcic ∧ t.cp0Other = s.cp0Other ∧ SameRegs s t ∧ SameHiLo s t ∧ t.mdFresh = s.mdFresh ∧
        SameCops s t ∧ SamePending s t ∧ SameMemory s t ∧ SameInputs s t ∧ GoesOn s t))

/-- RFE undoes the push of any trap entry: the mode and interrupt enable of the interrupted program are current again, and
its previous pair previous (R323, R280, R281; log entry 21). -/
def Obligations.RestoreUndoesTrapEntry : Prop :=
  ∀ (e : Exc) (s t u : State), TrapEntered e s t → u.sr = t.sr → u.mtc0 = none → u.lastMemory = false →
    ∃ w, exec .rfe u = .next w ∧ (∀ k < 4, w.sr.getLsbD k = s.sr.getLsbD k) ∧
      ∀ k, 6 ≤ k → w.sr.getLsbD k = s.sr.getLsbD k

/-- SYSCALL and BREAK, with any code field: under TRAP.MODE = vectored the instruction completes as trap entry, with
nothing else changed; under terminal the run ends (R291, R292; the details of trap entry are D19, log entry 21). -/
def Obligations.SystemCallAndBreakpoint : Prop :=
  ∀ (enc : MulDivEncoding) (code : BitVec 20) (s : State),
    decodeWord enc (0b000000#6 ++ code ++ 0b001100#6) = .instr (.syscall code) ∧
    decodeWord enc (0b000000#6 ++ code ++ 0b001101#6) = .instr (.brk code) ∧
    (s.cfg.trap.mode = .vectored →
      (∃ t, exec (.syscall code) s = .next t ∧ TrapEntered .systemCall s t) ∧
      (∃ t, exec (.brk code) s = .next t ∧ TrapEntered .breakpoint s t)) ∧
    (s.cfg.trap.mode = .terminal →
      exec (.syscall code) s = .fault (.trapped .systemCall (if s.ds then s.pc - 4 else s.pc) s.ds) ∧
      exec (.brk code) s = .fault (.trapped .breakpoint (if s.ds then s.pc - 4 else s.pc) s.ds))
end

