-- ==== Sys2Proof/Laws/Encoding.lean ====
section
/-! SUPPORT. The fields of a word that is written out field by field, for each layout of 30_encoding.md R102 to R105. -/

namespace Sys2Proof

section
variable (o : BitVec 6) (a b c d : Reg) (f : BitVec 6) (i : BitVec 16) (t : BitVec 26) (e : BitVec 20)

/-! ## iType -/

@[simp] theorem fieldOp_iType : fieldOp (o ++ a ++ b ++ i) = o := by
  ext k hk
  simp only [fieldOp, BitVec.getElem_extractLsb']
  change @BitVec.getLsbD (6+5+5+16) _ _ = _
  repeat rw [BitVec.getLsbD_append]
  grind

@[simp] theorem fieldRs_iType : fieldRs (o ++ a ++ b ++ i) = a := by
  ext k hk
  simp only [fieldRs, BitVec.getElem_extractLsb']
  change @BitVec.getLsbD (6+5+5+16) _ _ = _
  repeat rw [BitVec.getLsbD_append]
  grind

@[simp] theorem fieldRt_iType : fieldRt (o ++ a ++ b ++ i) = b := by
  ext k hk
  simp only [fieldRt, BitVec.getElem_extractLsb']
  change @BitVec.getLsbD (6+5+5+16) _ _ = _
  repeat rw [BitVec.getLsbD_append]
  grind

@[simp] theorem fieldImm_iType : fieldImm (o ++ a ++ b ++ i) = i := by
  ext k hk
  simp only [fieldImm, BitVec.getElem_extractLsb']
  change @BitVec.getLsbD (6+5+5+16) _ _ = _
  repeat rw [BitVec.getLsbD_append]
  grind

@[simp] theorem cop_iType : BitVec.extractLsb' (n := 32) 28 4 (o ++ a ++ b ++ i) = o.extractLsb' 2 4 := by
  ext k hk
  simp only [BitVec.getElem_extractLsb']
  change @BitVec.getLsbD (6+5+5+16) _ _ = _
  repeat rw [BitVec.getLsbD_append]
  grind

@[simp] theorem unit_iType : BitVec.extractLsb' (n := 32) 26 2 (o ++ a ++ b ++ i) = o.extractLsb' 0 2 := by
  ext k hk
  simp only [BitVec.getElem_extractLsb']
  change @BitVec.getLsbD (6+5+5+16) _ _ = _
  repeat rw [BitVec.getLsbD_append]
  grind

/-! ## rType -/

@[simp] theorem fieldOp_rType : fieldOp (o ++ a ++ b ++ c ++ d ++ f) = o := by
  ext k hk
  simp only [fieldOp, BitVec.getElem_extractLsb']
  change @BitVec.getLsbD (6+5+5+5+5+6) _ _ = _
  repeat rw [BitVec.getLsbD_append]
  grind

@[simp] theorem fieldRs_rType : fieldRs (o ++ a ++ b ++ c ++ d ++ f) = a := by
  ext k hk
  simp only [fieldRs, BitVec.getElem_extractLsb']
  change @BitVec.getLsbD (6+5+5+5+5+6) _ _ = _
  repeat rw [BitVec.getLsbD_append]
  grind

@[simp] theorem fieldRt_rType : fieldRt (o ++ a ++ b ++ c ++ d ++ f) = b := by
  ext k hk
  simp only [fieldRt, BitVec.getElem_extractLsb']
  change @BitVec.getLsbD (6+5+5+5+5+6) _ _ = _
  repeat rw [BitVec.getLsbD_append]
  grind

@[simp] theorem fieldRd_rType : fieldRd (o ++ a ++ b ++ c ++ d ++ f) = c := by
  ext k hk
  simp only [fieldRd, BitVec.getElem_extractLsb']
  change @BitVec.getLsbD (6+5+5+5+5+6) _ _ = _
  repeat rw [BitVec.getLsbD_append]
  grind

@[simp] theorem fieldShamt_rType : fieldShamt (o ++ a ++ b ++ c ++ d ++ f) = d := by
  ext k hk
  simp only [fieldShamt, BitVec.getElem_extractLsb']
  change @BitVec.getLsbD (6+5+5+5+5+6) _ _ = _
  repeat rw [BitVec.getLsbD_append]
  grind

@[simp] theorem fieldFunct_rType : fieldFunct (o ++ a ++ b ++ c ++ d ++ f) = f := by
  ext k hk
  simp only [fieldFunct, BitVec.getElem_extractLsb']
  change @BitVec.getLsbD (6+5+5+5+5+6) _ _ = _
  repeat rw [BitVec.getLsbD_append]
  grind

@[simp] theorem cop_rType : BitVec.extractLsb' (n := 32) 28 4 (o ++ a ++ b ++ c ++ d ++ f) = o.extractLsb' 2 4 := by
  ext k hk
  simp only [BitVec.getElem_extractLsb']
  change @BitVec.getLsbD (6+5+5+5+5+6) _ _ = _
  repeat rw [BitVec.getLsbD_append]
  grind

@[simp] theorem unit_rType : BitVec.extractLsb' (n := 32) 26 2 (o ++ a ++ b ++ c ++ d ++ f) = o.extractLsb' 0 2 := by
  ext k hk
  simp only [BitVec.getElem_extractLsb']
  change @BitVec.getLsbD (6+5+5+5+5+6) _ _ = _
  repeat rw [BitVec.getLsbD_append]
  grind

/-! ## jType -/

@[simp] theorem fieldOp_jType : fieldOp (o ++ t) = o := by
  ext k hk
  simp only [fieldOp, BitVec.getElem_extractLsb']
  change @BitVec.getLsbD (6+26) _ _ = _
  repeat rw [BitVec.getLsbD_append]
  grind

@[simp] theorem fieldTarget_jType : fieldTarget (o ++ t) = t := by
  ext k hk
  simp only [fieldTarget, BitVec.getElem_extractLsb']
  change @BitVec.getLsbD (6+26) _ _ = _
  repeat rw [BitVec.getLsbD_append]
  grind

/-! ## codeType -/

@[simp] theorem fieldOp_codeType : fieldOp (o ++ e ++ f) = o := by
  ext k hk
  simp only [fieldOp, BitVec.getElem_extractLsb']
  change @BitVec.getLsbD (6+20+6) _ _ = _
  repeat rw [BitVec.getLsbD_append]
  grind

@[simp] theorem fieldCode_codeType : fieldCode (o ++ e ++ f) = e := by
  ext k hk
  simp only [fieldCode, BitVec.getElem_extractLsb']
  change @BitVec.getLsbD (6+20+6) _ _ = _
  repeat rw [BitVec.getLsbD_append]
  grind

@[simp] theorem fieldFunct_codeType : fieldFunct (o ++ e ++ f) = f := by
  ext k hk
  simp only [fieldFunct, BitVec.getElem_extractLsb']
  change @BitVec.getLsbD (6+20+6) _ _ = _
  repeat rw [BitVec.getLsbD_append]
  grind

@[simp] theorem low11_rType : BitVec.extractLsb' (n := 32) 0 11 (o ++ a ++ b ++ c ++ d ++ f) = d ++ f := by
  ext k hk
  simp only [BitVec.getElem_extractLsb']
  change @BitVec.getLsbD (6+5+5+5+5+6) _ _ = _
  repeat rw [BitVec.getLsbD_append]
  grind

/-! ## Constant-zero fields that span more than one field -/

theorem zero10_eq : o ++ a ++ b ++ 0#10 ++ f = o ++ a ++ b ++ 0b00000#5 ++ 0b00000#5 ++ f := by
  ext k hk
  simp only [BitVec.getElem_append]
  grind

theorem zero10_high_eq : o ++ 0#10 ++ c ++ d ++ f = o ++ 0b00000#5 ++ 0b00000#5 ++ c ++ d ++ f := by
  ext k hk
  simp only [BitVec.getElem_append]
  grind

theorem zero11_eq : o ++ a ++ b ++ c ++ 0#11 = o ++ a ++ b ++ c ++ 0b00000#5 ++ 0b000000#6 := by
  ext k hk
  simp only [BitVec.getElem_append]
  grind

theorem zero15_eq : o ++ a ++ 0#15 ++ f = o ++ a ++ 0b00000#5 ++ 0b00000#5 ++ 0b00000#5 ++ f := by
  ext k hk
  simp only [BitVec.getElem_append]
  grind

@[simp] theorem cop_jType : BitVec.extractLsb' (n := 32) 28 4 (o ++ t) = o.extractLsb' 2 4 := by
  ext k hk
  simp only [BitVec.getElem_extractLsb']
  change @BitVec.getLsbD (6+26) _ _ = _
  repeat rw [BitVec.getLsbD_append]
  grind

end

/-! ## A word is its fields -/

theorem word_iType (w : Word) : w = fieldOp w ++ fieldRs w ++ fieldRt w ++ fieldImm w := by
  apply BitVec.eq_of_getLsbD_eq
  intro k hk
  change _ = @BitVec.getLsbD (6+5+5+16) _ _
  simp only [BitVec.getLsbD_append, fieldOp, fieldRs, fieldRt, fieldImm, BitVec.getLsbD_extractLsb']
  grind

theorem word_rType (w : Word) :
    w = fieldOp w ++ fieldRs w ++ fieldRt w ++ fieldRd w ++ fieldShamt w ++ fieldFunct w := by
  apply BitVec.eq_of_getLsbD_eq
  intro k hk
  change _ = @BitVec.getLsbD (6+5+5+5+5+6) _ _
  simp only [BitVec.getLsbD_append, fieldOp, fieldRs, fieldRt, fieldRd, fieldShamt, fieldFunct,
    BitVec.getLsbD_extractLsb']
  grind

theorem word_jType (w : Word) : w = fieldOp w ++ fieldTarget w := by
  apply BitVec.eq_of_getLsbD_eq
  intro k hk
  change _ = @BitVec.getLsbD (6+26) _ _
  simp only [BitVec.getLsbD_append, fieldOp, fieldTarget, BitVec.getLsbD_extractLsb']
  grind

theorem word_codeType (w : Word) : w = fieldOp w ++ fieldCode w ++ fieldFunct w := by
  apply BitVec.eq_of_getLsbD_eq
  intro k hk
  change _ = @BitVec.getLsbD (6+20+6) _ _
  simp only [BitVec.getLsbD_append, fieldOp, fieldCode, fieldFunct, BitVec.getLsbD_extractLsb']
  grind

theorem fieldOp_cop (w : Word) : fieldOp w = w.extractLsb' 28 4 ++ fieldCop w := by
  apply BitVec.eq_of_getLsbD_eq
  intro k hk
  change _ = @BitVec.getLsbD (4+2) _ _
  simp only [BitVec.getLsbD_append, fieldOp, fieldCop, BitVec.getLsbD_extractLsb']
  grind

theorem low11_eq (w : Word) : w.extractLsb' 0 11 = fieldShamt w ++ fieldFunct w := by
  apply BitVec.eq_of_getLsbD_eq
  intro k hk
  change _ = @BitVec.getLsbD (5+6) _ _
  simp only [BitVec.getLsbD_append, fieldShamt, fieldFunct, BitVec.getLsbD_extractLsb']
  grind

/-! ## Which table a word is looked up in (30_encoding.md R114) -/

theorem decodeWord_special {w : Word} (enc : MulDivEncoding) (h : fieldOp w = 0#6) :
    decodeWord enc w = decodeSpecial enc w := by
  simp only [decodeWord, h]; rfl

theorem decodeWord_regimm {w : Word} (enc : MulDivEncoding) (h : fieldOp w = 1#6) :
    decodeWord enc w = decodeRegimm w := by
  simp only [decodeWord, h]; rfl

theorem decodeWord_cop {w : Word} (enc : MulDivEncoding) (h0 : fieldOp w ≠ 0#6) (h1 : fieldOp w ≠ 1#6)
    (h : w.extractLsb' 28 4 = 4#4) : decodeWord enc w = decodeCop w := by
  simp only [decodeWord, h0, h1, h, if_true, if_false]

theorem decodeWord_major {w : Word} (enc : MulDivEncoding) (h0 : fieldOp w ≠ 0#6) (h1 : fieldOp w ≠ 1#6)
    (h : w.extractLsb' 28 4 ≠ 4#4) : decodeWord enc w = decodeMajor w := by
  simp only [decodeWord, h0, h1, h, if_false]

theorem whenZero_eq_instr (zero : Bool) (i j : Instr) : whenZero zero i = .instr j ↔ zero = true ∧ i = j := by
  unfold whenZero
  cases zero <;> simp

end Sys2Proof
end

