-- ==== Sys2Proof/Laws/Memory.lean ====
section
/-! SUPPORT. The laws of memory: a read after a write, the canonical form, and the record of stored addresses. -/

namespace Sys2Proof.Machine

/-! ## One byte -/

theorem Memory.read_write_same (m : Memory) (a : Nat) (v : Byte) : (m.write a v).read a = some v := by
  induction m with
  | nil => simp [Memory.write, Memory.read]
  | cons c m ih =>
    unfold Memory.write
    split
    · simp [Memory.read]
    · split
      · simp [Memory.read]
      · rename_i h
        simp [Memory.read, h, ih]

theorem Memory.read_write_other (m : Memory) (a b : Nat) (v : Byte) (h : b ≠ a) :
    (m.write a v).read b = m.read b := by
  induction m with
  | nil => simp [Memory.write, Memory.read, h]
  | cons c m ih =>
    unfold Memory.write
    split
    · simp [Memory.read, h]
    · split
      · rename_i e
        simp [Memory.read, h, e.symm ▸ h]
      · simp [Memory.read, ih]

theorem Memory.read_write (m : Memory) (a b : Nat) (v : Byte) :
    (m.write a v).read b = if b = a then some v else m.read b := by
  split
  · subst b; exact m.read_write_same a v
  · exact m.read_write_other a b v ‹_›

theorem Memory.mem_write {m : Memory} {a : Nat} {v : Byte} {c : Host.Cell} (h : c ∈ m.write a v) :
    c = (a, v) ∨ c ∈ m := by
  induction m with
  | nil => simpa [Memory.write] using h
  | cons d m ih =>
    unfold Memory.write at h
    split at h
    · simpa using h
    · split at h
      · rcases List.mem_cons.mp h with h | h
        · exact .inl h
        · exact .inr (List.mem_cons_of_mem _ h)
      · rcases List.mem_cons.mp h with h | h
        · exact .inr (h ▸ List.mem_cons_self)
        · exact (ih h).imp_right (List.mem_cons_of_mem _)

theorem Memory.wf_nil : Memory.wf [] := by simp [Memory.wf]

/-- A write keeps the canonical form. -/
theorem Memory.write_wf {m : Memory} (hm : m.wf) (a : Nat) (ha : a < 2 ^ 32) (v : Byte) : (m.write a v).wf := by
  refine ⟨?_, fun c hc => ?_⟩
  · have hs := hm.1
    clear hm
    induction m with
    | nil => simp [Memory.write]
    | cons d m ih =>
      obtain ⟨hd, hr⟩ := List.pairwise_cons.mp hs
      unfold Memory.write
      split
      · rename_i h
        refine List.pairwise_cons.mpr ⟨fun c hc => ?_, hs⟩
        rcases List.mem_cons.mp hc with hc | hc
        · exact hc ▸ h
        · exact lt_trans h (hd c hc)
      · split
        · rename_i e
          refine List.pairwise_cons.mpr ⟨fun c hc => ?_, hr⟩
          have := hd c hc
          simpa [e] using this
        · refine List.pairwise_cons.mpr ⟨fun c hc => ?_, ih hr⟩
          rcases Memory.mem_write hc with hc | hc
          · subst hc; simp only; omega
          · exact hd c hc
  · rcases Memory.mem_write hc with hc | hc
    · exact hc ▸ ha
    · exact hm.2 c hc

theorem Memory.read_none_of_lt {m : Memory} {a : Nat} (h : ∀ c ∈ m, a < c.1) : m.read a = none := by
  induction m with
  | nil => rfl
  | cons c m ih =>
    have := h c List.mem_cons_self
    have hne : a ≠ c.1 := by omega
    simp [Memory.read, hne, ih fun d hd => h d (List.mem_cons_of_mem _ hd)]

/-- In the canonical form two memories that read the same are the same. -/
theorem Memory.ext_read {m n : Memory} (hm : m.wf) (hn : n.wf) (h : ∀ a, m.read a = n.read a) : m = n := by
  replace hm := hm.1
  replace hn := hn.1
  induction m generalizing n with
  | nil =>
    cases n with
    | nil => rfl
    | cons d n => simpa [Memory.read] using h d.1
  | cons c m ih =>
    cases n with
    | nil => simpa [Memory.read] using h c.1
    | cons d n =>
      obtain ⟨hc, hm'⟩ := List.pairwise_cons.mp hm
      obtain ⟨hd, hn'⟩ := List.pairwise_cons.mp hn
      have hcd : c.1 = d.1 := by
        rcases Nat.lt_trichotomy c.1 d.1 with hlt | heq | hlt
        · have h1 := h c.1
          rw [Memory.read, if_pos rfl,
            Memory.read_none_of_lt (m := d :: n)
              (by simpa using ⟨hlt, fun a b hx => lt_trans hlt (hd (a, b) hx)⟩)] at h1
          cases h1
        · exact heq
        · have h1 := h d.1
          rw [Memory.read_none_of_lt (m := c :: m)
              (by simpa using ⟨hlt, fun a b hx => lt_trans hlt (hc (a, b) hx)⟩), Memory.read, if_pos rfl] at h1
          cases h1
      have hv : c.2 = d.2 := by
        have := h c.1
        simpa [Memory.read, hcd] using this
      have : c = d := Prod.ext hcd hv
      subst this
      refine congrArg _ (ih (fun a => ?_) hm' hn')
      by_cases ha : a = c.1
      · subst ha
        rw [Memory.read_none_of_lt hc, Memory.read_none_of_lt hd]
      · simpa [Memory.read, ha] using h a

/-! ## Several bytes -/

theorem writeBytes_wf {m : Memory} (hm : m.wf) (image : List AddressRange) (a : Word) (bs : List Byte) :
    (writeBytes image m a bs).wf := by
  induction bs generalizing m a with
  | nil => exact hm
  | cons b bs ih =>
    apply ih
    split
    · exact Memory.write_wf hm _ a.isLt b
    · exact hm

/-- What memory lists after a write was listed before, or lies in the launch image. -/
theorem mem_writeBytes {image : List AddressRange} {m : Memory} {a : Word} {bs : List Byte} {c : Host.Cell}
    (h : c ∈ writeBytes image m a bs) : c ∈ m ∨ inRanges image c.1 = true := by
  induction bs generalizing m a with
  | nil => exact .inl h
  | cons b bs ih =>
    rcases ih h with h | h
    · split at h
      · rename_i ha
        rcases Memory.mem_write h with h | h
        · exact .inr (h ▸ ha)
        · exact .inl h
      · exact .inl h
    · exact .inr h

/-- The address `k` bytes above `a`, as a number. -/
theorem toNat_add_ofNat (a : Word) (k : Nat) : (a + BitVec.ofNat 32 k).toNat = (a.toNat + k) % 2 ^ 32 := by
  simp [BitVec.toNat_add]

theorem add_one_add_ofNat (a : Word) (k : Nat) : a + 1 + BitVec.ofNat 32 k = a + BitVec.ofNat 32 (k + 1) := by
  apply BitVec.eq_of_toNat_eq
  simp [BitVec.toNat_add]
  omega

/-- A byte that is not among the written ones, or is outside the launch image, reads as before. -/
theorem writeBytes_read_other (image : List AddressRange) (m : Memory) (a : Word) (bs : List Byte) (b : Nat)
    (h : (∀ k < bs.length, b ≠ (a + BitVec.ofNat 32 k).toNat) ∨ inRanges image b = false) :
    (writeBytes image m a bs).read b = m.read b := by
  induction bs generalizing m a with
  | nil => rfl
  | cons v bs ih =>
    rw [writeBytes, ih]
    · split
      · rename_i ha
        refine Memory.read_write_other _ _ _ _ fun e => ?_
        rcases h with h | h
        · exact h 0 (by simp) (by simpa using e)
        · rw [e, ha] at h; cases h
      · rfl
    · refine h.imp_left fun h k hk => ?_
      have := h (k + 1) (by simpa using hk)
      rwa [add_one_add_ofNat]

/-- A written byte inside the launch image reads as written. -/
theorem writeBytes_read_at (image : List AddressRange) (m : Memory) (a : Word) (bs : List Byte)
    (hl : bs.length ≤ 2 ^ 32) (k : Nat) (hk : k < bs.length)
    (hi : inRanges image (a + BitVec.ofNat 32 k).toNat = true) :
    (writeBytes image m a bs).read (a + BitVec.ofNat 32 k).toNat = some bs[k] := by
  induction bs generalizing m a k with
  | nil => simp at hk
  | cons v bs ih =>
    simp only [List.length_cons] at hl hk
    rw [writeBytes]
    cases k with
    | zero =>
      rw [writeBytes_read_other]
      · have ha : inRanges image a.toNat = true := by simpa using hi
        rw [if_pos ha]
        simpa using Memory.read_write_same m a.toNat v
      · refine .inl fun j hj => ?_
        have ha := a.isLt
        rw [add_one_add_ofNat, toNat_add_ofNat, toNat_add_ofNat]
        omega
    | succ k =>
      rw [← add_one_add_ofNat] at hi ⊢
      simpa using ih _ (a + 1) (by omega) k (by omega) hi

theorem writeBytes_read_isSome (image : List AddressRange) (m : Memory) (a : Word) (bs : List Byte) (b : Nat)
    (h : (m.read b).isSome) : ((writeBytes image m a bs).read b).isSome := by
  induction bs generalizing m a with
  | nil => exact h
  | cons v bs ih =>
    apply ih
    split
    · rw [Memory.read_write]
      split <;> simp [h]
    · exact h

/-! ## The record of stored addresses -/

theorem mem_insertAddress (l : List Nat) (a b : Nat) : b ∈ insertAddress l a ↔ b = a ∨ b ∈ l := by
  induction l with
  | nil => simp [insertAddress]
  | cons x l ih =>
    unfold insertAddress
    split
    · simp
    · split
      · rename_i e
        simp only [List.mem_cons]
        constructor
        · exact .inr
        · rintro (h | h)
          · exact .inl (h.trans e)
          · exact h
      · simp only [List.mem_cons, ih]
        tauto

theorem insertAddress_sorted {l : List Nat} (h : l.Pairwise (· < ·)) (a : Nat) :
    (insertAddress l a).Pairwise (· < ·) := by
  induction l with
  | nil => simp [insertAddress]
  | cons x l ih =>
    obtain ⟨hx, hl⟩ := List.pairwise_cons.mp h
    unfold insertAddress
    split
    · rename_i hax
      refine List.pairwise_cons.mpr ⟨fun y hy => ?_, h⟩
      rcases List.mem_cons.mp hy with hy | hy
      · exact hy ▸ hax
      · exact lt_trans hax (hx y hy)
    · split
      · exact h
      · refine List.pairwise_cons.mpr ⟨fun y hy => ?_, ih hl⟩
        rcases (mem_insertAddress _ _ _).mp hy with hy | hy
        · omega
        · exact hx y hy

/-- The record holds the old addresses and those of the `n` bytes from `a` up. -/
theorem mem_markStored (l : List Nat) (a : Word) (n b : Nat) :
    b ∈ markStored l a n ↔ b ∈ l ∨ ∃ k < n, b = (a + BitVec.ofNat 32 k).toNat := by
  induction n generalizing l a with
  | zero => simp [markStored]
  | succ n ih =>
    rw [markStored, ih, mem_insertAddress]
    constructor
    · rintro ((h | h) | ⟨k, hk, h⟩)
      · exact .inr ⟨0, by omega, by simpa using h⟩
      · exact .inl h
      · exact .inr ⟨k + 1, by omega, by rwa [add_one_add_ofNat] at h⟩
    · rintro (h | ⟨k, hk, h⟩)
      · exact .inl (.inr h)
      · cases k with
        | zero => exact .inl (.inl (by simpa using h))
        | succ k => exact .inr ⟨k, by omega, by rwa [add_one_add_ofNat]⟩

theorem markStored_sorted {l : List Nat} (h : l.Pairwise (· < ·)) (a : Word) (n : Nat) :
    (markStored l a n).Pairwise (· < ·) := by
  induction n generalizing l a with
  | zero => exact h
  | succ n ih => exact ih (insertAddress_sorted h _) _

/-! ## What a data reference finds -/

theorem State.cell_of_inImage {s : State} {a : Nat} (h : s.inImage a = true) : s.cell a = s.mem.read a := by
  unfold State.cell; rw [if_pos h]

theorem State.cell_outside {s : State} {a : Nat} (h : s.inImage a = false) : s.cell a = none := by
  unfold State.cell; rw [h]; rfl

/-- A byte that has a value is what a data reference finds. -/
theorem State.byteAt_of_cell {s : State} {a : Word} {b : Byte} (h : s.cell a.toNat = some b) : s.byteAt a = b := by
  unfold State.byteAt; rw [h]; rfl

/-- A byte that has a value is in memory and in the launch image. -/
theorem State.cell_eq_some {s : State} {a : Nat} {b : Byte} :
    s.cell a = some b ↔ s.inImage a = true ∧ s.mem.read a = some b := by
  unfold State.cell; split <;> simp_all

/-- After a store, a stored byte of the launch image has the value stored. -/
theorem State.cell_storeBytes_at (s : State) (a : Word) (bs : List Byte) (hl : bs.length ≤ 2 ^ 32) (k : Nat)
    (hk : k < bs.length) (hi : s.inImage (a + BitVec.ofNat 32 k).toNat = true) :
    (s.storeBytes a bs).cell (a + BitVec.ofNat 32 k).toNat = some bs[k] :=
  State.cell_eq_some.mpr ⟨hi, writeBytes_read_at s.image s.mem a bs hl k hk hi⟩

/-- After a store, every other byte, and every byte outside the launch image, is as before. -/
theorem State.cell_storeBytes_other (s : State) (a : Word) (bs : List Byte) (b : Nat)
    (h : (∀ k < bs.length, b ≠ (a + BitVec.ofNat 32 k).toNat) ∨ s.inImage b = false) :
    (s.storeBytes a bs).cell b = s.cell b := by
  show (if s.inImage b then (writeBytes s.image s.mem a bs).read b else none) = _
  rw [writeBytes_read_other _ _ _ _ _ h]
  rfl

end Sys2Proof.Machine
end

