-- ==== Sys2Proof/Laws/State.lean ====
section
/-! SUPPORT. One lemma for each field of State and each update of the machine, so that no proof unfolds an update: what
the field is after the update. -/

namespace Sys2Proof.Machine

/-! ## State.setReg -/

@[simp] theorem State.setReg_gpr (s : State) (r : Reg) (v : Word) :
    (s.setReg r v).gpr = if r = 0 then s.gpr else s.gpr.set r.toNat v r.isLt := rfl
@[simp] theorem State.setReg_hi (s : State) (r : Reg) (v : Word) :
    (s.setReg r v).hi = s.hi := rfl
@[simp] theorem State.setReg_lo (s : State) (r : Reg) (v : Word) :
    (s.setReg r v).lo = s.lo := rfl
@[simp] theorem State.setReg_hiDefined (s : State) (r : Reg) (v : Word) :
    (s.setReg r v).hiDefined = s.hiDefined := rfl
@[simp] theorem State.setReg_loDefined (s : State) (r : Reg) (v : Word) :
    (s.setReg r v).loDefined = s.loDefined := rfl
@[simp] theorem State.setReg_pc (s : State) (r : Reg) (v : Word) :
    (s.setReg r v).pc = s.pc := rfl
@[simp] theorem State.setReg_npc (s : State) (r : Reg) (v : Word) :
    (s.setReg r v).npc = s.npc := rfl
@[simp] theorem State.setReg_ds (s : State) (r : Reg) (v : Word) :
    (s.setReg r v).ds = s.ds := rfl
@[simp] theorem State.setReg_sr (s : State) (r : Reg) (v : Word) :
    (s.setReg r v).sr = s.sr := rfl
@[simp] theorem State.setReg_cause (s : State) (r : Reg) (v : Word) :
    (s.setReg r v).cause = s.cause := rfl
@[simp] theorem State.setReg_epc (s : State) (r : Reg) (v : Word) :
    (s.setReg r v).epc = s.epc := rfl
@[simp] theorem State.setReg_badVAddr (s : State) (r : Reg) (v : Word) :
    (s.setReg r v).badVAddr = s.badVAddr := rfl
@[simp] theorem State.setReg_prId (s : State) (r : Reg) (v : Word) :
    (s.setReg r v).prId = s.prId := rfl
@[simp] theorem State.setReg_bpc (s : State) (r : Reg) (v : Word) :
    (s.setReg r v).bpc = s.bpc := rfl
@[simp] theorem State.setReg_bda (s : State) (r : Reg) (v : Word) :
    (s.setReg r v).bda = s.bda := rfl
@[simp] theorem State.setReg_dcic (s : State) (r : Reg) (v : Word) :
    (s.setReg r v).dcic = s.dcic := rfl
@[simp] theorem State.setReg_cp0Other (s : State) (r : Reg) (v : Word) :
    (s.setReg r v).cp0Other = s.cp0Other := rfl
@[simp] theorem State.setReg_cpr (s : State) (r : Reg) (v : Word) :
    (s.setReg r v).cpr = s.cpr := rfl
@[simp] theorem State.setReg_ccr (s : State) (r : Reg) (v : Word) :
    (s.setReg r v).ccr = s.ccr := rfl
@[simp] theorem State.setReg_ld (s : State) (r : Reg) (v : Word) :
    (s.setReg r v).ld = s.ld := rfl
@[simp] theorem State.setReg_stale (s : State) (r : Reg) (v : Word) :
    (s.setReg r v).stale = s.stale := rfl
@[simp] theorem State.setReg_hist1 (s : State) (r : Reg) (v : Word) :
    (s.setReg r v).hist1 = s.hist1 := rfl
@[simp] theorem State.setReg_hist2 (s : State) (r : Reg) (v : Word) :
    (s.setReg r v).hist2 = s.hist2 := rfl
@[simp] theorem State.setReg_mdFresh (s : State) (r : Reg) (v : Word) :
    (s.setReg r v).mdFresh = s.mdFresh := rfl
@[simp] theorem State.setReg_cpcPrev (s : State) (r : Reg) (v : Word) :
    (s.setReg r v).cpcPrev = s.cpcPrev := rfl
@[simp] theorem State.setReg_lastMemory (s : State) (r : Reg) (v : Word) :
    (s.setReg r v).lastMemory = s.lastMemory := rfl
@[simp] theorem State.setReg_mtc0 (s : State) (r : Reg) (v : Word) :
    (s.setReg r v).mtc0 = s.mtc0 := rfl
@[simp] theorem State.setReg_stored (s : State) (r : Reg) (v : Word) :
    (s.setReg r v).stored = s.stored := rfl
@[simp] theorem State.setReg_cpc (s : State) (r : Reg) (v : Word) :
    (s.setReg r v).cpc = s.cpc := rfl
@[simp] theorem State.setReg_irq (s : State) (r : Reg) (v : Word) :
    (s.setReg r v).irq = s.irq := rfl
@[simp] theorem State.setReg_inputs (s : State) (r : Reg) (v : Word) :
    (s.setReg r v).inputs = s.inputs := rfl
@[simp] theorem State.setReg_image (s : State) (r : Reg) (v : Word) :
    (s.setReg r v).image = s.image := rfl
@[simp] theorem State.setReg_mem (s : State) (r : Reg) (v : Word) :
    (s.setReg r v).mem = s.mem := rfl
@[simp] theorem State.setReg_cfg (s : State) (r : Reg) (v : Word) :
    (s.setReg r v).cfg = s.cfg := rfl
@[simp] theorem State.setReg_tick (s : State) (r : Reg) (v : Word) :
    (s.setReg r v).tick = s.tick := rfl

/-! ## State.delayReg -/

@[simp] theorem State.delayReg_gpr (s : State) (r : Reg) (v : Word) :
    (s.delayReg r v).gpr = s.gpr := rfl
@[simp] theorem State.delayReg_hi (s : State) (r : Reg) (v : Word) :
    (s.delayReg r v).hi = s.hi := rfl
@[simp] theorem State.delayReg_lo (s : State) (r : Reg) (v : Word) :
    (s.delayReg r v).lo = s.lo := rfl
@[simp] theorem State.delayReg_hiDefined (s : State) (r : Reg) (v : Word) :
    (s.delayReg r v).hiDefined = s.hiDefined := rfl
@[simp] theorem State.delayReg_loDefined (s : State) (r : Reg) (v : Word) :
    (s.delayReg r v).loDefined = s.loDefined := rfl
@[simp] theorem State.delayReg_pc (s : State) (r : Reg) (v : Word) :
    (s.delayReg r v).pc = s.pc := rfl
@[simp] theorem State.delayReg_npc (s : State) (r : Reg) (v : Word) :
    (s.delayReg r v).npc = s.npc := rfl
@[simp] theorem State.delayReg_ds (s : State) (r : Reg) (v : Word) :
    (s.delayReg r v).ds = s.ds := rfl
@[simp] theorem State.delayReg_sr (s : State) (r : Reg) (v : Word) :
    (s.delayReg r v).sr = s.sr := rfl
@[simp] theorem State.delayReg_cause (s : State) (r : Reg) (v : Word) :
    (s.delayReg r v).cause = s.cause := rfl
@[simp] theorem State.delayReg_epc (s : State) (r : Reg) (v : Word) :
    (s.delayReg r v).epc = s.epc := rfl
@[simp] theorem State.delayReg_badVAddr (s : State) (r : Reg) (v : Word) :
    (s.delayReg r v).badVAddr = s.badVAddr := rfl
@[simp] theorem State.delayReg_prId (s : State) (r : Reg) (v : Word) :
    (s.delayReg r v).prId = s.prId := rfl
@[simp] theorem State.delayReg_bpc (s : State) (r : Reg) (v : Word) :
    (s.delayReg r v).bpc = s.bpc := rfl
@[simp] theorem State.delayReg_bda (s : State) (r : Reg) (v : Word) :
    (s.delayReg r v).bda = s.bda := rfl
@[simp] theorem State.delayReg_dcic (s : State) (r : Reg) (v : Word) :
    (s.delayReg r v).dcic = s.dcic := rfl
@[simp] theorem State.delayReg_cp0Other (s : State) (r : Reg) (v : Word) :
    (s.delayReg r v).cp0Other = s.cp0Other := rfl
@[simp] theorem State.delayReg_cpr (s : State) (r : Reg) (v : Word) :
    (s.delayReg r v).cpr = s.cpr := rfl
@[simp] theorem State.delayReg_ccr (s : State) (r : Reg) (v : Word) :
    (s.delayReg r v).ccr = s.ccr := rfl
@[simp] theorem State.delayReg_ld (s : State) (r : Reg) (v : Word) :
    (s.delayReg r v).ld = if r = 0 then none else some (r, v) := rfl
@[simp] theorem State.delayReg_stale (s : State) (r : Reg) (v : Word) :
    (s.delayReg r v).stale = s.stale := rfl
@[simp] theorem State.delayReg_hist1 (s : State) (r : Reg) (v : Word) :
    (s.delayReg r v).hist1 = s.hist1 := rfl
@[simp] theorem State.delayReg_hist2 (s : State) (r : Reg) (v : Word) :
    (s.delayReg r v).hist2 = s.hist2 := rfl
@[simp] theorem State.delayReg_mdFresh (s : State) (r : Reg) (v : Word) :
    (s.delayReg r v).mdFresh = s.mdFresh := rfl
@[simp] theorem State.delayReg_cpcPrev (s : State) (r : Reg) (v : Word) :
    (s.delayReg r v).cpcPrev = s.cpcPrev := rfl
@[simp] theorem State.delayReg_lastMemory (s : State) (r : Reg) (v : Word) :
    (s.delayReg r v).lastMemory = s.lastMemory := rfl
@[simp] theorem State.delayReg_mtc0 (s : State) (r : Reg) (v : Word) :
    (s.delayReg r v).mtc0 = s.mtc0 := rfl
@[simp] theorem State.delayReg_stored (s : State) (r : Reg) (v : Word) :
    (s.delayReg r v).stored = s.stored := rfl
@[simp] theorem State.delayReg_cpc (s : State) (r : Reg) (v : Word) :
    (s.delayReg r v).cpc = s.cpc := rfl
@[simp] theorem State.delayReg_irq (s : State) (r : Reg) (v : Word) :
    (s.delayReg r v).irq = s.irq := rfl
@[simp] theorem State.delayReg_inputs (s : State) (r : Reg) (v : Word) :
    (s.delayReg r v).inputs = s.inputs := rfl
@[simp] theorem State.delayReg_image (s : State) (r : Reg) (v : Word) :
    (s.delayReg r v).image = s.image := rfl
@[simp] theorem State.delayReg_mem (s : State) (r : Reg) (v : Word) :
    (s.delayReg r v).mem = s.mem := rfl
@[simp] theorem State.delayReg_cfg (s : State) (r : Reg) (v : Word) :
    (s.delayReg r v).cfg = s.cfg := rfl
@[simp] theorem State.delayReg_tick (s : State) (r : Reg) (v : Word) :
    (s.delayReg r v).tick = s.tick := rfl

/-! ## State.storeBytes -/

@[simp] theorem State.storeBytes_gpr (s : State) (a : Word) (bs : List Byte) :
    (s.storeBytes a bs).gpr = s.gpr := rfl
@[simp] theorem State.storeBytes_hi (s : State) (a : Word) (bs : List Byte) :
    (s.storeBytes a bs).hi = s.hi := rfl
@[simp] theorem State.storeBytes_lo (s : State) (a : Word) (bs : List Byte) :
    (s.storeBytes a bs).lo = s.lo := rfl
@[simp] theorem State.storeBytes_hiDefined (s : State) (a : Word) (bs : List Byte) :
    (s.storeBytes a bs).hiDefined = s.hiDefined := rfl
@[simp] theorem State.storeBytes_loDefined (s : State) (a : Word) (bs : List Byte) :
    (s.storeBytes a bs).loDefined = s.loDefined := rfl
@[simp] theorem State.storeBytes_pc (s : State) (a : Word) (bs : List Byte) :
    (s.storeBytes a bs).pc = s.pc := rfl
@[simp] theorem State.storeBytes_npc (s : State) (a : Word) (bs : List Byte) :
    (s.storeBytes a bs).npc = s.npc := rfl
@[simp] theorem State.storeBytes_ds (s : State) (a : Word) (bs : List Byte) :
    (s.storeBytes a bs).ds = s.ds := rfl
@[simp] theorem State.storeBytes_sr (s : State) (a : Word) (bs : List Byte) :
    (s.storeBytes a bs).sr = s.sr := rfl
@[simp] theorem State.storeBytes_cause (s : State) (a : Word) (bs : List Byte) :
    (s.storeBytes a bs).cause = s.cause := rfl
@[simp] theorem State.storeBytes_epc (s : State) (a : Word) (bs : List Byte) :
    (s.storeBytes a bs).epc = s.epc := rfl
@[simp] theorem State.storeBytes_badVAddr (s : State) (a : Word) (bs : List Byte) :
    (s.storeBytes a bs).badVAddr = s.badVAddr := rfl
@[simp] theorem State.storeBytes_prId (s : State) (a : Word) (bs : List Byte) :
    (s.storeBytes a bs).prId = s.prId := rfl
@[simp] theorem State.storeBytes_bpc (s : State) (a : Word) (bs : List Byte) :
    (s.storeBytes a bs).bpc = s.bpc := rfl
@[simp] theorem State.storeBytes_bda (s : State) (a : Word) (bs : List Byte) :
    (s.storeBytes a bs).bda = s.bda := rfl
@[simp] theorem State.storeBytes_dcic (s : State) (a : Word) (bs : List Byte) :
    (s.storeBytes a bs).dcic = s.dcic := rfl
@[simp] theorem State.storeBytes_cp0Other (s : State) (a : Word) (bs : List Byte) :
    (s.storeBytes a bs).cp0Other = s.cp0Other := rfl
@[simp] theorem State.storeBytes_cpr (s : State) (a : Word) (bs : List Byte) :
    (s.storeBytes a bs).cpr = s.cpr := rfl
@[simp] theorem State.storeBytes_ccr (s : State) (a : Word) (bs : List Byte) :
    (s.storeBytes a bs).ccr = s.ccr := rfl
@[simp] theorem State.storeBytes_ld (s : State) (a : Word) (bs : List Byte) :
    (s.storeBytes a bs).ld = s.ld := rfl
@[simp] theorem State.storeBytes_stale (s : State) (a : Word) (bs : List Byte) :
    (s.storeBytes a bs).stale = s.stale := rfl
@[simp] theorem State.storeBytes_hist1 (s : State) (a : Word) (bs : List Byte) :
    (s.storeBytes a bs).hist1 = s.hist1 := rfl
@[simp] theorem State.storeBytes_hist2 (s : State) (a : Word) (bs : List Byte) :
    (s.storeBytes a bs).hist2 = s.hist2 := rfl
@[simp] theorem State.storeBytes_mdFresh (s : State) (a : Word) (bs : List Byte) :
    (s.storeBytes a bs).mdFresh = s.mdFresh := rfl
@[simp] theorem State.storeBytes_cpcPrev (s : State) (a : Word) (bs : List Byte) :
    (s.storeBytes a bs).cpcPrev = s.cpcPrev := rfl
@[simp] theorem State.storeBytes_lastMemory (s : State) (a : Word) (bs : List Byte) :
    (s.storeBytes a bs).lastMemory = s.lastMemory := rfl
@[simp] theorem State.storeBytes_mtc0 (s : State) (a : Word) (bs : List Byte) :
    (s.storeBytes a bs).mtc0 = s.mtc0 := rfl
@[simp] theorem State.storeBytes_stored (s : State) (a : Word) (bs : List Byte) :
    (s.storeBytes a bs).stored = markStored s.stored a bs.length := rfl
@[simp] theorem State.storeBytes_cpc (s : State) (a : Word) (bs : List Byte) :
    (s.storeBytes a bs).cpc = s.cpc := rfl
@[simp] theorem State.storeBytes_irq (s : State) (a : Word) (bs : List Byte) :
    (s.storeBytes a bs).irq = s.irq := rfl
@[simp] theorem State.storeBytes_inputs (s : State) (a : Word) (bs : List Byte) :
    (s.storeBytes a bs).inputs = s.inputs := rfl
@[simp] theorem State.storeBytes_image (s : State) (a : Word) (bs : List Byte) :
    (s.storeBytes a bs).image = s.image := rfl
@[simp] theorem State.storeBytes_mem (s : State) (a : Word) (bs : List Byte) :
    (s.storeBytes a bs).mem = writeBytes s.image s.mem a bs := rfl
@[simp] theorem State.storeBytes_cfg (s : State) (a : Word) (bs : List Byte) :
    (s.storeBytes a bs).cfg = s.cfg := rfl
@[simp] theorem State.storeBytes_tick (s : State) (a : Word) (bs : List Byte) :
    (s.storeBytes a bs).tick = s.tick := rfl

/-! ## State.trapEntry -/

@[simp] theorem State.trapEntry_gpr (s : State) (e : Exc) :
    (s.trapEntry e).gpr = s.gpr := rfl
@[simp] theorem State.trapEntry_hi (s : State) (e : Exc) :
    (s.trapEntry e).hi = s.hi := rfl
@[simp] theorem State.trapEntry_lo (s : State) (e : Exc) :
    (s.trapEntry e).lo = s.lo := rfl
@[simp] theorem State.trapEntry_hiDefined (s : State) (e : Exc) :
    (s.trapEntry e).hiDefined = s.hiDefined := rfl
@[simp] theorem State.trapEntry_loDefined (s : State) (e : Exc) :
    (s.trapEntry e).loDefined = s.loDefined := rfl
@[simp] theorem State.trapEntry_pc (s : State) (e : Exc) :
    (s.trapEntry e).pc = exceptionVector s.cfg.trap s.sr e := rfl
@[simp] theorem State.trapEntry_npc (s : State) (e : Exc) :
    (s.trapEntry e).npc = exceptionVector s.cfg.trap s.sr e + 4 := rfl
@[simp] theorem State.trapEntry_ds (s : State) (e : Exc) :
    (s.trapEntry e).ds = false := rfl
@[simp] theorem State.trapEntry_sr (s : State) (e : Exc) :
    (s.trapEntry e).sr = pushMode s.sr := rfl
@[simp] theorem State.trapEntry_cause (s : State) (e : Exc) :
    (s.trapEntry e).cause = causeAfter s.cfg.trap s.cause s.ds e := rfl
@[simp] theorem State.trapEntry_epc (s : State) (e : Exc) :
    (s.trapEntry e).epc = s.restartAddress := rfl
@[simp] theorem State.trapEntry_badVAddr (s : State) (e : Exc) :
    (s.trapEntry e).badVAddr = badVAddrAfter s.badVAddr e := rfl
@[simp] theorem State.trapEntry_prId (s : State) (e : Exc) :
    (s.trapEntry e).prId = s.prId := rfl
@[simp] theorem State.trapEntry_bpc (s : State) (e : Exc) :
    (s.trapEntry e).bpc = s.bpc := rfl
@[simp] theorem State.trapEntry_bda (s : State) (e : Exc) :
    (s.trapEntry e).bda = s.bda := rfl
@[simp] theorem State.trapEntry_dcic (s : State) (e : Exc) :
    (s.trapEntry e).dcic = s.dcic := rfl
@[simp] theorem State.trapEntry_cp0Other (s : State) (e : Exc) :
    (s.trapEntry e).cp0Other = s.cp0Other := rfl
@[simp] theorem State.trapEntry_cpr (s : State) (e : Exc) :
    (s.trapEntry e).cpr = s.cpr := rfl
@[simp] theorem State.trapEntry_ccr (s : State) (e : Exc) :
    (s.trapEntry e).ccr = s.ccr := rfl
@[simp] theorem State.trapEntry_ld (s : State) (e : Exc) :
    (s.trapEntry e).ld = s.ld := rfl
@[simp] theorem State.trapEntry_stale (s : State) (e : Exc) :
    (s.trapEntry e).stale = s.stale := rfl
@[simp] theorem State.trapEntry_hist1 (s : State) (e : Exc) :
    (s.trapEntry e).hist1 = s.hist1 := rfl
@[simp] theorem State.trapEntry_hist2 (s : State) (e : Exc) :
    (s.trapEntry e).hist2 = s.hist2 := rfl
@[simp] theorem State.trapEntry_mdFresh (s : State) (e : Exc) :
    (s.trapEntry e).mdFresh = s.mdFresh := rfl
@[simp] theorem State.trapEntry_cpcPrev (s : State) (e : Exc) :
    (s.trapEntry e).cpcPrev = s.cpcPrev := rfl
@[simp] theorem State.trapEntry_lastMemory (s : State) (e : Exc) :
    (s.trapEntry e).lastMemory = s.lastMemory := rfl
@[simp] theorem State.trapEntry_mtc0 (s : State) (e : Exc) :
    (s.trapEntry e).mtc0 = none := rfl
@[simp] theorem State.trapEntry_stored (s : State) (e : Exc) :
    (s.trapEntry e).stored = s.stored := rfl
@[simp] theorem State.trapEntry_cpc (s : State) (e : Exc) :
    (s.trapEntry e).cpc = s.cpc := rfl
@[simp] theorem State.trapEntry_irq (s : State) (e : Exc) :
    (s.trapEntry e).irq = s.irq := rfl
@[simp] theorem State.trapEntry_inputs (s : State) (e : Exc) :
    (s.trapEntry e).inputs = s.inputs := rfl
@[simp] theorem State.trapEntry_image (s : State) (e : Exc) :
    (s.trapEntry e).image = s.image := rfl
@[simp] theorem State.trapEntry_mem (s : State) (e : Exc) :
    (s.trapEntry e).mem = s.mem := rfl
@[simp] theorem State.trapEntry_cfg (s : State) (e : Exc) :
    (s.trapEntry e).cfg = s.cfg := rfl
@[simp] theorem State.trapEntry_tick (s : State) (e : Exc) :
    (s.trapEntry e).tick = s.tick := rfl

/-! ## State.abandoned -/

@[simp] theorem State.abandoned_gpr (s : State) (reads : List Reg) :
    (s.abandoned reads).gpr = s.gpr := rfl
@[simp] theorem State.abandoned_hi (s : State) (reads : List Reg) :
    (s.abandoned reads).hi = s.hi := rfl
@[simp] theorem State.abandoned_lo (s : State) (reads : List Reg) :
    (s.abandoned reads).lo = s.lo := rfl
@[simp] theorem State.abandoned_hiDefined (s : State) (reads : List Reg) :
    (s.abandoned reads).hiDefined = s.hiDefined := rfl
@[simp] theorem State.abandoned_loDefined (s : State) (reads : List Reg) :
    (s.abandoned reads).loDefined = s.loDefined := rfl
@[simp] theorem State.abandoned_pc (s : State) (reads : List Reg) :
    (s.abandoned reads).pc = s.pc := rfl
@[simp] theorem State.abandoned_npc (s : State) (reads : List Reg) :
    (s.abandoned reads).npc = s.npc := rfl
@[simp] theorem State.abandoned_ds (s : State) (reads : List Reg) :
    (s.abandoned reads).ds = s.ds := rfl
@[simp] theorem State.abandoned_sr (s : State) (reads : List Reg) :
    (s.abandoned reads).sr = s.sr := rfl
@[simp] theorem State.abandoned_cause (s : State) (reads : List Reg) :
    (s.abandoned reads).cause = s.cause := rfl
@[simp] theorem State.abandoned_epc (s : State) (reads : List Reg) :
    (s.abandoned reads).epc = s.epc := rfl
@[simp] theorem State.abandoned_badVAddr (s : State) (reads : List Reg) :
    (s.abandoned reads).badVAddr = s.badVAddr := rfl
@[simp] theorem State.abandoned_prId (s : State) (reads : List Reg) :
    (s.abandoned reads).prId = s.prId := rfl
@[simp] theorem State.abandoned_bpc (s : State) (reads : List Reg) :
    (s.abandoned reads).bpc = s.bpc := rfl
@[simp] theorem State.abandoned_bda (s : State) (reads : List Reg) :
    (s.abandoned reads).bda = s.bda := rfl
@[simp] theorem State.abandoned_dcic (s : State) (reads : List Reg) :
    (s.abandoned reads).dcic = s.dcic := rfl
@[simp] theorem State.abandoned_cp0Other (s : State) (reads : List Reg) :
    (s.abandoned reads).cp0Other = s.cp0Other := rfl
@[simp] theorem State.abandoned_cpr (s : State) (reads : List Reg) :
    (s.abandoned reads).cpr = s.cpr := rfl
@[simp] theorem State.abandoned_ccr (s : State) (reads : List Reg) :
    (s.abandoned reads).ccr = s.ccr := rfl
@[simp] theorem State.abandoned_ld (s : State) (reads : List Reg) :
    (s.abandoned reads).ld = s.ld := rfl
@[simp] theorem State.abandoned_stale (s : State) (reads : List Reg) :
    (s.abandoned reads).stale = s.stale := rfl
@[simp] theorem State.abandoned_hist1 (s : State) (reads : List Reg) :
    (s.abandoned reads).hist1 = none := rfl
@[simp] theorem State.abandoned_hist2 (s : State) (reads : List Reg) :
    (s.abandoned reads).hist2 = afterUse s.hist1 reads none := rfl
@[simp] theorem State.abandoned_mdFresh (s : State) (reads : List Reg) :
    (s.abandoned reads).mdFresh = s.mdFresh := rfl
@[simp] theorem State.abandoned_cpcPrev (s : State) (reads : List Reg) :
    (s.abandoned reads).cpcPrev = s.cpcPrev := rfl
@[simp] theorem State.abandoned_lastMemory (s : State) (reads : List Reg) :
    (s.abandoned reads).lastMemory = false := rfl
@[simp] theorem State.abandoned_mtc0 (s : State) (reads : List Reg) :
    (s.abandoned reads).mtc0 = s.mtc0 := rfl
@[simp] theorem State.abandoned_stored (s : State) (reads : List Reg) :
    (s.abandoned reads).stored = s.stored := rfl
@[simp] theorem State.abandoned_cpc (s : State) (reads : List Reg) :
    (s.abandoned reads).cpc = s.cpc := rfl
@[simp] theorem State.abandoned_irq (s : State) (reads : List Reg) :
    (s.abandoned reads).irq = s.irq := rfl
@[simp] theorem State.abandoned_inputs (s : State) (reads : List Reg) :
    (s.abandoned reads).inputs = s.inputs := rfl
@[simp] theorem State.abandoned_image (s : State) (reads : List Reg) :
    (s.abandoned reads).image = s.image := rfl
@[simp] theorem State.abandoned_mem (s : State) (reads : List Reg) :
    (s.abandoned reads).mem = s.mem := rfl
@[simp] theorem State.abandoned_cfg (s : State) (reads : List Reg) :
    (s.abandoned reads).cfg = s.cfg := rfl
@[simp] theorem State.abandoned_tick (s : State) (reads : List Reg) :
    (s.abandoned reads).tick = s.tick := rfl

/-! ## State.popMode -/

@[simp] theorem State.popMode_gpr (s : State) :
    (s.popMode).gpr = s.gpr := rfl
@[simp] theorem State.popMode_hi (s : State) :
    (s.popMode).hi = s.hi := rfl
@[simp] theorem State.popMode_lo (s : State) :
    (s.popMode).lo = s.lo := rfl
@[simp] theorem State.popMode_hiDefined (s : State) :
    (s.popMode).hiDefined = s.hiDefined := rfl
@[simp] theorem State.popMode_loDefined (s : State) :
    (s.popMode).loDefined = s.loDefined := rfl
@[simp] theorem State.popMode_pc (s : State) :
    (s.popMode).pc = s.pc := rfl
@[simp] theorem State.popMode_npc (s : State) :
    (s.popMode).npc = s.npc := rfl
@[simp] theorem State.popMode_ds (s : State) :
    (s.popMode).ds = s.ds := rfl
@[simp] theorem State.popMode_sr (s : State) :
    (s.popMode).sr = s.poppedStatus := rfl
@[simp] theorem State.popMode_cause (s : State) :
    (s.popMode).cause = s.cause := rfl
@[simp] theorem State.popMode_epc (s : State) :
    (s.popMode).epc = s.epc := rfl
@[simp] theorem State.popMode_badVAddr (s : State) :
    (s.popMode).badVAddr = s.badVAddr := rfl
@[simp] theorem State.popMode_prId (s : State) :
    (s.popMode).prId = s.prId := rfl
@[simp] theorem State.popMode_bpc (s : State) :
    (s.popMode).bpc = s.bpc := rfl
@[simp] theorem State.popMode_bda (s : State) :
    (s.popMode).bda = s.bda := rfl
@[simp] theorem State.popMode_dcic (s : State) :
    (s.popMode).dcic = s.dcic := rfl
@[simp] theorem State.popMode_cp0Other (s : State) :
    (s.popMode).cp0Other = s.cp0Other := rfl
@[simp] theorem State.popMode_cpr (s : State) :
    (s.popMode).cpr = s.cpr := rfl
@[simp] theorem State.popMode_ccr (s : State) :
    (s.popMode).ccr = s.ccr := rfl
@[simp] theorem State.popMode_ld (s : State) :
    (s.popMode).ld = s.ld := rfl
@[simp] theorem State.popMode_stale (s : State) :
    (s.popMode).stale = s.stale := rfl
@[simp] theorem State.popMode_hist1 (s : State) :
    (s.popMode).hist1 = s.hist1 := rfl
@[simp] theorem State.popMode_hist2 (s : State) :
    (s.popMode).hist2 = s.hist2 := rfl
@[simp] theorem State.popMode_mdFresh (s : State) :
    (s.popMode).mdFresh = s.mdFresh := rfl
@[simp] theorem State.popMode_cpcPrev (s : State) :
    (s.popMode).cpcPrev = s.cpcPrev := rfl
@[simp] theorem State.popMode_lastMemory (s : State) :
    (s.popMode).lastMemory = s.lastMemory := rfl
@[simp] theorem State.popMode_mtc0 (s : State) :
    (s.popMode).mtc0 = s.mtc0 := rfl
@[simp] theorem State.popMode_stored (s : State) :
    (s.popMode).stored = s.stored := rfl
@[simp] theorem State.popMode_cpc (s : State) :
    (s.popMode).cpc = s.cpc := rfl
@[simp] theorem State.popMode_irq (s : State) :
    (s.popMode).irq = s.irq := rfl
@[simp] theorem State.popMode_inputs (s : State) :
    (s.popMode).inputs = s.inputs := rfl
@[simp] theorem State.popMode_image (s : State) :
    (s.popMode).image = s.image := rfl
@[simp] theorem State.popMode_mem (s : State) :
    (s.popMode).mem = s.mem := rfl
@[simp] theorem State.popMode_cfg (s : State) :
    (s.popMode).cfg = s.cfg := rfl
@[simp] theorem State.popMode_tick (s : State) :
    (s.popMode).tick = s.tick := rfl

/-! ## State.completed -/

@[simp] theorem State.completed_gpr (s : State) (i : Instr) (target : Option Word) :
    (s.completed i target).gpr = s.gpr := rfl
@[simp] theorem State.completed_hi (s : State) (i : Instr) (target : Option Word) :
    (s.completed i target).hi = s.hi := rfl
@[simp] theorem State.completed_lo (s : State) (i : Instr) (target : Option Word) :
    (s.completed i target).lo = s.lo := rfl
@[simp] theorem State.completed_hiDefined (s : State) (i : Instr) (target : Option Word) :
    (s.completed i target).hiDefined = s.hiDefined := rfl
@[simp] theorem State.completed_loDefined (s : State) (i : Instr) (target : Option Word) :
    (s.completed i target).loDefined = s.loDefined := rfl
@[simp] theorem State.completed_pc (s : State) (i : Instr) (target : Option Word) :
    (s.completed i target).pc = s.npc := rfl
@[simp] theorem State.completed_npc (s : State) (i : Instr) (target : Option Word) :
    (s.completed i target).npc = target.getD (s.npc + 4) := rfl
@[simp] theorem State.completed_ds (s : State) (i : Instr) (target : Option Word) :
    (s.completed i target).ds = isBranch i := rfl
@[simp] theorem State.completed_sr (s : State) (i : Instr) (target : Option Word) :
    (s.completed i target).sr = s.sr := rfl
@[simp] theorem State.completed_cause (s : State) (i : Instr) (target : Option Word) :
    (s.completed i target).cause = s.cause := rfl
@[simp] theorem State.completed_epc (s : State) (i : Instr) (target : Option Word) :
    (s.completed i target).epc = s.epc := rfl
@[simp] theorem State.completed_badVAddr (s : State) (i : Instr) (target : Option Word) :
    (s.completed i target).badVAddr = s.badVAddr := rfl
@[simp] theorem State.completed_prId (s : State) (i : Instr) (target : Option Word) :
    (s.completed i target).prId = s.prId := rfl
@[simp] theorem State.completed_bpc (s : State) (i : Instr) (target : Option Word) :
    (s.completed i target).bpc = s.bpc := rfl
@[simp] theorem State.completed_bda (s : State) (i : Instr) (target : Option Word) :
    (s.completed i target).bda = s.bda := rfl
@[simp] theorem State.completed_dcic (s : State) (i : Instr) (target : Option Word) :
    (s.completed i target).dcic = s.dcic := rfl
@[simp] theorem State.completed_cp0Other (s : State) (i : Instr) (target : Option Word) :
    (s.completed i target).cp0Other = s.cp0Other := rfl
@[simp] theorem State.completed_cpr (s : State) (i : Instr) (target : Option Word) :
    (s.completed i target).cpr = s.cpr := rfl
@[simp] theorem State.completed_ccr (s : State) (i : Instr) (target : Option Word) :
    (s.completed i target).ccr = s.ccr := rfl
@[simp] theorem State.completed_ld (s : State) (i : Instr) (target : Option Word) :
    (s.completed i target).ld = s.ld := rfl
@[simp] theorem State.completed_stale (s : State) (i : Instr) (target : Option Word) :
    (s.completed i target).stale = s.stale := rfl
@[simp] theorem State.completed_hist1 (s : State) (i : Instr) (target : Option Word) :
    (s.completed i target).hist1 = hiLoEntry i := rfl
@[simp] theorem State.completed_hist2 (s : State) (i : Instr) (target : Option Word) :
    (s.completed i target).hist2 = afterUse s.hist1 (instrInfo i).reads (instrInfo i).writes := rfl
@[simp] theorem State.completed_mdFresh (s : State) (i : Instr) (target : Option Word) :
    (s.completed i target).mdFresh = s.mdFresh := rfl
@[simp] theorem State.completed_cpcPrev (s : State) (i : Instr) (target : Option Word) :
    (s.completed i target).cpcPrev = s.cpc := rfl
@[simp] theorem State.completed_lastMemory (s : State) (i : Instr) (target : Option Word) :
    (s.completed i target).lastMemory = isMemory i := rfl
@[simp] theorem State.completed_mtc0 (s : State) (i : Instr) (target : Option Word) :
    (s.completed i target).mtc0 = none := rfl
@[simp] theorem State.completed_stored (s : State) (i : Instr) (target : Option Word) :
    (s.completed i target).stored = s.stored := rfl
@[simp] theorem State.completed_cpc (s : State) (i : Instr) (target : Option Word) :
    (s.completed i target).cpc = s.cpc := rfl
@[simp] theorem State.completed_irq (s : State) (i : Instr) (target : Option Word) :
    (s.completed i target).irq = s.irq := rfl
@[simp] theorem State.completed_inputs (s : State) (i : Instr) (target : Option Word) :
    (s.completed i target).inputs = s.inputs := rfl
@[simp] theorem State.completed_image (s : State) (i : Instr) (target : Option Word) :
    (s.completed i target).image = s.image := rfl
@[simp] theorem State.completed_mem (s : State) (i : Instr) (target : Option Word) :
    (s.completed i target).mem = s.mem := rfl
@[simp] theorem State.completed_cfg (s : State) (i : Instr) (target : Option Word) :
    (s.completed i target).cfg = s.cfg := rfl
@[simp] theorem State.completed_tick (s : State) (i : Instr) (target : Option Word) :
    (s.completed i target).tick = s.tick := rfl

/-! ## State.setHiLo -/

@[simp] theorem State.setHiLo_gpr (s : State) (h l : Word) :
    (s.setHiLo h l).gpr = s.gpr := rfl
@[simp] theorem State.setHiLo_hi (s : State) (h l : Word) :
    (s.setHiLo h l).hi = h := rfl
@[simp] theorem State.setHiLo_lo (s : State) (h l : Word) :
    (s.setHiLo h l).lo = l := rfl
@[simp] theorem State.setHiLo_hiDefined (s : State) (h l : Word) :
    (s.setHiLo h l).hiDefined = true := rfl
@[simp] theorem State.setHiLo_loDefined (s : State) (h l : Word) :
    (s.setHiLo h l).loDefined = true := rfl
@[simp] theorem State.setHiLo_pc (s : State) (h l : Word) :
    (s.setHiLo h l).pc = s.pc := rfl
@[simp] theorem State.setHiLo_npc (s : State) (h l : Word) :
    (s.setHiLo h l).npc = s.npc := rfl
@[simp] theorem State.setHiLo_ds (s : State) (h l : Word) :
    (s.setHiLo h l).ds = s.ds := rfl
@[simp] theorem State.setHiLo_sr (s : State) (h l : Word) :
    (s.setHiLo h l).sr = s.sr := rfl
@[simp] theorem State.setHiLo_cause (s : State) (h l : Word) :
    (s.setHiLo h l).cause = s.cause := rfl
@[simp] theorem State.setHiLo_epc (s : State) (h l : Word) :
    (s.setHiLo h l).epc = s.epc := rfl
@[simp] theorem State.setHiLo_badVAddr (s : State) (h l : Word) :
    (s.setHiLo h l).badVAddr = s.badVAddr := rfl
@[simp] theorem State.setHiLo_prId (s : State) (h l : Word) :
    (s.setHiLo h l).prId = s.prId := rfl
@[simp] theorem State.setHiLo_bpc (s : State) (h l : Word) :
    (s.setHiLo h l).bpc = s.bpc := rfl
@[simp] theorem State.setHiLo_bda (s : State) (h l : Word) :
    (s.setHiLo h l).bda = s.bda := rfl
@[simp] theorem State.setHiLo_dcic (s : State) (h l : Word) :
    (s.setHiLo h l).dcic = s.dcic := rfl
@[simp] theorem State.setHiLo_cp0Other (s : State) (h l : Word) :
    (s.setHiLo h l).cp0Other = s.cp0Other := rfl
@[simp] theorem State.setHiLo_cpr (s : State) (h l : Word) :
    (s.setHiLo h l).cpr = s.cpr := rfl
@[simp] theorem State.setHiLo_ccr (s : State) (h l : Word) :
    (s.setHiLo h l).ccr = s.ccr := rfl
@[simp] theorem State.setHiLo_ld (s : State) (h l : Word) :
    (s.setHiLo h l).ld = s.ld := rfl
@[simp] theorem State.setHiLo_stale (s : State) (h l : Word) :
    (s.setHiLo h l).stale = s.stale := rfl
@[simp] theorem State.setHiLo_hist1 (s : State) (h l : Word) :
    (s.setHiLo h l).hist1 = s.hist1 := rfl
@[simp] theorem State.setHiLo_hist2 (s : State) (h l : Word) :
    (s.setHiLo h l).hist2 = s.hist2 := rfl
@[simp] theorem State.setHiLo_mdFresh (s : State) (h l : Word) :
    (s.setHiLo h l).mdFresh = true := rfl
@[simp] theorem State.setHiLo_cpcPrev (s : State) (h l : Word) :
    (s.setHiLo h l).cpcPrev = s.cpcPrev := rfl
@[simp] theorem State.setHiLo_lastMemory (s : State) (h l : Word) :
    (s.setHiLo h l).lastMemory = s.lastMemory := rfl
@[simp] theorem State.setHiLo_mtc0 (s : State) (h l : Word) :
    (s.setHiLo h l).mtc0 = s.mtc0 := rfl
@[simp] theorem State.setHiLo_stored (s : State) (h l : Word) :
    (s.setHiLo h l).stored = s.stored := rfl
@[simp] theorem State.setHiLo_cpc (s : State) (h l : Word) :
    (s.setHiLo h l).cpc = s.cpc := rfl
@[simp] theorem State.setHiLo_irq (s : State) (h l : Word) :
    (s.setHiLo h l).irq = s.irq := rfl
@[simp] theorem State.setHiLo_inputs (s : State) (h l : Word) :
    (s.setHiLo h l).inputs = s.inputs := rfl
@[simp] theorem State.setHiLo_image (s : State) (h l : Word) :
    (s.setHiLo h l).image = s.image := rfl
@[simp] theorem State.setHiLo_mem (s : State) (h l : Word) :
    (s.setHiLo h l).mem = s.mem := rfl
@[simp] theorem State.setHiLo_cfg (s : State) (h l : Word) :
    (s.setHiLo h l).cfg = s.cfg := rfl
@[simp] theorem State.setHiLo_tick (s : State) (h l : Word) :
    (s.setHiLo h l).tick = s.tick := rfl

/-! ## State.loseHiLo -/

@[simp] theorem State.loseHiLo_gpr (s : State) :
    (s.loseHiLo).gpr = s.gpr := rfl
@[simp] theorem State.loseHiLo_hi (s : State) :
    (s.loseHiLo).hi = s.free .lostHi := rfl
@[simp] theorem State.loseHiLo_lo (s : State) :
    (s.loseHiLo).lo = s.free .lostLo := rfl
@[simp] theorem State.loseHiLo_hiDefined (s : State) :
    (s.loseHiLo).hiDefined = false := rfl
@[simp] theorem State.loseHiLo_loDefined (s : State) :
    (s.loseHiLo).loDefined = false := rfl
@[simp] theorem State.loseHiLo_pc (s : State) :
    (s.loseHiLo).pc = s.pc := rfl
@[simp] theorem State.loseHiLo_npc (s : State) :
    (s.loseHiLo).npc = s.npc := rfl
@[simp] theorem State.loseHiLo_ds (s : State) :
    (s.loseHiLo).ds = s.ds := rfl
@[simp] theorem State.loseHiLo_sr (s : State) :
    (s.loseHiLo).sr = s.sr := rfl
@[simp] theorem State.loseHiLo_cause (s : State) :
    (s.loseHiLo).cause = s.cause := rfl
@[simp] theorem State.loseHiLo_epc (s : State) :
    (s.loseHiLo).epc = s.epc := rfl
@[simp] theorem State.loseHiLo_badVAddr (s : State) :
    (s.loseHiLo).badVAddr = s.badVAddr := rfl
@[simp] theorem State.loseHiLo_prId (s : State) :
    (s.loseHiLo).prId = s.prId := rfl
@[simp] theorem State.loseHiLo_bpc (s : State) :
    (s.loseHiLo).bpc = s.bpc := rfl
@[simp] theorem State.loseHiLo_bda (s : State) :
    (s.loseHiLo).bda = s.bda := rfl
@[simp] theorem State.loseHiLo_dcic (s : State) :
    (s.loseHiLo).dcic = s.dcic := rfl
@[simp] theorem State.loseHiLo_cp0Other (s : State) :
    (s.loseHiLo).cp0Other = s.cp0Other := rfl
@[simp] theorem State.loseHiLo_cpr (s : State) :
    (s.loseHiLo).cpr = s.cpr := rfl
@[simp] theorem State.loseHiLo_ccr (s : State) :
    (s.loseHiLo).ccr = s.ccr := rfl
@[simp] theorem State.loseHiLo_ld (s : State) :
    (s.loseHiLo).ld = s.ld := rfl
@[simp] theorem State.loseHiLo_stale (s : State) :
    (s.loseHiLo).stale = s.stale := rfl
@[simp] theorem State.loseHiLo_hist1 (s : State) :
    (s.loseHiLo).hist1 = s.hist1 := rfl
@[simp] theorem State.loseHiLo_hist2 (s : State) :
    (s.loseHiLo).hist2 = s.hist2 := rfl
@[simp] theorem State.loseHiLo_mdFresh (s : State) :
    (s.loseHiLo).mdFresh = true := rfl
@[simp] theorem State.loseHiLo_cpcPrev (s : State) :
    (s.loseHiLo).cpcPrev = s.cpcPrev := rfl
@[simp] theorem State.loseHiLo_lastMemory (s : State) :
    (s.loseHiLo).lastMemory = s.lastMemory := rfl
@[simp] theorem State.loseHiLo_mtc0 (s : State) :
    (s.loseHiLo).mtc0 = s.mtc0 := rfl
@[simp] theorem State.loseHiLo_stored (s : State) :
    (s.loseHiLo).stored = s.stored := rfl
@[simp] theorem State.loseHiLo_cpc (s : State) :
    (s.loseHiLo).cpc = s.cpc := rfl
@[simp] theorem State.loseHiLo_irq (s : State) :
    (s.loseHiLo).irq = s.irq := rfl
@[simp] theorem State.loseHiLo_inputs (s : State) :
    (s.loseHiLo).inputs = s.inputs := rfl
@[simp] theorem State.loseHiLo_image (s : State) :
    (s.loseHiLo).image = s.image := rfl
@[simp] theorem State.loseHiLo_mem (s : State) :
    (s.loseHiLo).mem = s.mem := rfl
@[simp] theorem State.loseHiLo_cfg (s : State) :
    (s.loseHiLo).cfg = s.cfg := rfl
@[simp] theorem State.loseHiLo_tick (s : State) :
    (s.loseHiLo).tick = s.tick := rfl

/-! ## State.moveToHi -/

@[simp] theorem State.moveToHi_gpr (s : State) (v : Word) :
    (s.moveToHi v).gpr = s.gpr := rfl
@[simp] theorem State.moveToHi_hi (s : State) (v : Word) :
    (s.moveToHi v).hi = v := rfl
@[simp] theorem State.moveToHi_lo (s : State) (v : Word) :
    (s.moveToHi v).lo = if s.mdFresh then s.free .lostLo else s.lo := rfl
@[simp] theorem State.moveToHi_hiDefined (s : State) (v : Word) :
    (s.moveToHi v).hiDefined = true := rfl
@[simp] theorem State.moveToHi_loDefined (s : State) (v : Word) :
    (s.moveToHi v).loDefined = (s.loDefined && !s.mdFresh) := rfl
@[simp] theorem State.moveToHi_pc (s : State) (v : Word) :
    (s.moveToHi v).pc = s.pc := rfl
@[simp] theorem State.moveToHi_npc (s : State) (v : Word) :
    (s.moveToHi v).npc = s.npc := rfl
@[simp] theorem State.moveToHi_ds (s : State) (v : Word) :
    (s.moveToHi v).ds = s.ds := rfl
@[simp] theorem State.moveToHi_sr (s : State) (v : Word) :
    (s.moveToHi v).sr = s.sr := rfl
@[simp] theorem State.moveToHi_cause (s : State) (v : Word) :
    (s.moveToHi v).cause = s.cause := rfl
@[simp] theorem State.moveToHi_epc (s : State) (v : Word) :
    (s.moveToHi v).epc = s.epc := rfl
@[simp] theorem State.moveToHi_badVAddr (s : State) (v : Word) :
    (s.moveToHi v).badVAddr = s.badVAddr := rfl
@[simp] theorem State.moveToHi_prId (s : State) (v : Word) :
    (s.moveToHi v).prId = s.prId := rfl
@[simp] theorem State.moveToHi_bpc (s : State) (v : Word) :
    (s.moveToHi v).bpc = s.bpc := rfl
@[simp] theorem State.moveToHi_bda (s : State) (v : Word) :
    (s.moveToHi v).bda = s.bda := rfl
@[simp] theorem State.moveToHi_dcic (s : State) (v : Word) :
    (s.moveToHi v).dcic = s.dcic := rfl
@[simp] theorem State.moveToHi_cp0Other (s : State) (v : Word) :
    (s.moveToHi v).cp0Other = s.cp0Other := rfl
@[simp] theorem State.moveToHi_cpr (s : State) (v : Word) :
    (s.moveToHi v).cpr = s.cpr := rfl
@[simp] theorem State.moveToHi_ccr (s : State) (v : Word) :
    (s.moveToHi v).ccr = s.ccr := rfl
@[simp] theorem State.moveToHi_ld (s : State) (v : Word) :
    (s.moveToHi v).ld = s.ld := rfl
@[simp] theorem State.moveToHi_stale (s : State) (v : Word) :
    (s.moveToHi v).stale = s.stale := rfl
@[simp] theorem State.moveToHi_hist1 (s : State) (v : Word) :
    (s.moveToHi v).hist1 = s.hist1 := rfl
@[simp] theorem State.moveToHi_hist2 (s : State) (v : Word) :
    (s.moveToHi v).hist2 = s.hist2 := rfl
@[simp] theorem State.moveToHi_mdFresh (s : State) (v : Word) :
    (s.moveToHi v).mdFresh = false := rfl
@[simp] theorem State.moveToHi_cpcPrev (s : State) (v : Word) :
    (s.moveToHi v).cpcPrev = s.cpcPrev := rfl
@[simp] theorem State.moveToHi_lastMemory (s : State) (v : Word) :
    (s.moveToHi v).lastMemory = s.lastMemory := rfl
@[simp] theorem State.moveToHi_mtc0 (s : State) (v : Word) :
    (s.moveToHi v).mtc0 = s.mtc0 := rfl
@[simp] theorem State.moveToHi_stored (s : State) (v : Word) :
    (s.moveToHi v).stored = s.stored := rfl
@[simp] theorem State.moveToHi_cpc (s : State) (v : Word) :
    (s.moveToHi v).cpc = s.cpc := rfl
@[simp] theorem State.moveToHi_irq (s : State) (v : Word) :
    (s.moveToHi v).irq = s.irq := rfl
@[simp] theorem State.moveToHi_inputs (s : State) (v : Word) :
    (s.moveToHi v).inputs = s.inputs := rfl
@[simp] theorem State.moveToHi_image (s : State) (v : Word) :
    (s.moveToHi v).image = s.image := rfl
@[simp] theorem State.moveToHi_mem (s : State) (v : Word) :
    (s.moveToHi v).mem = s.mem := rfl
@[simp] theorem State.moveToHi_cfg (s : State) (v : Word) :
    (s.moveToHi v).cfg = s.cfg := rfl
@[simp] theorem State.moveToHi_tick (s : State) (v : Word) :
    (s.moveToHi v).tick = s.tick := rfl

/-! ## State.moveToLo -/

@[simp] theorem State.moveToLo_gpr (s : State) (v : Word) :
    (s.moveToLo v).gpr = s.gpr := rfl
@[simp] theorem State.moveToLo_hi (s : State) (v : Word) :
    (s.moveToLo v).hi = if s.mdFresh then s.free .lostHi else s.hi := rfl
@[simp] theorem State.moveToLo_lo (s : State) (v : Word) :
    (s.moveToLo v).lo = v := rfl
@[simp] theorem State.moveToLo_hiDefined (s : State) (v : Word) :
    (s.moveToLo v).hiDefined = (s.hiDefined && !s.mdFresh) := rfl
@[simp] theorem State.moveToLo_loDefined (s : State) (v : Word) :
    (s.moveToLo v).loDefined = true := rfl
@[simp] theorem State.moveToLo_pc (s : State) (v : Word) :
    (s.moveToLo v).pc = s.pc := rfl
@[simp] theorem State.moveToLo_npc (s : State) (v : Word) :
    (s.moveToLo v).npc = s.npc := rfl
@[simp] theorem State.moveToLo_ds (s : State) (v : Word) :
    (s.moveToLo v).ds = s.ds := rfl
@[simp] theorem State.moveToLo_sr (s : State) (v : Word) :
    (s.moveToLo v).sr = s.sr := rfl
@[simp] theorem State.moveToLo_cause (s : State) (v : Word) :
    (s.moveToLo v).cause = s.cause := rfl
@[simp] theorem State.moveToLo_epc (s : State) (v : Word) :
    (s.moveToLo v).epc = s.epc := rfl
@[simp] theorem State.moveToLo_badVAddr (s : State) (v : Word) :
    (s.moveToLo v).badVAddr = s.badVAddr := rfl
@[simp] theorem State.moveToLo_prId (s : State) (v : Word) :
    (s.moveToLo v).prId = s.prId := rfl
@[simp] theorem State.moveToLo_bpc (s : State) (v : Word) :
    (s.moveToLo v).bpc = s.bpc := rfl
@[simp] theorem State.moveToLo_bda (s : State) (v : Word) :
    (s.moveToLo v).bda = s.bda := rfl
@[simp] theorem State.moveToLo_dcic (s : State) (v : Word) :
    (s.moveToLo v).dcic = s.dcic := rfl
@[simp] theorem State.moveToLo_cp0Other (s : State) (v : Word) :
    (s.moveToLo v).cp0Other = s.cp0Other := rfl
@[simp] theorem State.moveToLo_cpr (s : State) (v : Word) :
    (s.moveToLo v).cpr = s.cpr := rfl
@[simp] theorem State.moveToLo_ccr (s : State) (v : Word) :
    (s.moveToLo v).ccr = s.ccr := rfl
@[simp] theorem State.moveToLo_ld (s : State) (v : Word) :
    (s.moveToLo v).ld = s.ld := rfl
@[simp] theorem State.moveToLo_stale (s : State) (v : Word) :
    (s.moveToLo v).stale = s.stale := rfl
@[simp] theorem State.moveToLo_hist1 (s : State) (v : Word) :
    (s.moveToLo v).hist1 = s.hist1 := rfl
@[simp] theorem State.moveToLo_hist2 (s : State) (v : Word) :
    (s.moveToLo v).hist2 = s.hist2 := rfl
@[simp] theorem State.moveToLo_mdFresh (s : State) (v : Word) :
    (s.moveToLo v).mdFresh = false := rfl
@[simp] theorem State.moveToLo_cpcPrev (s : State) (v : Word) :
    (s.moveToLo v).cpcPrev = s.cpcPrev := rfl
@[simp] theorem State.moveToLo_lastMemory (s : State) (v : Word) :
    (s.moveToLo v).lastMemory = s.lastMemory := rfl
@[simp] theorem State.moveToLo_mtc0 (s : State) (v : Word) :
    (s.moveToLo v).mtc0 = s.mtc0 := rfl
@[simp] theorem State.moveToLo_stored (s : State) (v : Word) :
    (s.moveToLo v).stored = s.stored := rfl
@[simp] theorem State.moveToLo_cpc (s : State) (v : Word) :
    (s.moveToLo v).cpc = s.cpc := rfl
@[simp] theorem State.moveToLo_irq (s : State) (v : Word) :
    (s.moveToLo v).irq = s.irq := rfl
@[simp] theorem State.moveToLo_inputs (s : State) (v : Word) :
    (s.moveToLo v).inputs = s.inputs := rfl
@[simp] theorem State.moveToLo_image (s : State) (v : Word) :
    (s.moveToLo v).image = s.image := rfl
@[simp] theorem State.moveToLo_mem (s : State) (v : Word) :
    (s.moveToLo v).mem = s.mem := rfl
@[simp] theorem State.moveToLo_cfg (s : State) (v : Word) :
    (s.moveToLo v).cfg = s.cfg := rfl
@[simp] theorem State.moveToLo_tick (s : State) (v : Word) :
    (s.moveToLo v).tick = s.tick := rfl

/-! ## State.staleMd -/

@[simp] theorem State.staleMd_gpr (s : State) :
    (s.staleMd).gpr = s.gpr := rfl
@[simp] theorem State.staleMd_hi (s : State) :
    (s.staleMd).hi = s.hi := rfl
@[simp] theorem State.staleMd_lo (s : State) :
    (s.staleMd).lo = s.lo := rfl
@[simp] theorem State.staleMd_hiDefined (s : State) :
    (s.staleMd).hiDefined = s.hiDefined := rfl
@[simp] theorem State.staleMd_loDefined (s : State) :
    (s.staleMd).loDefined = s.loDefined := rfl
@[simp] theorem State.staleMd_pc (s : State) :
    (s.staleMd).pc = s.pc := rfl
@[simp] theorem State.staleMd_npc (s : State) :
    (s.staleMd).npc = s.npc := rfl
@[simp] theorem State.staleMd_ds (s : State) :
    (s.staleMd).ds = s.ds := rfl
@[simp] theorem State.staleMd_sr (s : State) :
    (s.staleMd).sr = s.sr := rfl
@[simp] theorem State.staleMd_cause (s : State) :
    (s.staleMd).cause = s.cause := rfl
@[simp] theorem State.staleMd_epc (s : State) :
    (s.staleMd).epc = s.epc := rfl
@[simp] theorem State.staleMd_badVAddr (s : State) :
    (s.staleMd).badVAddr = s.badVAddr := rfl
@[simp] theorem State.staleMd_prId (s : State) :
    (s.staleMd).prId = s.prId := rfl
@[simp] theorem State.staleMd_bpc (s : State) :
    (s.staleMd).bpc = s.bpc := rfl
@[simp] theorem State.staleMd_bda (s : State) :
    (s.staleMd).bda = s.bda := rfl
@[simp] theorem State.staleMd_dcic (s : State) :
    (s.staleMd).dcic = s.dcic := rfl
@[simp] theorem State.staleMd_cp0Other (s : State) :
    (s.staleMd).cp0Other = s.cp0Other := rfl
@[simp] theorem State.staleMd_cpr (s : State) :
    (s.staleMd).cpr = s.cpr := rfl
@[simp] theorem State.staleMd_ccr (s : State) :
    (s.staleMd).ccr = s.ccr := rfl
@[simp] theorem State.staleMd_ld (s : State) :
    (s.staleMd).ld = s.ld := rfl
@[simp] theorem State.staleMd_stale (s : State) :
    (s.staleMd).stale = s.stale := rfl
@[simp] theorem State.staleMd_hist1 (s : State) :
    (s.staleMd).hist1 = s.hist1 := rfl
@[simp] theorem State.staleMd_hist2 (s : State) :
    (s.staleMd).hist2 = s.hist2 := rfl
@[simp] theorem State.staleMd_mdFresh (s : State) :
    (s.staleMd).mdFresh = false := rfl
@[simp] theorem State.staleMd_cpcPrev (s : State) :
    (s.staleMd).cpcPrev = s.cpcPrev := rfl
@[simp] theorem State.staleMd_lastMemory (s : State) :
    (s.staleMd).lastMemory = s.lastMemory := rfl
@[simp] theorem State.staleMd_mtc0 (s : State) :
    (s.staleMd).mtc0 = s.mtc0 := rfl
@[simp] theorem State.staleMd_stored (s : State) :
    (s.staleMd).stored = s.stored := rfl
@[simp] theorem State.staleMd_cpc (s : State) :
    (s.staleMd).cpc = s.cpc := rfl
@[simp] theorem State.staleMd_irq (s : State) :
    (s.staleMd).irq = s.irq := rfl
@[simp] theorem State.staleMd_inputs (s : State) :
    (s.staleMd).inputs = s.inputs := rfl
@[simp] theorem State.staleMd_image (s : State) :
    (s.staleMd).image = s.image := rfl
@[simp] theorem State.staleMd_mem (s : State) :
    (s.staleMd).mem = s.mem := rfl
@[simp] theorem State.staleMd_cfg (s : State) :
    (s.staleMd).cfg = s.cfg := rfl
@[simp] theorem State.staleMd_tick (s : State) :
    (s.staleMd).tick = s.tick := rfl

/-! ## State.afterMtc0 -/

@[simp] theorem State.afterMtc0_gpr (s : State) (r : Reg) (old : Word) :
    (s.afterMtc0 r old).gpr = s.gpr := rfl
@[simp] theorem State.afterMtc0_hi (s : State) (r : Reg) (old : Word) :
    (s.afterMtc0 r old).hi = s.hi := rfl
@[simp] theorem State.afterMtc0_lo (s : State) (r : Reg) (old : Word) :
    (s.afterMtc0 r old).lo = s.lo := rfl
@[simp] theorem State.afterMtc0_hiDefined (s : State) (r : Reg) (old : Word) :
    (s.afterMtc0 r old).hiDefined = s.hiDefined := rfl
@[simp] theorem State.afterMtc0_loDefined (s : State) (r : Reg) (old : Word) :
    (s.afterMtc0 r old).loDefined = s.loDefined := rfl
@[simp] theorem State.afterMtc0_pc (s : State) (r : Reg) (old : Word) :
    (s.afterMtc0 r old).pc = s.pc := rfl
@[simp] theorem State.afterMtc0_npc (s : State) (r : Reg) (old : Word) :
    (s.afterMtc0 r old).npc = s.npc := rfl
@[simp] theorem State.afterMtc0_ds (s : State) (r : Reg) (old : Word) :
    (s.afterMtc0 r old).ds = s.ds := rfl
@[simp] theorem State.afterMtc0_sr (s : State) (r : Reg) (old : Word) :
    (s.afterMtc0 r old).sr = s.sr := rfl
@[simp] theorem State.afterMtc0_cause (s : State) (r : Reg) (old : Word) :
    (s.afterMtc0 r old).cause = s.cause := rfl
@[simp] theorem State.afterMtc0_epc (s : State) (r : Reg) (old : Word) :
    (s.afterMtc0 r old).epc = s.epc := rfl
@[simp] theorem State.afterMtc0_badVAddr (s : State) (r : Reg) (old : Word) :
    (s.afterMtc0 r old).badVAddr = s.badVAddr := rfl
@[simp] theorem State.afterMtc0_prId (s : State) (r : Reg) (old : Word) :
    (s.afterMtc0 r old).prId = s.prId := rfl
@[simp] theorem State.afterMtc0_bpc (s : State) (r : Reg) (old : Word) :
    (s.afterMtc0 r old).bpc = s.bpc := rfl
@[simp] theorem State.afterMtc0_bda (s : State) (r : Reg) (old : Word) :
    (s.afterMtc0 r old).bda = s.bda := rfl
@[simp] theorem State.afterMtc0_dcic (s : State) (r : Reg) (old : Word) :
    (s.afterMtc0 r old).dcic = s.dcic := rfl
@[simp] theorem State.afterMtc0_cp0Other (s : State) (r : Reg) (old : Word) :
    (s.afterMtc0 r old).cp0Other = s.cp0Other := rfl
@[simp] theorem State.afterMtc0_cpr (s : State) (r : Reg) (old : Word) :
    (s.afterMtc0 r old).cpr = s.cpr := rfl
@[simp] theorem State.afterMtc0_ccr (s : State) (r : Reg) (old : Word) :
    (s.afterMtc0 r old).ccr = s.ccr := rfl
@[simp] theorem State.afterMtc0_ld (s : State) (r : Reg) (old : Word) :
    (s.afterMtc0 r old).ld = s.ld := rfl
@[simp] theorem State.afterMtc0_stale (s : State) (r : Reg) (old : Word) :
    (s.afterMtc0 r old).stale = s.stale := rfl
@[simp] theorem State.afterMtc0_hist1 (s : State) (r : Reg) (old : Word) :
    (s.afterMtc0 r old).hist1 = s.hist1 := rfl
@[simp] theorem State.afterMtc0_hist2 (s : State) (r : Reg) (old : Word) :
    (s.afterMtc0 r old).hist2 = s.hist2 := rfl
@[simp] theorem State.afterMtc0_mdFresh (s : State) (r : Reg) (old : Word) :
    (s.afterMtc0 r old).mdFresh = s.mdFresh := rfl
@[simp] theorem State.afterMtc0_cpcPrev (s : State) (r : Reg) (old : Word) :
    (s.afterMtc0 r old).cpcPrev = s.cpcPrev := rfl
@[simp] theorem State.afterMtc0_lastMemory (s : State) (r : Reg) (old : Word) :
    (s.afterMtc0 r old).lastMemory = s.lastMemory := rfl
@[simp] theorem State.afterMtc0_mtc0 (s : State) (r : Reg) (old : Word) :
    (s.afterMtc0 r old).mtc0 = some (r, old) := rfl
@[simp] theorem State.afterMtc0_stored (s : State) (r : Reg) (old : Word) :
    (s.afterMtc0 r old).stored = s.stored := rfl
@[simp] theorem State.afterMtc0_cpc (s : State) (r : Reg) (old : Word) :
    (s.afterMtc0 r old).cpc = s.cpc := rfl
@[simp] theorem State.afterMtc0_irq (s : State) (r : Reg) (old : Word) :
    (s.afterMtc0 r old).irq = s.irq := rfl
@[simp] theorem State.afterMtc0_inputs (s : State) (r : Reg) (old : Word) :
    (s.afterMtc0 r old).inputs = s.inputs := rfl
@[simp] theorem State.afterMtc0_image (s : State) (r : Reg) (old : Word) :
    (s.afterMtc0 r old).image = s.image := rfl
@[simp] theorem State.afterMtc0_mem (s : State) (r : Reg) (old : Word) :
    (s.afterMtc0 r old).mem = s.mem := rfl
@[simp] theorem State.afterMtc0_cfg (s : State) (r : Reg) (old : Word) :
    (s.afterMtc0 r old).cfg = s.cfg := rfl
@[simp] theorem State.afterMtc0_tick (s : State) (r : Reg) (old : Word) :
    (s.afterMtc0 r old).tick = s.tick := rfl

/-! ## State.copWrite -/

@[simp] theorem State.copWrite_gpr (s : State) (z : Unit4) (r : Reg) (v : Word) :
    (s.copWrite z r v).gpr = s.gpr := rfl
@[simp] theorem State.copWrite_hi (s : State) (z : Unit4) (r : Reg) (v : Word) :
    (s.copWrite z r v).hi = s.hi := rfl
@[simp] theorem State.copWrite_lo (s : State) (z : Unit4) (r : Reg) (v : Word) :
    (s.copWrite z r v).lo = s.lo := rfl
@[simp] theorem State.copWrite_hiDefined (s : State) (z : Unit4) (r : Reg) (v : Word) :
    (s.copWrite z r v).hiDefined = s.hiDefined := rfl
@[simp] theorem State.copWrite_loDefined (s : State) (z : Unit4) (r : Reg) (v : Word) :
    (s.copWrite z r v).loDefined = s.loDefined := rfl
@[simp] theorem State.copWrite_pc (s : State) (z : Unit4) (r : Reg) (v : Word) :
    (s.copWrite z r v).pc = s.pc := rfl
@[simp] theorem State.copWrite_npc (s : State) (z : Unit4) (r : Reg) (v : Word) :
    (s.copWrite z r v).npc = s.npc := rfl
@[simp] theorem State.copWrite_ds (s : State) (z : Unit4) (r : Reg) (v : Word) :
    (s.copWrite z r v).ds = s.ds := rfl
@[simp] theorem State.copWrite_sr (s : State) (z : Unit4) (r : Reg) (v : Word) :
    (s.copWrite z r v).sr = s.sr := rfl
@[simp] theorem State.copWrite_cause (s : State) (z : Unit4) (r : Reg) (v : Word) :
    (s.copWrite z r v).cause = s.cause := rfl
@[simp] theorem State.copWrite_epc (s : State) (z : Unit4) (r : Reg) (v : Word) :
    (s.copWrite z r v).epc = s.epc := rfl
@[simp] theorem State.copWrite_badVAddr (s : State) (z : Unit4) (r : Reg) (v : Word) :
    (s.copWrite z r v).badVAddr = s.badVAddr := rfl
@[simp] theorem State.copWrite_prId (s : State) (z : Unit4) (r : Reg) (v : Word) :
    (s.copWrite z r v).prId = s.prId := rfl
@[simp] theorem State.copWrite_bpc (s : State) (z : Unit4) (r : Reg) (v : Word) :
    (s.copWrite z r v).bpc = s.bpc := rfl
@[simp] theorem State.copWrite_bda (s : State) (z : Unit4) (r : Reg) (v : Word) :
    (s.copWrite z r v).bda = s.bda := rfl
@[simp] theorem State.copWrite_dcic (s : State) (z : Unit4) (r : Reg) (v : Word) :
    (s.copWrite z r v).dcic = s.dcic := rfl
@[simp] theorem State.copWrite_cp0Other (s : State) (z : Unit4) (r : Reg) (v : Word) :
    (s.copWrite z r v).cp0Other = s.cp0Other := rfl
@[simp] theorem State.copWrite_ccr (s : State) (z : Unit4) (r : Reg) (v : Word) :
    (s.copWrite z r v).ccr = s.ccr := rfl
@[simp] theorem State.copWrite_ld (s : State) (z : Unit4) (r : Reg) (v : Word) :
    (s.copWrite z r v).ld = s.ld := rfl
@[simp] theorem State.copWrite_stale (s : State) (z : Unit4) (r : Reg) (v : Word) :
    (s.copWrite z r v).stale = s.stale := rfl
@[simp] theorem State.copWrite_hist1 (s : State) (z : Unit4) (r : Reg) (v : Word) :
    (s.copWrite z r v).hist1 = s.hist1 := rfl
@[simp] theorem State.copWrite_hist2 (s : State) (z : Unit4) (r : Reg) (v : Word) :
    (s.copWrite z r v).hist2 = s.hist2 := rfl
@[simp] theorem State.copWrite_mdFresh (s : State) (z : Unit4) (r : Reg) (v : Word) :
    (s.copWrite z r v).mdFresh = s.mdFresh := rfl
@[simp] theorem State.copWrite_cpcPrev (s : State) (z : Unit4) (r : Reg) (v : Word) :
    (s.copWrite z r v).cpcPrev = s.cpcPrev := rfl
@[simp] theorem State.copWrite_lastMemory (s : State) (z : Unit4) (r : Reg) (v : Word) :
    (s.copWrite z r v).lastMemory = s.lastMemory := rfl
@[simp] theorem State.copWrite_mtc0 (s : State) (z : Unit4) (r : Reg) (v : Word) :
    (s.copWrite z r v).mtc0 = s.mtc0 := rfl
@[simp] theorem State.copWrite_stored (s : State) (z : Unit4) (r : Reg) (v : Word) :
    (s.copWrite z r v).stored = s.stored := rfl
@[simp] theorem State.copWrite_cpc (s : State) (z : Unit4) (r : Reg) (v : Word) :
    (s.copWrite z r v).cpc = s.cpc := rfl
@[simp] theorem State.copWrite_irq (s : State) (z : Unit4) (r : Reg) (v : Word) :
    (s.copWrite z r v).irq = s.irq := rfl
@[simp] theorem State.copWrite_inputs (s : State) (z : Unit4) (r : Reg) (v : Word) :
    (s.copWrite z r v).inputs = s.inputs := rfl
@[simp] theorem State.copWrite_image (s : State) (z : Unit4) (r : Reg) (v : Word) :
    (s.copWrite z r v).image = s.image := rfl
@[simp] theorem State.copWrite_mem (s : State) (z : Unit4) (r : Reg) (v : Word) :
    (s.copWrite z r v).mem = s.mem := rfl
@[simp] theorem State.copWrite_cfg (s : State) (z : Unit4) (r : Reg) (v : Word) :
    (s.copWrite z r v).cfg = s.cfg := rfl
@[simp] theorem State.copWrite_tick (s : State) (z : Unit4) (r : Reg) (v : Word) :
    (s.copWrite z r v).tick = s.tick := rfl

/-! ## placeBytes -/

@[simp] theorem placeBytes_gpr (s : State) (a : Word) (bs : List Byte) :
    (placeBytes s a bs).gpr = s.gpr := rfl
@[simp] theorem placeBytes_hi (s : State) (a : Word) (bs : List Byte) :
    (placeBytes s a bs).hi = s.hi := rfl
@[simp] theorem placeBytes_lo (s : State) (a : Word) (bs : List Byte) :
    (placeBytes s a bs).lo = s.lo := rfl
@[simp] theorem placeBytes_hiDefined (s : State) (a : Word) (bs : List Byte) :
    (placeBytes s a bs).hiDefined = s.hiDefined := rfl
@[simp] theorem placeBytes_loDefined (s : State) (a : Word) (bs : List Byte) :
    (placeBytes s a bs).loDefined = s.loDefined := rfl
@[simp] theorem placeBytes_pc (s : State) (a : Word) (bs : List Byte) :
    (placeBytes s a bs).pc = s.pc := rfl
@[simp] theorem placeBytes_npc (s : State) (a : Word) (bs : List Byte) :
    (placeBytes s a bs).npc = s.npc := rfl
@[simp] theorem placeBytes_ds (s : State) (a : Word) (bs : List Byte) :
    (placeBytes s a bs).ds = s.ds := rfl
@[simp] theorem placeBytes_sr (s : State) (a : Word) (bs : List Byte) :
    (placeBytes s a bs).sr = s.sr := rfl
@[simp] theorem placeBytes_cause (s : State) (a : Word) (bs : List Byte) :
    (placeBytes s a bs).cause = s.cause := rfl
@[simp] theorem placeBytes_epc (s : State) (a : Word) (bs : List Byte) :
    (placeBytes s a bs).epc = s.epc := rfl
@[simp] theorem placeBytes_badVAddr (s : State) (a : Word) (bs : List Byte) :
    (placeBytes s a bs).badVAddr = s.badVAddr := rfl
@[simp] theorem placeBytes_prId (s : State) (a : Word) (bs : List Byte) :
    (placeBytes s a bs).prId = s.prId := rfl
@[simp] theorem placeBytes_bpc (s : State) (a : Word) (bs : List Byte) :
    (placeBytes s a bs).bpc = s.bpc := rfl
@[simp] theorem placeBytes_bda (s : State) (a : Word) (bs : List Byte) :
    (placeBytes s a bs).bda = s.bda := rfl
@[simp] theorem placeBytes_dcic (s : State) (a : Word) (bs : List Byte) :
    (placeBytes s a bs).dcic = s.dcic := rfl
@[simp] theorem placeBytes_cp0Other (s : State) (a : Word) (bs : List Byte) :
    (placeBytes s a bs).cp0Other = s.cp0Other := rfl
@[simp] theorem placeBytes_cpr (s : State) (a : Word) (bs : List Byte) :
    (placeBytes s a bs).cpr = s.cpr := rfl
@[simp] theorem placeBytes_ccr (s : State) (a : Word) (bs : List Byte) :
    (placeBytes s a bs).ccr = s.ccr := rfl
@[simp] theorem placeBytes_ld (s : State) (a : Word) (bs : List Byte) :
    (placeBytes s a bs).ld = s.ld := rfl
@[simp] theorem placeBytes_stale (s : State) (a : Word) (bs : List Byte) :
    (placeBytes s a bs).stale = s.stale := rfl
@[simp] theorem placeBytes_hist1 (s : State) (a : Word) (bs : List Byte) :
    (placeBytes s a bs).hist1 = s.hist1 := rfl
@[simp] theorem placeBytes_hist2 (s : State) (a : Word) (bs : List Byte) :
    (placeBytes s a bs).hist2 = s.hist2 := rfl
@[simp] theorem placeBytes_mdFresh (s : State) (a : Word) (bs : List Byte) :
    (placeBytes s a bs).mdFresh = s.mdFresh := rfl
@[simp] theorem placeBytes_cpcPrev (s : State) (a : Word) (bs : List Byte) :
    (placeBytes s a bs).cpcPrev = s.cpcPrev := rfl
@[simp] theorem placeBytes_lastMemory (s : State) (a : Word) (bs : List Byte) :
    (placeBytes s a bs).lastMemory = s.lastMemory := rfl
@[simp] theorem placeBytes_mtc0 (s : State) (a : Word) (bs : List Byte) :
    (placeBytes s a bs).mtc0 = s.mtc0 := rfl
@[simp] theorem placeBytes_cpc (s : State) (a : Word) (bs : List Byte) :
    (placeBytes s a bs).cpc = s.cpc := rfl
@[simp] theorem placeBytes_irq (s : State) (a : Word) (bs : List Byte) :
    (placeBytes s a bs).irq = s.irq := rfl
@[simp] theorem placeBytes_inputs (s : State) (a : Word) (bs : List Byte) :
    (placeBytes s a bs).inputs = s.inputs := rfl
@[simp] theorem placeBytes_cfg (s : State) (a : Word) (bs : List Byte) :
    (placeBytes s a bs).cfg = s.cfg := rfl
@[simp] theorem placeBytes_tick (s : State) (a : Word) (bs : List Byte) :
    (placeBytes s a bs).tick = s.tick := rfl

/-! ## State.deliver -/

@[simp] theorem State.deliver_hi (s : State) :
    (s.deliver).hi = s.hi := by
  unfold State.deliver; split <;> rfl
@[simp] theorem State.deliver_lo (s : State) :
    (s.deliver).lo = s.lo := by
  unfold State.deliver; split <;> rfl
@[simp] theorem State.deliver_hiDefined (s : State) :
    (s.deliver).hiDefined = s.hiDefined := by
  unfold State.deliver; split <;> rfl
@[simp] theorem State.deliver_loDefined (s : State) :
    (s.deliver).loDefined = s.loDefined := by
  unfold State.deliver; split <;> rfl
@[simp] theorem State.deliver_pc (s : State) :
    (s.deliver).pc = s.pc := by
  unfold State.deliver; split <;> rfl
@[simp] theorem State.deliver_npc (s : State) :
    (s.deliver).npc = s.npc := by
  unfold State.deliver; split <;> rfl
@[simp] theorem State.deliver_ds (s : State) :
    (s.deliver).ds = s.ds := by
  unfold State.deliver; split <;> rfl
@[simp] theorem State.deliver_sr (s : State) :
    (s.deliver).sr = s.sr := by
  unfold State.deliver; split <;> rfl
@[simp] theorem State.deliver_cause (s : State) :
    (s.deliver).cause = s.cause := by
  unfold State.deliver; split <;> rfl
@[simp] theorem State.deliver_epc (s : State) :
    (s.deliver).epc = s.epc := by
  unfold State.deliver; split <;> rfl
@[simp] theorem State.deliver_badVAddr (s : State) :
    (s.deliver).badVAddr = s.badVAddr := by
  unfold State.deliver; split <;> rfl
@[simp] theorem State.deliver_prId (s : State) :
    (s.deliver).prId = s.prId := by
  unfold State.deliver; split <;> rfl
@[simp] theorem State.deliver_bpc (s : State) :
    (s.deliver).bpc = s.bpc := by
  unfold State.deliver; split <;> rfl
@[simp] theorem State.deliver_bda (s : State) :
    (s.deliver).bda = s.bda := by
  unfold State.deliver; split <;> rfl
@[simp] theorem State.deliver_dcic (s : State) :
    (s.deliver).dcic = s.dcic := by
  unfold State.deliver; split <;> rfl
@[simp] theorem State.deliver_cp0Other (s : State) :
    (s.deliver).cp0Other = s.cp0Other := by
  unfold State.deliver; split <;> rfl
@[simp] theorem State.deliver_cpr (s : State) :
    (s.deliver).cpr = s.cpr := by
  unfold State.deliver; split <;> rfl
@[simp] theorem State.deliver_ccr (s : State) :
    (s.deliver).ccr = s.ccr := by
  unfold State.deliver; split <;> rfl
@[simp] theorem State.deliver_hist1 (s : State) :
    (s.deliver).hist1 = s.hist1 := by
  unfold State.deliver; split <;> rfl
@[simp] theorem State.deliver_hist2 (s : State) :
    (s.deliver).hist2 = s.hist2 := by
  unfold State.deliver; split <;> rfl
@[simp] theorem State.deliver_mdFresh (s : State) :
    (s.deliver).mdFresh = s.mdFresh := by
  unfold State.deliver; split <;> rfl
@[simp] theorem State.deliver_cpcPrev (s : State) :
    (s.deliver).cpcPrev = s.cpcPrev := by
  unfold State.deliver; split <;> rfl
@[simp] theorem State.deliver_lastMemory (s : State) :
    (s.deliver).lastMemory = s.lastMemory := by
  unfold State.deliver; split <;> rfl
@[simp] theorem State.deliver_mtc0 (s : State) :
    (s.deliver).mtc0 = s.mtc0 := by
  unfold State.deliver; split <;> rfl
@[simp] theorem State.deliver_stored (s : State) :
    (s.deliver).stored = s.stored := by
  unfold State.deliver; split <;> rfl
@[simp] theorem State.deliver_cpc (s : State) :
    (s.deliver).cpc = s.cpc := by
  unfold State.deliver; split <;> rfl
@[simp] theorem State.deliver_irq (s : State) :
    (s.deliver).irq = s.irq := by
  unfold State.deliver; split <;> rfl
@[simp] theorem State.deliver_inputs (s : State) :
    (s.deliver).inputs = s.inputs := by
  unfold State.deliver; split <;> rfl
@[simp] theorem State.deliver_image (s : State) :
    (s.deliver).image = s.image := by
  unfold State.deliver; split <;> rfl
@[simp] theorem State.deliver_mem (s : State) :
    (s.deliver).mem = s.mem := by
  unfold State.deliver; split <;> rfl
@[simp] theorem State.deliver_cfg (s : State) :
    (s.deliver).cfg = s.cfg := by
  unfold State.deliver; split <;> rfl
@[simp] theorem State.deliver_tick (s : State) :
    (s.deliver).tick = s.tick := by
  unfold State.deliver; split <;> rfl

/-! ## State.spoil -/

@[simp] theorem State.spoil_hi (s : State) (h l : Bool) (entry : Option HiLoRead) :
    (s.spoil h l entry).hi = s.hi := by
  unfold State.spoil; split
  · rfl
  · split <;> rfl
@[simp] theorem State.spoil_lo (s : State) (h l : Bool) (entry : Option HiLoRead) :
    (s.spoil h l entry).lo = s.lo := by
  unfold State.spoil; split
  · rfl
  · split <;> rfl
@[simp] theorem State.spoil_hiDefined (s : State) (h l : Bool) (entry : Option HiLoRead) :
    (s.spoil h l entry).hiDefined = s.hiDefined := by
  unfold State.spoil; split
  · rfl
  · split <;> rfl
@[simp] theorem State.spoil_loDefined (s : State) (h l : Bool) (entry : Option HiLoRead) :
    (s.spoil h l entry).loDefined = s.loDefined := by
  unfold State.spoil; split
  · rfl
  · split <;> rfl
@[simp] theorem State.spoil_pc (s : State) (h l : Bool) (entry : Option HiLoRead) :
    (s.spoil h l entry).pc = s.pc := by
  unfold State.spoil; split
  · rfl
  · split <;> rfl
@[simp] theorem State.spoil_npc (s : State) (h l : Bool) (entry : Option HiLoRead) :
    (s.spoil h l entry).npc = s.npc := by
  unfold State.spoil; split
  · rfl
  · split <;> rfl
@[simp] theorem State.spoil_ds (s : State) (h l : Bool) (entry : Option HiLoRead) :
    (s.spoil h l entry).ds = s.ds := by
  unfold State.spoil; split
  · rfl
  · split <;> rfl
@[simp] theorem State.spoil_sr (s : State) (h l : Bool) (entry : Option HiLoRead) :
    (s.spoil h l entry).sr = s.sr := by
  unfold State.spoil; split
  · rfl
  · split <;> rfl
@[simp] theorem State.spoil_cause (s : State) (h l : Bool) (entry : Option HiLoRead) :
    (s.spoil h l entry).cause = s.cause := by
  unfold State.spoil; split
  · rfl
  · split <;> rfl
@[simp] theorem State.spoil_epc (s : State) (h l : Bool) (entry : Option HiLoRead) :
    (s.spoil h l entry).epc = s.epc := by
  unfold State.spoil; split
  · rfl
  · split <;> rfl
@[simp] theorem State.spoil_badVAddr (s : State) (h l : Bool) (entry : Option HiLoRead) :
    (s.spoil h l entry).badVAddr = s.badVAddr := by
  unfold State.spoil; split
  · rfl
  · split <;> rfl
@[simp] theorem State.spoil_prId (s : State) (h l : Bool) (entry : Option HiLoRead) :
    (s.spoil h l entry).prId = s.prId := by
  unfold State.spoil; split
  · rfl
  · split <;> rfl
@[simp] theorem State.spoil_bpc (s : State) (h l : Bool) (entry : Option HiLoRead) :
    (s.spoil h l entry).bpc = s.bpc := by
  unfold State.spoil; split
  · rfl
  · split <;> rfl
@[simp] theorem State.spoil_bda (s : State) (h l : Bool) (entry : Option HiLoRead) :
    (s.spoil h l entry).bda = s.bda := by
  unfold State.spoil; split
  · rfl
  · split <;> rfl
@[simp] theorem State.spoil_dcic (s : State) (h l : Bool) (entry : Option HiLoRead) :
    (s.spoil h l entry).dcic = s.dcic := by
  unfold State.spoil; split
  · rfl
  · split <;> rfl
@[simp] theorem State.spoil_cp0Other (s : State) (h l : Bool) (entry : Option HiLoRead) :
    (s.spoil h l entry).cp0Other = s.cp0Other := by
  unfold State.spoil; split
  · rfl
  · split <;> rfl
@[simp] theorem State.spoil_cpr (s : State) (h l : Bool) (entry : Option HiLoRead) :
    (s.spoil h l entry).cpr = s.cpr := by
  unfold State.spoil; split
  · rfl
  · split <;> rfl
@[simp] theorem State.spoil_ccr (s : State) (h l : Bool) (entry : Option HiLoRead) :
    (s.spoil h l entry).ccr = s.ccr := by
  unfold State.spoil; split
  · rfl
  · split <;> rfl
@[simp] theorem State.spoil_ld (s : State) (h l : Bool) (entry : Option HiLoRead) :
    (s.spoil h l entry).ld = s.ld := by
  unfold State.spoil; split
  · rfl
  · split <;> rfl
@[simp] theorem State.spoil_stale (s : State) (h l : Bool) (entry : Option HiLoRead) :
    (s.spoil h l entry).stale = s.stale := by
  unfold State.spoil; split
  · rfl
  · split <;> rfl
@[simp] theorem State.spoil_hist1 (s : State) (h l : Bool) (entry : Option HiLoRead) :
    (s.spoil h l entry).hist1 = s.hist1 := by
  unfold State.spoil; split
  · rfl
  · split <;> rfl
@[simp] theorem State.spoil_hist2 (s : State) (h l : Bool) (entry : Option HiLoRead) :
    (s.spoil h l entry).hist2 = s.hist2 := by
  unfold State.spoil; split
  · rfl
  · split <;> rfl
@[simp] theorem State.spoil_mdFresh (s : State) (h l : Bool) (entry : Option HiLoRead) :
    (s.spoil h l entry).mdFresh = s.mdFresh := by
  unfold State.spoil; split
  · rfl
  · split <;> rfl
@[simp] theorem State.spoil_cpcPrev (s : State) (h l : Bool) (entry : Option HiLoRead) :
    (s.spoil h l entry).cpcPrev = s.cpcPrev := by
  unfold State.spoil; split
  · rfl
  · split <;> rfl
@[simp] theorem State.spoil_lastMemory (s : State) (h l : Bool) (entry : Option HiLoRead) :
    (s.spoil h l entry).lastMemory = s.lastMemory := by
  unfold State.spoil; split
  · rfl
  · split <;> rfl
@[simp] theorem State.spoil_mtc0 (s : State) (h l : Bool) (entry : Option HiLoRead) :
    (s.spoil h l entry).mtc0 = s.mtc0 := by
  unfold State.spoil; split
  · rfl
  · split <;> rfl
@[simp] theorem State.spoil_stored (s : State) (h l : Bool) (entry : Option HiLoRead) :
    (s.spoil h l entry).stored = s.stored := by
  unfold State.spoil; split
  · rfl
  · split <;> rfl
@[simp] theorem State.spoil_cpc (s : State) (h l : Bool) (entry : Option HiLoRead) :
    (s.spoil h l entry).cpc = s.cpc := by
  unfold State.spoil; split
  · rfl
  · split <;> rfl
@[simp] theorem State.spoil_irq (s : State) (h l : Bool) (entry : Option HiLoRead) :
    (s.spoil h l entry).irq = s.irq := by
  unfold State.spoil; split
  · rfl
  · split <;> rfl
@[simp] theorem State.spoil_inputs (s : State) (h l : Bool) (entry : Option HiLoRead) :
    (s.spoil h l entry).inputs = s.inputs := by
  unfold State.spoil; split
  · rfl
  · split <;> rfl
@[simp] theorem State.spoil_image (s : State) (h l : Bool) (entry : Option HiLoRead) :
    (s.spoil h l entry).image = s.image := by
  unfold State.spoil; split
  · rfl
  · split <;> rfl
@[simp] theorem State.spoil_mem (s : State) (h l : Bool) (entry : Option HiLoRead) :
    (s.spoil h l entry).mem = s.mem := by
  unfold State.spoil; split
  · rfl
  · split <;> rfl
@[simp] theorem State.spoil_cfg (s : State) (h l : Bool) (entry : Option HiLoRead) :
    (s.spoil h l entry).cfg = s.cfg := by
  unfold State.spoil; split
  · rfl
  · split <;> rfl
@[simp] theorem State.spoil_tick (s : State) (h l : Bool) (entry : Option HiLoRead) :
    (s.spoil h l entry).tick = s.tick := by
  unfold State.spoil; split
  · rfl
  · split <;> rfl

/-! ## State.beginStep -/

@[simp] theorem State.beginStep_gpr (s : State) :
    (s.beginStep).gpr = s.gpr := by
  unfold State.beginStep; split <;> rfl
@[simp] theorem State.beginStep_hi (s : State) :
    (s.beginStep).hi = s.hi := by
  unfold State.beginStep; split <;> rfl
@[simp] theorem State.beginStep_lo (s : State) :
    (s.beginStep).lo = s.lo := by
  unfold State.beginStep; split <;> rfl
@[simp] theorem State.beginStep_hiDefined (s : State) :
    (s.beginStep).hiDefined = s.hiDefined := by
  unfold State.beginStep; split <;> rfl
@[simp] theorem State.beginStep_loDefined (s : State) :
    (s.beginStep).loDefined = s.loDefined := by
  unfold State.beginStep; split <;> rfl
@[simp] theorem State.beginStep_pc (s : State) :
    (s.beginStep).pc = s.pc := by
  unfold State.beginStep; split <;> rfl
@[simp] theorem State.beginStep_npc (s : State) :
    (s.beginStep).npc = s.npc := by
  unfold State.beginStep; split <;> rfl
@[simp] theorem State.beginStep_ds (s : State) :
    (s.beginStep).ds = s.ds := by
  unfold State.beginStep; split <;> rfl
@[simp] theorem State.beginStep_sr (s : State) :
    (s.beginStep).sr = s.sr := by
  unfold State.beginStep; split <;> rfl
@[simp] theorem State.beginStep_cause (s : State) :
    (s.beginStep).cause = s.cause := by
  unfold State.beginStep; split <;> rfl
@[simp] theorem State.beginStep_epc (s : State) :
    (s.beginStep).epc = s.epc := by
  unfold State.beginStep; split <;> rfl
@[simp] theorem State.beginStep_badVAddr (s : State) :
    (s.beginStep).badVAddr = s.badVAddr := by
  unfold State.beginStep; split <;> rfl
@[simp] theorem State.beginStep_prId (s : State) :
    (s.beginStep).prId = s.prId := by
  unfold State.beginStep; split <;> rfl
@[simp] theorem State.beginStep_bpc (s : State) :
    (s.beginStep).bpc = s.bpc := by
  unfold State.beginStep; split <;> rfl
@[simp] theorem State.beginStep_bda (s : State) :
    (s.beginStep).bda = s.bda := by
  unfold State.beginStep; split <;> rfl
@[simp] theorem State.beginStep_dcic (s : State) :
    (s.beginStep).dcic = s.dcic := by
  unfold State.beginStep; split <;> rfl
@[simp] theorem State.beginStep_cp0Other (s : State) :
    (s.beginStep).cp0Other = s.cp0Other := by
  unfold State.beginStep; split <;> rfl
@[simp] theorem State.beginStep_cpr (s : State) :
    (s.beginStep).cpr = s.cpr := by
  unfold State.beginStep; split <;> rfl
@[simp] theorem State.beginStep_ccr (s : State) :
    (s.beginStep).ccr = s.ccr := by
  unfold State.beginStep; split <;> rfl
@[simp] theorem State.beginStep_ld (s : State) :
    (s.beginStep).ld = s.ld := by
  unfold State.beginStep; split <;> rfl
@[simp] theorem State.beginStep_stale (s : State) :
    (s.beginStep).stale = s.stale := by
  unfold State.beginStep; split <;> rfl
@[simp] theorem State.beginStep_hist1 (s : State) :
    (s.beginStep).hist1 = s.hist1 := by
  unfold State.beginStep; split <;> rfl
@[simp] theorem State.beginStep_hist2 (s : State) :
    (s.beginStep).hist2 = s.hist2 := by
  unfold State.beginStep; split <;> rfl
@[simp] theorem State.beginStep_mdFresh (s : State) :
    (s.beginStep).mdFresh = s.mdFresh := by
  unfold State.beginStep; split <;> rfl
@[simp] theorem State.beginStep_cpcPrev (s : State) :
    (s.beginStep).cpcPrev = s.cpcPrev := by
  unfold State.beginStep; split <;> rfl
@[simp] theorem State.beginStep_lastMemory (s : State) :
    (s.beginStep).lastMemory = s.lastMemory := by
  unfold State.beginStep; split <;> rfl
@[simp] theorem State.beginStep_mtc0 (s : State) :
    (s.beginStep).mtc0 = s.mtc0 := by
  unfold State.beginStep; split <;> rfl
@[simp] theorem State.beginStep_stored (s : State) :
    (s.beginStep).stored = s.stored := by
  unfold State.beginStep; split <;> rfl
@[simp] theorem State.beginStep_image (s : State) :
    (s.beginStep).image = s.image := by
  unfold State.beginStep; split <;> rfl
@[simp] theorem State.beginStep_mem (s : State) :
    (s.beginStep).mem = s.mem := by
  unfold State.beginStep; split <;> rfl
@[simp] theorem State.beginStep_cfg (s : State) :
    (s.beginStep).cfg = s.cfg := by
  unfold State.beginStep; split <;> rfl

/-! ## State.cp0Write -/

@[simp] theorem State.cp0Write_gpr (s : State) (r : Reg) (v : Word) :
    (s.cp0Write r v).gpr = s.gpr := by
  unfold State.cp0Write; repeat (first | rfl | split)
@[simp] theorem State.cp0Write_hi (s : State) (r : Reg) (v : Word) :
    (s.cp0Write r v).hi = s.hi := by
  unfold State.cp0Write; repeat (first | rfl | split)
@[simp] theorem State.cp0Write_lo (s : State) (r : Reg) (v : Word) :
    (s.cp0Write r v).lo = s.lo := by
  unfold State.cp0Write; repeat (first | rfl | split)
@[simp] theorem State.cp0Write_hiDefined (s : State) (r : Reg) (v : Word) :
    (s.cp0Write r v).hiDefined = s.hiDefined := by
  unfold State.cp0Write; repeat (first | rfl | split)
@[simp] theorem State.cp0Write_loDefined (s : State) (r : Reg) (v : Word) :
    (s.cp0Write r v).loDefined = s.loDefined := by
  unfold State.cp0Write; repeat (first | rfl | split)
@[simp] theorem State.cp0Write_pc (s : State) (r : Reg) (v : Word) :
    (s.cp0Write r v).pc = s.pc := by
  unfold State.cp0Write; repeat (first | rfl | split)
@[simp] theorem State.cp0Write_npc (s : State) (r : Reg) (v : Word) :
    (s.cp0Write r v).npc = s.npc := by
  unfold State.cp0Write; repeat (first | rfl | split)
@[simp] theorem State.cp0Write_ds (s : State) (r : Reg) (v : Word) :
    (s.cp0Write r v).ds = s.ds := by
  unfold State.cp0Write; repeat (first | rfl | split)
@[simp] theorem State.cp0Write_prId (s : State) (r : Reg) (v : Word) :
    (s.cp0Write r v).prId = s.prId := by
  unfold State.cp0Write; repeat (first | rfl | split)
@[simp] theorem State.cp0Write_cpr (s : State) (r : Reg) (v : Word) :
    (s.cp0Write r v).cpr = s.cpr := by
  unfold State.cp0Write; repeat (first | rfl | split)
@[simp] theorem State.cp0Write_ccr (s : State) (r : Reg) (v : Word) :
    (s.cp0Write r v).ccr = s.ccr := by
  unfold State.cp0Write; repeat (first | rfl | split)
@[simp] theorem State.cp0Write_ld (s : State) (r : Reg) (v : Word) :
    (s.cp0Write r v).ld = s.ld := by
  unfold State.cp0Write; repeat (first | rfl | split)
@[simp] theorem State.cp0Write_stale (s : State) (r : Reg) (v : Word) :
    (s.cp0Write r v).stale = s.stale := by
  unfold State.cp0Write; repeat (first | rfl | split)
@[simp] theorem State.cp0Write_hist1 (s : State) (r : Reg) (v : Word) :
    (s.cp0Write r v).hist1 = s.hist1 := by
  unfold State.cp0Write; repeat (first | rfl | split)
@[simp] theorem State.cp0Write_hist2 (s : State) (r : Reg) (v : Word) :
    (s.cp0Write r v).hist2 = s.hist2 := by
  unfold State.cp0Write; repeat (first | rfl | split)
@[simp] theorem State.cp0Write_mdFresh (s : State) (r : Reg) (v : Word) :
    (s.cp0Write r v).mdFresh = s.mdFresh := by
  unfold State.cp0Write; repeat (first | rfl | split)
@[simp] theorem State.cp0Write_cpcPrev (s : State) (r : Reg) (v : Word) :
    (s.cp0Write r v).cpcPrev = s.cpcPrev := by
  unfold State.cp0Write; repeat (first | rfl | split)
@[simp] theorem State.cp0Write_lastMemory (s : State) (r : Reg) (v : Word) :
    (s.cp0Write r v).lastMemory = s.lastMemory := by
  unfold State.cp0Write; repeat (first | rfl | split)
@[simp] theorem State.cp0Write_mtc0 (s : State) (r : Reg) (v : Word) :
    (s.cp0Write r v).mtc0 = s.mtc0 := by
  unfold State.cp0Write; repeat (first | rfl | split)
@[simp] theorem State.cp0Write_stored (s : State) (r : Reg) (v : Word) :
    (s.cp0Write r v).stored = s.stored := by
  unfold State.cp0Write; repeat (first | rfl | split)
@[simp] theorem State.cp0Write_cpc (s : State) (r : Reg) (v : Word) :
    (s.cp0Write r v).cpc = s.cpc := by
  unfold State.cp0Write; repeat (first | rfl | split)
@[simp] theorem State.cp0Write_irq (s : State) (r : Reg) (v : Word) :
    (s.cp0Write r v).irq = s.irq := by
  unfold State.cp0Write; repeat (first | rfl | split)
@[simp] theorem State.cp0Write_inputs (s : State) (r : Reg) (v : Word) :
    (s.cp0Write r v).inputs = s.inputs := by
  unfold State.cp0Write; repeat (first | rfl | split)
@[simp] theorem State.cp0Write_image (s : State) (r : Reg) (v : Word) :
    (s.cp0Write r v).image = s.image := by
  unfold State.cp0Write; repeat (first | rfl | split)
@[simp] theorem State.cp0Write_mem (s : State) (r : Reg) (v : Word) :
    (s.cp0Write r v).mem = s.mem := by
  unfold State.cp0Write; repeat (first | rfl | split)
@[simp] theorem State.cp0Write_cfg (s : State) (r : Reg) (v : Word) :
    (s.cp0Write r v).cfg = s.cfg := by
  unfold State.cp0Write; repeat (first | rfl | split)
@[simp] theorem State.cp0Write_tick (s : State) (r : Reg) (v : Word) :
    (s.cp0Write r v).tick = s.tick := by
  unfold State.cp0Write; repeat (first | rfl | split)

end Sys2Proof.Machine
end

