-- ==== Sys2Proof/Laws/Ops.lean ====
section
/-! SUPPORT. What each shared operation of Machine/Operands.lean and Machine/Ops.lean can do, said once: the lemmas that a
proof cites in place of the operation's text. -/

namespace Sys2Proof.Machine

/-! ## General registers and operands -/

@[simp] theorem State.reg_zero (s : State) : s.reg 0#5 = 0#32 := rfl

theorem State.reg_setReg (s : State) (r q : Reg) (v : Word) :
    (s.setReg r v).reg q = if q = r then (if r = 0 then 0 else v) else s.reg q := by
  unfold State.reg
  by_cases hq : q = 0
  · subst hq
    by_cases hr : (0 : Reg) = r
    · rw [if_pos rfl, if_pos hr, if_pos hr.symm]
    · rw [if_pos rfl, if_neg hr, if_pos rfl]
  · rw [if_neg hq, if_neg hq]
    by_cases hqr : q = r
    · subst hqr
      rw [if_pos rfl, if_neg hq]
      simp only [State.setReg, hq, if_false, Vector.getElem_set_self]
    · have hn : r.toNat ≠ q.toNat := fun h => hqr (BitVec.eq_of_toNat_eq h.symm)
      rw [if_neg hqr]
      by_cases hr : r = 0
      · simp only [State.setReg, hr, if_true]
      · simp only [State.setReg, hr, if_false]
        exact Vector.getElem_set_ne _ _ hn

/-- Reading a register depends on the register file alone. -/
theorem State.reg_congr {s t : State} (h : t.gpr = s.gpr) (q : Reg) : t.reg q = s.reg q := by
  unfold State.reg; rw [h]

/-- A free value depends on the number of the step alone. -/
theorem State.free_congr {s t : State} (h : t.tick = s.tick) (u : FreeUse) : t.free u = s.free u := by
  unfold State.free; rw [h]

theorem State.operand_of_fresh (s : State) (u : FreeUse) (r : Reg) (h : s.stale ≠ some r) : s.operand u r = s.reg r := by
  unfold State.operand; simp [h]

theorem State.operand_of_stale (s : State) (u : FreeUse) (r : Reg) (h : s.stale = some r) (h0 : r ≠ 0) :
    s.operand u r = s.free u := by
  unfold State.operand; rw [if_pos ⟨h, h0⟩]

@[simp] theorem State.operand_zero (s : State) (u : FreeUse) : s.operand u 0#5 = 0#32 := by
  unfold State.operand; rw [if_neg (fun h => h.2 rfl)]; rfl

theorem State.operand_congr {s t : State} (hg : t.gpr = s.gpr) (hs : t.stale = s.stale) (ht : t.tick = s.tick)
    (u : FreeUse) (r : Reg) : t.operand u r = s.operand u r := by
  unfold State.operand; rw [hs, State.reg_congr hg, State.free_congr ht]

/-- A bit of Status that the instruction before has not changed is the register's bit. -/
theorem State.statusBit_eq (s : State) (k : Nat)
    (h : s.mtc0 = none ∨ ∃ r old, s.mtc0 = some (r, old) ∧ (s.cp0Register r ≠ .status ∨ old.getLsbD k = s.sr.getLsbD k)) :
    s.statusBit k = s.sr.getLsbD k := by
  unfold State.statusBit
  rcases h with h | ⟨r, old, h, h' | h'⟩ <;> rw [h]
  · exact if_neg fun x => h' x.1
  · exact if_neg fun x => x.2 h'

theorem State.cell_congr {s t : State} (hi : t.image = s.image) (hm : t.mem = s.mem) (a : Nat) : t.cell a = s.cell a := by
  unfold State.cell State.inImage; rw [hm, hi]

theorem State.byteAt_congr {s t : State} (hi : t.image = s.image) (hm : t.mem = s.mem) (ht : t.tick = s.tick) (a : Word) :
    t.byteAt a = s.byteAt a := by
  unfold State.byteAt; rw [State.cell_congr hi hm, State.free_congr ht]

/-- Which register a number names depends on the parameters alone. -/
theorem State.cp0Register_congr {s t : State} (h : t.cfg = s.cfg) (r : Reg) : t.cp0Register r = s.cp0Register r := by
  unfold State.cp0Register; rw [h]

/-! ## Delivery of the pending write, and the beginning of a step -/

theorem State.deliver_none {s : State} (h : s.ld = none) : s.deliver = { s with stale := none } := by
  unfold State.deliver; rw [h]

theorem State.deliver_some {s : State} {r : Reg} {v : Word} (h : s.ld = some (r, v)) :
    s.deliver = { s.setReg r v with ld := none, stale := some r } := by
  unfold State.deliver; rw [h]

theorem State.deliver_ld (s : State) : s.deliver.ld = none := by
  unfold State.deliver; split <;> simp_all

@[simp] theorem State.executing_ld (s : State) : s.executing.ld = none := State.deliver_ld _

/-! ## Addresses -/

theorem segmentHolds_iff (g : Segment) (a : Word) : segmentHolds g a = true ↔ InSegment g a := by
  unfold segmentHolds InSegment
  simp only [Bool.and_eq_true, decide_eq_true_eq, BitVec.extractLsb'_toNat, Nat.shiftRight_eq_div_pow]
  have := a.isLt
  omega

/-- Addresses of kseg0 and kseg1 go to their low 29 bits, every other address to itself. -/
theorem physical_mapped {segments : Segments} {a : Word} (h : InSegment segments.kseg0 a ∨ InSegment segments.kseg1 a) :
    (physical segments a).toNat = a.toNat % 2 ^ 29 := by
  rw [← segmentHolds_iff, ← segmentHolds_iff] at h
  have hm : ((a.extractLsb' 0 29).setWidth 32).toNat = a.toNat % 2 ^ 29 := by
    simp [BitVec.extractLsb'_toNat]
    omega
  unfold physical segmentOf
  by_cases h0 : segmentHolds segments.kseg0 a = true
  · rw [if_pos h0]; exact hm
  · rw [if_neg h0, if_pos (h.resolve_left h0)]; exact hm

theorem physical_unmapped {segments : Segments} {a : Word}
    (h : ¬ (InSegment segments.kseg0 a ∨ InSegment segments.kseg1 a)) : physical segments a = a := by
  rw [← segmentHolds_iff, ← segmentHolds_iff, not_or] at h
  unfold physical segmentOf
  rw [if_neg h.1, if_neg h.2]
  split_ifs <;> rfl

theorem physical_low (segments : Segments) (a : Word) (h : a.toNat < 2 ^ 31) : (physical segments a).toNat < 2 ^ 31 := by
  by_cases c : InSegment segments.kseg0 a ∨ InSegment segments.kseg1 a
  · rw [physical_mapped c]; omega
  · rwa [physical_unmapped c]

theorem getLsbD_31 (a : Word) : a.getLsbD 31 = decide (2 ^ 31 ≤ a.toNat) := by
  rw [← BitVec.msb_eq_getLsbD_last, BitVec.msb_eq_decide]

/-- An access is translated exactly when it passes every check. -/
theorem State.translate_ok (s : State) (kind : AccessKind) (n : Nat) (a p : Word) :
    s.translate kind n a = .ok p ↔ Accessible kind n a s ∧ p = physical s.cfg.segments a := by
  unfold State.translate Accessible
  have h2 : (s.userMode && a.getLsbD 31) = true ↔ s.userMode = true ∧ 2 ^ 31 ≤ a.toNat := by
    rw [getLsbD_31, Bool.and_eq_true, decide_eq_true_eq]
  rw [← h2]
  by_cases h1 : a.toNat % n = 0
  · rw [if_neg (not_not.mpr h1)]
    cases s.userMode && a.getLsbD 31
    · cases h3 : busRefuses s.cfg (physical s.cfg.segments a) kind
      · simp [h1]; exact eq_comm
      · simp
    · simp
  · rw [if_pos h1]; simp [h1]

theorem State.translate_addressError (s : State) (kind : AccessKind) (n : Nat) (a : Word)
    (h : a.toNat % n ≠ 0 ∨ (s.userMode = true ∧ 2 ^ 31 ≤ a.toNat)) :
    s.translate kind n a = .error (addressError kind a) := by
  unfold State.translate
  rcases h with h | h
  · rw [if_pos h]
  · split
    · rfl
    · rw [getLsbD_31, if_pos (by rw [Bool.and_eq_true, decide_eq_true_eq]; exact h)]

theorem State.translate_busError (s : State) (kind : AccessKind) (n : Nat) (a : Word) (h1 : a.toNat % n = 0)
    (h2 : ¬ (s.userMode = true ∧ 2 ^ 31 ≤ a.toNat)) (h3 : busRefuses s.cfg (physical s.cfg.segments a) kind = true) :
    s.translate kind n a = .error (busError kind) := by
  unfold State.translate
  rw [if_neg (not_not.mpr h1), getLsbD_31, if_neg (by rw [Bool.and_eq_true, decide_eq_true_eq]; exact h2), if_pos h3]

/-- Inside one aligned word the mapping goes on byte by byte. -/
theorem physical_add (segments : Segments) (a w : Word) (k : Nat) (hw : w.toNat % 4 = 0) (hk : k < 4)
    (ha : a = w + BitVec.ofNat 32 k) : physical segments a = physical segments w + BitVec.ofNat 32 k := by
  have := w.isLt
  have hq : a.toNat = w.toNat + k := by rw [ha, toNat_add_ofNat]; omega
  have hs : ∀ g : Segment, InSegment g a ↔ InSegment g w := by intro g; unfold InSegment; omega
  by_cases c : InSegment segments.kseg0 w ∨ InSegment segments.kseg1 w
  · have ca := c
    rw [← hs, ← hs] at ca
    apply BitVec.eq_of_toNat_eq
    rw [toNat_add_ofNat, physical_mapped c, physical_mapped ca, hq]
    omega
  · have ca := c
    rw [← hs, ← hs] at ca
    rw [physical_unmapped c, physical_unmapped ca, ha]

theorem signExtend_toInt (imm : BitVec 16) : (signExtend imm).toInt = imm.toInt :=
  BitVec.toInt_signExtend_of_le (by omega)

theorem signExtend_eq (imm : BitVec 16) : signExtend imm = BitVec.ofInt 32 imm.toInt := by
  rw [← signExtend_toInt, BitVec.ofInt_toInt]

/-- The effective address a few bytes further on. -/
theorem State.effectiveAddress_add (s : State) (base : Reg) (offset : BitVec 16) (k : Nat)
    (h : offset.toInt + k < 2 ^ 15) :
    s.effectiveAddress base (offset + BitVec.ofNat 16 k) = s.effectiveAddress base offset + BitVec.ofNat 32 k := by
  have hk : (offset + BitVec.ofNat 16 k).toInt = offset.toInt + k := by
    have := BitVec.le_toInt (x := offset)
    rw [← BitVec.ofInt_natCast, BitVec.toInt_add, BitVec.toInt_ofInt, Int.add_bmod_bmod, Int.bmod_def]
    omega
  unfold State.effectiveAddress
  rw [signExtend_eq, signExtend_eq, hk, BitVec.ofInt_add, BitVec.ofInt_natCast, BitVec.add_assoc]

/-- Whether an access passes depends on the mode and the parameters alone. -/
theorem Accessible.congr {s t : State} {kind : AccessKind} {n : Nat} {a : Word} (hu : t.userMode = s.userMode)
    (hc : t.cfg = s.cfg) (h : Accessible kind n a s) : Accessible kind n a t := by
  unfold Accessible at *; rw [hu, hc]; exact h

/-! ## Taking an exception -/

theorem putBits_getLsbD {n : Nat} (v : Word) (low : Nat) (x : BitVec n) (k : Nat) (hk : k < 32) :
    (putBits v low x).getLsbD k = if low ≤ k ∧ k < low + n then x.getLsbD (k - low) else v.getLsbD k := by
  unfold putBits
  simp only [BitVec.getLsbD_or, BitVec.getLsbD_and, BitVec.getLsbD_not, BitVec.getLsbD_shiftLeft, BitVec.getLsbD_setWidth,
    BitVec.getLsbD_allOnes, hk, decide_true, Bool.true_and]
  have h32 : k - low < 32 := by omega
  by_cases h1 : k < low
  · simp [h1, show ¬ low ≤ k by omega]
  · by_cases h2 : k < low + n
    · simp [h1, h32, show low ≤ k by omega, show k < low + n from h2, show k - low < n by omega]
    · simp [h1, h2, show ¬ k - low < n by omega, BitVec.getLsbD_of_ge x (k - low) (by omega)]

theorem exceptionEntry_eq (trap : Trap) (e : Exc) : exceptionEntry trap e = entryFor trap e := by
  cases e <;> rfl

theorem causeAfter_getLsbD (trap : Trap) (cause : Word) (d : Bool) (e : Exc) (k : Nat) (hk : k < 32) :
    (causeAfter trap cause d e).getLsbD k = causeBitAfter trap cause d e k := by
  unfold causeAfter causeBitAfter
  simp only
  rw [putBits_getLsbD _ _ _ _ hk, exceptionEntry_eq]
  by_cases h : k = trap.cause.bd
  · rw [if_pos h, if_pos (by omega), h, Nat.sub_self]; simp
  · rw [if_neg h, if_neg (by omega)]
    cases e <;> simp only [unitFor, ne_eq, not_true_eq_false, and_false, if_false, reduceCtorEq, not_false_eq_true,
      and_true, Option.getD_some, putBits_getLsbD _ _ _ _ hk]

theorem pushMode_getLsbD (sr : Word) (k : Nat) :
    (pushMode sr).getLsbD k = if k < 2 then false else if k < 6 then sr.getLsbD (k - 2) else sr.getLsbD k := by
  unfold pushMode
  change @BitVec.getLsbD (26 + 4 + 2) _ _ = _
  simp only [BitVec.getLsbD_append, BitVec.getLsbD_extractLsb', BitVec.getLsbD_zero]
  grind

theorem State.poppedStatus_getLsbD (s : State) (k : Nat) :
    s.poppedStatus.getLsbD k = if k < 4 then s.statusBit (k + 2) else s.sr.getLsbD k := by
  unfold State.poppedStatus
  change @BitVec.getLsbD (28 + 1 + 1 + 1 + 1) _ _ = _
  simp only [BitVec.getLsbD_append, BitVec.getLsbD_extractLsb', BitVec.getLsbD_ofBool]
  by_cases h : k < 4
  · obtain rfl | rfl | rfl | rfl : k = 0 ∨ k = 1 ∨ k = 2 ∨ k = 3 := by omega
    all_goals simp
  · grind

/-- Trap entry, field by field. -/
theorem State.trapEntry_entered (s : State) (e : Exc) : TrapEntered e s (s.trapEntry e) where
  epc := rfl
  cause := fun k hk => causeAfter_getLsbD _ _ _ _ k hk
  badVAddr := by
    rw [State.trapEntry_badVAddr]
    cases e <;> rfl
  current := by
    rw [State.trapEntry_sr]
    constructor <;> rw [pushMode_getLsbD] <;> rfl
  pushed := by
    intro k hk
    rw [State.trapEntry_sr, pushMode_getLsbD]
    grind
  otherStatus := by
    intro k hk
    rw [State.trapEntry_sr, pushMode_getLsbD]
    grind
  vector := by
    rw [← exceptionEntry_eq]
    exact ⟨rfl, rfl, rfl⟩
  settled := rfl
  regs := fun _ => rfl
  hiLo := ⟨⟨rfl, rfl, rfl, rfl⟩, rfl⟩
  cp0 := ⟨rfl, rfl, rfl, rfl, rfl⟩
  cops := ⟨rfl, rfl⟩
  pending := ⟨rfl, rfl⟩
  memory := ⟨fun _ => rfl, fun _ => rfl, rfl, rfl⟩
  inputs := ⟨⟨rfl, rfl, rfl, rfl, rfl⟩, rfl⟩

theorem takeException_takes (e : Exc) (s : State) : Takes (takeException e s) e s := by
  unfold takeException
  constructor
  · intro h; rw [h]; exact ⟨_, rfl, State.trapEntry_entered s e⟩
  · intro h; rw [h]; rfl

/-- Trap entry does not look at the histories, so an instruction that raises an exception enters the trap from its own
state. -/
theorem raise_takes (reads : List Reg) (e : Exc) (s : State) : Takes (raise reads e s) e s := by
  unfold raise takeException
  constructor
  · intro h
    refine ⟨_, by rw [State.abandoned_cfg, h], ?_⟩
    have := State.trapEntry_entered (s.abandoned reads) e
    exact { this with }
  · intro h; rw [State.abandoned_cfg, h]; rfl

theorem raise_next {reads : List Reg} {e : Exc} {s t : State} (h : raise reads e s = .next t) :
    t = (s.abandoned reads).trapEntry e := by
  unfold raise takeException at h
  split at h
  · injection h with h; exact h.symm
  · exact absurd h (by simp)

/-! ## The end of a step -/

theorem SameMemory.of_mem {s t : State} (hi : t.image = s.image) (hm : t.mem = s.mem) (ht : t.tick = s.tick)
    (hs : t.stored = s.stored) : SameMemory s t :=
  ⟨State.byteAt_congr hi hm ht, fun _ => by rw [hm], hs, hi⟩

/-- An instruction that completes with a register written, and is no jump or branch. -/
theorem writesReg_of_completeWith {i : Instr} {d : Reg} {v : Word} {s : State} (h : exec i s = completeWith i d v s)
    (hb : isBranch i = false) : WritesReg i d v s := by
  refine ⟨_, h, ?_, fun q hq => ?_, ⟨rfl, rfl, rfl, rfl⟩, rfl, ⟨rfl, rfl, rfl, rfl, rfl, rfl, rfl, rfl, rfl⟩, ⟨rfl, rfl⟩,
    ⟨rfl, rfl⟩, .of_mem rfl rfl rfl rfl, ⟨rfl, rfl, rfl, rfl, rfl⟩, rfl, rfl, hb⟩
  · exact (State.reg_setReg s d d v).trans (if_pos rfl)
  · exact (State.reg_setReg s d q v).trans (if_neg hq)

/-- An instruction that completes with a delayed register write pending, and is no jump or branch. -/
theorem loadsReg_of_complete {i : Instr} {d : Reg} {v : Word} {s : State} (h : exec i s = complete i (s.delayReg d v))
    (hb : isBranch i = false) : LoadsReg i d v s :=
  ⟨_, h, rfl, rfl, fun _ => rfl, ⟨rfl, rfl, rfl, rfl⟩, rfl, ⟨rfl, rfl, rfl, rfl, rfl, rfl, rfl, rfl, rfl⟩, ⟨rfl, rfl⟩,
    .of_mem rfl rfl rfl rfl, ⟨rfl, rfl, rfl, rfl, rfl⟩, rfl, rfl, hb⟩

/-- An instruction that completes with bytes stored, and is no jump or branch. -/
theorem storesBytes_of_complete {i : Instr} {p : Word} {bs : List Byte} {s : State}
    (h : exec i s = complete i (s.storeBytes p bs)) (hb : isBranch i = false) (hl : bs.length ≤ 2 ^ 32) :
    StoresBytes i p bs s := by
  refine ⟨_, h, fun k b hk hi => ?_, fun a ha => ?_, rfl, fun a => ?_, fun _ => rfl, ⟨rfl, rfl, rfl, rfl⟩, rfl,
    ⟨rfl, rfl, rfl, rfl, rfl, rfl, rfl, rfl, rfl⟩, ⟨rfl, rfl⟩, ⟨rfl, rfl⟩, ⟨rfl, rfl, rfl, rfl, rfl⟩, rfl, rfl, hb⟩
  · obtain ⟨hk', rfl⟩ := List.getElem?_eq_some_iff.mp hk
    exact State.byteAt_of_cell (State.cell_storeBytes_at s p bs hl k hk' hi)
  · have ha' : (∀ k < bs.length, a.toNat ≠ (p + BitVec.ofNat 32 k).toNat) ∨ s.inImage a.toNat = false :=
      ha.imp_left fun ha k hk e => ha k hk (BitVec.eq_of_toNat_eq e)
    refine ⟨?_, writeBytes_read_other s.image s.mem p bs a.toNat ha'⟩
    show ((s.storeBytes p bs).cell a.toNat).getD _ = _
    rw [State.cell_storeBytes_other s p bs a.toNat ha']
    rfl
  · exact mem_markStored s.stored p bs.length a

/-- A jump or branch outside a delay slot, with or without a link. -/
theorem transfers_of_transfer {i : Instr} {target : Option Word} {s : State} (h : exec i s = transfer i target s)
    (hb : isBranch i = true) (hd : s.ds = false) : Transfers i target none s := by
  refine ⟨s.completed i target, ?_, rfl, rfl, hb, fun _ => rfl, ⟨rfl, rfl, rfl, rfl⟩, rfl,
    ⟨rfl, rfl, rfl, rfl, rfl, rfl, rfl, rfl, rfl⟩, ⟨rfl, rfl⟩, ⟨rfl, rfl⟩, .of_mem rfl rfl rfl rfl, ⟨rfl, rfl, rfl, rfl, rfl⟩⟩
  rw [h]; simp [transfer, hd]

theorem transfers_of_link {i : Instr} {target : Option Word} {d : Reg} {v : Word} {s : State}
    (h : exec i s = transfer i target (s.setReg d v)) (hb : isBranch i = true) (hd : s.ds = false) :
    Transfers i target (some (d, v)) s := by
  refine ⟨(s.setReg d v).completed i target, ?_, rfl, rfl, hb, ⟨?_, fun q hq => ?_⟩, ⟨rfl, rfl, rfl, rfl⟩, rfl,
    ⟨rfl, rfl, rfl, rfl, rfl, rfl, rfl, rfl, rfl⟩, ⟨rfl, rfl⟩, ⟨rfl, rfl⟩, .of_mem rfl rfl rfl rfl, ⟨rfl, rfl, rfl, rfl, rfl⟩⟩
  · rw [h]; simp [transfer, hd]
  · exact (State.reg_setReg s d d v).trans (if_pos rfl)
  · exact (State.reg_setReg s d q v).trans (if_neg hq)

theorem transfer_in_slot (i : Instr) (target : Option Word) {s : State} (h : s.ds = true) :
    transfer i target s = .fault .branchInDelaySlot := by
  simp [transfer, h]

/-- The destination of a branch as a number. -/
theorem State.branchTarget_eq (s : State) (offset : BitVec 16) :
    s.branchTarget offset = BitVec.ofInt 32 (s.pc.toNat + 4 + 4 * offset.toInt) := by
  have h : (offset ++ 0#2).signExtend 32 = BitVec.ofInt 32 (4 * offset.toInt) := by
    apply BitVec.eq_of_toInt_eq
    rw [BitVec.toInt_signExtend, BitVec.toInt_ofInt, BitVec.toInt_append]
    simp [Int.bmod]
    have := BitVec.toInt_lt (x := offset); have := BitVec.le_toInt (x := offset)
    omega
  unfold State.branchTarget State.slotAddress
  rw [h, BitVec.ofInt_add, show (s.pc.toNat : Int) + 4 = ((s.pc.toNat + 4 : Nat) : Int) by simp, BitVec.ofInt_natCast]
  congr 1

/-! ## HI and LO -/

theorem spoils_eq (writesHi writesLo : Bool) (entry : Option HiLoRead) :
    spoils writesHi writesLo entry = true ↔
      ∃ e, entry = some e ∧ ((writesHi = true ∧ e.fromHi = true) ∨ (writesLo = true ∧ e.fromHi = false)) := by
  unfold spoils
  cases entry with
  | none => simp
  | some e => cases h : e.fromHi <;> simp [h]

/-- What the spacing rule does to one register. -/
theorem State.reg_spoil (s : State) (writesHi writesLo : Bool) (entry : Option HiLoRead) (q : Reg) :
    (s.spoil writesHi writesLo entry).reg q =
      if spoils writesHi writesLo entry = true ∧ entry.map HiLoRead.rd = some q then
        (if q = 0 then 0 else s.free (.hiLoResult q))
      else s.reg q := by
  unfold State.spoil
  cases entry with
  | none => simp
  | some e =>
    by_cases h : spoils writesHi writesLo (some e) = true
    · simp only [h, if_true, State.reg_setReg, Option.map_some, Option.some.injEq, true_and]
      by_cases hq : q = e.rd
      · subst hq; simp
      · simp [hq, Ne.symm hq]
    · simp [h]

/-- The spacing rule refuses exactly where a result that has been used would have to be taken back. -/
theorem State.hiLoHazard_none (s : State) (writesHi writesLo : Bool) :
    s.hiLoHazard writesHi writesLo = none ↔
      (writesHi = true ∧ ConsumedRead true s) ∨ (writesLo = true ∧ ConsumedRead false s) := by
  unfold State.hiLoHazard ConsumedRead
  cases h2 : s.hist2 with
  | none => simp [spoils]
  | some e => cases hf : e.fromHi <;> cases hc : e.consumed <;> simp [spoils, hf, hc]

/-- Where it does not refuse, the spacing rule changes the registers of recent reads, and the histories, and no more. -/
theorem State.hiLoHazard_some {s t : State} {writesHi writesLo : Bool} (h : s.hiLoHazard writesHi writesLo = some t) :
    (∃ gpr hist2, t = { s with
      gpr := gpr
      hist1 := if spoils writesHi writesLo s.hist1 then none else s.hist1
      hist2 := hist2 }) ∧
    SameRegsButRecent writesHi writesLo s t ∧
    (∀ q, q ≠ 0 → (writesHi = true ∧ RecentRead true q s) ∨ (writesLo = true ∧ RecentRead false q s) →
      t.reg q = s.free (.hiLoResult q)) := by
  unfold State.hiLoHazard at h
  split at h
  · cases h
  · injection h with h
    have hr : ∀ q, t.reg q = ((s.spoil writesHi writesLo s.hist2).spoil writesHi writesLo s.hist1).reg q :=
      fun q => State.reg_congr (by rw [← h]) q
    have hrec : ∀ q, ((writesHi = true ∧ RecentRead true q s) ∨ (writesLo = true ∧ RecentRead false q s)) ↔
        (spoils writesHi writesLo s.hist1 = true ∧ s.hist1.map HiLoRead.rd = some q) ∨
        (spoils writesHi writesLo s.hist2 = true ∧ s.hist2.map HiLoRead.rd = some q) := by
      intro q
      simp only [spoils_eq, RecentRead, Option.map_eq_some_iff]
      grind
    refine ⟨⟨((s.spoil writesHi writesLo s.hist2).spoil writesHi writesLo s.hist1).gpr,
      if spoils writesHi writesLo s.hist2 then none else s.hist2, ?_⟩, ?_, ?_⟩
    · rw [← h]
      simp only [State.spoil_hi, State.spoil_lo, State.spoil_hiDefined, State.spoil_loDefined, State.spoil_pc,
        State.spoil_npc, State.spoil_ds, State.spoil_sr, State.spoil_cause, State.spoil_epc, State.spoil_badVAddr,
        State.spoil_prId, State.spoil_bpc, State.spoil_bda, State.spoil_dcic, State.spoil_cp0Other, State.spoil_cpr,
        State.spoil_ccr, State.spoil_ld, State.spoil_stale, State.spoil_mdFresh, State.spoil_cpcPrev,
        State.spoil_lastMemory, State.spoil_mtc0, State.spoil_stored, State.spoil_cpc, State.spoil_irq,
        State.spoil_inputs, State.spoil_image, State.spoil_mem, State.spoil_cfg, State.spoil_tick]
    · intro q h1 h2
      have hn := fun x => (not_or.mpr ⟨h1, h2⟩) ((hrec q).mpr x)
      rw [hr, State.reg_spoil, if_neg (fun x => hn (.inl x)), State.reg_spoil, if_neg (fun x => hn (.inr x))]
    · intro q h0 hq
      rw [hr, State.reg_spoil]
      rcases (hrec q).mp hq with hh | hh
      · rw [if_pos hh, if_neg h0]; exact State.free_congr (State.spoil_tick ..) _
      · split
        · exact State.free_congr (State.spoil_tick ..) _
        · rw [State.reg_spoil, if_pos hh, if_neg h0]

/-- What the effect of a writer of HI or LO reads, said of the state before the spacing rule. -/
theorem State.operand_afterHazard {s t : State} {writesHi writesLo : Bool}
    (h : s.hiLoHazard writesHi writesLo = some t) {u : FreeUse} {r : Reg} {v : Word}
    (hv : ReadsOperand writesHi writesLo u r v s) : t.operand u r = v := by
  obtain ⟨⟨_, _, ht⟩, hsame, hfree⟩ := State.hiLoHazard_some h
  have hst : t.stale = s.stale := by rw [ht]
  have htick : t.tick = s.tick := by rw [ht]
  by_cases h0 : r = 0
  · rw [hv.1 (.inl h0), h0]; exact (State.operand_zero t u).trans (State.operand_zero s u).symm
  by_cases hs : s.stale = some r
  · rw [hv.1 (.inr (.inl hs)), State.operand_of_stale t u r (hst.trans hs) h0, State.operand_of_stale s u r hs h0,
      State.free_congr htick]
  rw [State.operand_of_fresh t u r (hst ▸ hs)]
  by_cases hr : (writesHi = true ∧ RecentRead true r s) ∨ (writesLo = true ∧ RecentRead false r s)
  · rw [hv.2 h0 hs hr, hfree r h0 hr]
  · rw [not_or] at hr
    rw [hv.1 (.inr (.inr hr)), State.operand_of_fresh s u r hs, hsame r hr.1 hr.2]

theorem writingHiLo_refused {writesHi writesLo : Bool} {s : State} (effect : State → Answer)
    (h : (writesHi = true ∧ ConsumedRead true s) ∨ (writesLo = true ∧ ConsumedRead false s)) :
    writingHiLo writesHi writesLo effect s = .refused .hiLoResultConsumed := by
  unfold writingHiLo; rw [(State.hiLoHazard_none ..).mpr h]

/-- Where the spacing rule does not refuse, the writer's effect follows on a state as `hiLoHazard_some` describes. -/
theorem writingHiLo_runs {writesHi writesLo : Bool} {s : State} (effect : State → Answer)
    (h : ¬ ((writesHi = true ∧ ConsumedRead true s) ∨ (writesLo = true ∧ ConsumedRead false s))) :
    ∃ u, s.hiLoHazard writesHi writesLo = some u ∧ writingHiLo writesHi writesLo effect s = effect u := by
  unfold writingHiLo
  cases hz : s.hiLoHazard writesHi writesLo with
  | none => exact absurd ((State.hiLoHazard_none ..).mp hz) h
  | some u => exact ⟨u, rfl, rfl⟩

/-! ## Coprocessors -/

theorem guarded_none {effect : State → Answer} {s : State} {check : Option Exc} (h : check = none) :
    guarded check effect s = effect s := by
  rw [h]; rfl

theorem guarded_takes {effect : State → Answer} {s : State} {check : Option Exc} {e : Exc} (h : check = some e) :
    Takes (guarded check effect s) e s := by
  rw [h]; exact raise_takes [] e s

theorem unprivileged_none {s : State} (h : s.userMode = false ∨ s.copUsable 0 = true) : unprivileged s = none := by
  unfold unprivileged
  rcases h with h | h <;> rw [h] <;> simp

theorem unusable_none {s : State} {z : Unit4} (h : s.copUsable z = true) : unusable z s = none := by
  unfold unusable; rw [h]; rfl

theorem State.causeValue_getLsbD (s : State) (k : Nat) (hk : k < 32) :
    s.causeValue.getLsbD k =
      if s.cfg.trap.cause.ip + 2 ≤ k ∧ k < s.cfg.trap.cause.ip + 8 then s.irq.getLsbD (k - (s.cfg.trap.cause.ip + 2))
      else s.cause.getLsbD k := by
  unfold State.causeValue
  exact putBits_getLsbD _ _ _ _ hk

/-- MFC0 directly after an MTC0 that changed the register it reads. -/
theorem State.cp0Read_changed {s : State} {r : Reg} {old : Word} (h : s.mtc0 = some (r, old)) (hc : old ≠ s.cp0Cell r) :
    s.cp0Read r = s.free (.readCp0 r) := by
  unfold State.cp0Read
  rw [h]
  exact if_pos ⟨rfl, hc⟩

/-- MFC0 of a register that no MTC0 just before has changed. -/
theorem State.cp0Read_settled {s : State} {r : Reg} (h : ∀ old, s.mtc0 = some (r, old) → old = s.cp0Cell r) :
    s.cp0Read r = s.cp0Value r := by
  unfold State.cp0Read
  split
  · rename_i q old hm
    exact if_neg fun hq => hq.2 (h old (hq.1 ▸ hm))
  · rfl

/-! What an MTC0 does to each register that it may name. -/

theorem State.cp0Write_sr (s : State) (r : Reg) (v : Word) :
    (s.cp0Write r v).sr = if s.cp0Register r = .status then v else s.sr := by
  unfold State.cp0Write
  cases s.cp0Register r <;> rfl

theorem State.cp0Write_epc (s : State) (r : Reg) (v : Word) :
    (s.cp0Write r v).epc = if s.cp0Register r = .epc then v else s.epc := by
  unfold State.cp0Write
  cases s.cp0Register r <;> rfl

theorem State.cp0Write_badVAddr (s : State) (r : Reg) (v : Word) :
    (s.cp0Write r v).badVAddr = if s.cp0Register r = .badVAddr then s.free .writtenBadVAddr else s.badVAddr := by
  unfold State.cp0Write
  cases s.cp0Register r <;> rfl

theorem State.cp0Write_bpc (s : State) (r : Reg) (v : Word) :
    (s.cp0Write r v).bpc = if s.cp0Register r = .bpc then v else s.bpc := by
  unfold State.cp0Write
  cases s.cp0Register r <;> rfl

theorem State.cp0Write_bda (s : State) (r : Reg) (v : Word) :
    (s.cp0Write r v).bda = if s.cp0Register r = .bda then v else s.bda := by
  unfold State.cp0Write
  cases s.cp0Register r <;> rfl

theorem State.cp0Write_dcic (s : State) (r : Reg) (v : Word) :
    (s.cp0Write r v).dcic = if s.cp0Register r = .dcic then v else s.dcic := by
  unfold State.cp0Write
  cases s.cp0Register r <;> rfl

theorem State.cp0Write_cp0Other (s : State) (r q : Reg) (v : Word) :
    (s.cp0Write r v).cp0Other[q.toNat]'q.isLt =
      if s.cp0Register r = .other ∧ q = r then v else s.cp0Other[q.toNat]'q.isLt := by
  unfold State.cp0Write
  cases s.cp0Register r <;> simp only [reduceCtorEq, false_and, if_false, true_and]
  by_cases h : q = r
  · rw [if_pos h]; subst h; exact Vector.getElem_set_self _
  · rw [if_neg h]; exact Vector.getElem_set_ne _ _ fun e => h (BitVec.eq_of_toNat_eq e.symm)

theorem State.cp0Write_cause (s : State) (r : Reg) (v : Word) (k : Nat) (hk : k < 32) :
    (s.cp0Write r v).cause.getLsbD k =
      if s.cp0Register r = .cause ∧ (k = s.cfg.trap.cause.ip ∨ k = s.cfg.trap.cause.ip + 1) then v.getLsbD k
      else s.cause.getLsbD k := by
  unfold State.cp0Write
  cases s.cp0Register r <;> simp only [reduceCtorEq, false_and, if_false, true_and]
  rw [putBits_getLsbD _ _ _ _ hk]
  by_cases h : k = s.cfg.trap.cause.ip ∨ k = s.cfg.trap.cause.ip + 1
  · rw [if_pos h, if_pos (by omega), BitVec.getLsbD_extractLsb',
      show s.cfg.trap.cause.ip + (k - s.cfg.trap.cause.ip) = k by omega]
    simp only [show k - s.cfg.trap.cause.ip < 2 by omega, decide_true, Bool.true_and]
  · rw [if_neg h, if_neg (by omega)]

/-! ## Bytes -/

theorem littleWord_getLsbD (bs : List Byte) (k : Nat) (hk : k < 32) :
    (littleWord bs).getLsbD k = (bs.getD (k / 8) 0).getLsbD (k % 8) := by
  induction bs generalizing k with
  | nil => simp [littleWord]
  | cons b bs ih =>
    simp only [littleWord, BitVec.getLsbD_or, BitVec.getLsbD_shiftLeft, BitVec.getLsbD_setWidth, hk, decide_true,
      Bool.true_and]
    by_cases h : k < 8
    · have : k / 8 = 0 := by omega
      have : k % 8 = k := by omega
      simp [*]
    · obtain ⟨j, rfl⟩ : ∃ j, k = j + 8 := ⟨k - 8, by omega⟩
      rw [Nat.add_sub_cancel, ih j (by omega), show (j + 8) / 8 = j / 8 + 1 by omega, Nat.add_mod_right,
        BitVec.getLsbD_of_ge b (j + 8) (by omega)]
      simp

theorem littleWord_four (b0 b1 b2 b3 : Byte) : littleWord [b0, b1, b2, b3] = b3 ++ b2 ++ b1 ++ b0 := by
  apply BitVec.eq_of_getLsbD_eq
  intro k hk
  rw [littleWord_getLsbD _ _ hk]
  change _ = @BitVec.getLsbD (8 + 8 + 8 + 8) _ _
  simp only [BitVec.getLsbD_append]
  obtain h | h | h | h : k / 8 = 0 ∨ k / 8 = 1 ∨ k / 8 = 2 ∨ k / 8 = 3 := by omega
  · have : k % 8 = k := by omega
    have : k < 8 := by omega
    simp [*]
  · have : k % 8 = k - 8 := by omega
    have : ¬ k < 8 := by omega
    have : k - 8 < 8 := by omega
    simp [*]
  · have : k % 8 = k - 8 - 8 := by omega
    have : ¬ k < 8 := by omega
    have : ¬ k - 8 < 8 := by omega
    have : k - 8 - 8 < 8 := by omega
    simp [*]
  · have : k % 8 = k - 8 - 8 - 8 := by omega
    have : ¬ k < 8 := by omega
    have : ¬ k - 8 < 8 := by omega
    have : ¬ k - 8 - 8 < 8 := by omega
    simp [*]

theorem littleWord_two (b0 b1 : Byte) : (littleWord [b0, b1]).setWidth 16 = b1 ++ b0 := by
  apply BitVec.eq_of_getLsbD_eq
  intro k hk
  rw [BitVec.getLsbD_setWidth, littleWord_getLsbD _ _ (by omega)]
  change _ = @BitVec.getLsbD (8 + 8) _ _
  simp only [BitVec.getLsbD_append]
  obtain h | h : k / 8 = 0 ∨ k / 8 = 1 := by omega
  · have : k % 8 = k := by omega
    have : k < 8 := by omega
    simp [*]
  · have : k % 8 = k - 8 := by omega
    have : ¬ k < 8 := by omega
    simp [*]

/-- Four bytes at ascending addresses as a word (20_memory.md R70). -/
theorem bytesToWord_four (bigEndian : Bool) (b0 b1 b2 b3 : Byte) :
    bytesToWord bigEndian [b0, b1, b2, b3] = if bigEndian then b0 ++ b1 ++ b2 ++ b3 else b3 ++ b2 ++ b1 ++ b0 := by
  cases bigEndian
  · exact littleWord_four b0 b1 b2 b3
  · exact littleWord_four b3 b2 b1 b0

/-- Two bytes at ascending addresses as a halfword (20_memory.md R70). -/
theorem bytesToWord_two (bigEndian : Bool) (b0 b1 : Byte) :
    (bytesToWord bigEndian [b0, b1]).setWidth 16 = if bigEndian then b0 ++ b1 else b1 ++ b0 := by
  cases bigEndian
  · exact littleWord_two b0 b1
  · exact littleWord_two b1 b0

theorem bytesToWord_one (bigEndian : Bool) (b : Byte) : bytesToWord bigEndian [b] = b.setWidth 32 := by
  cases bigEndian <;> simp [bytesToWord, littleWord]

theorem mergeLeft_getLsbD (byte : Nat) (loaded old : Word) (k : Nat) (hk : k < 32) :
    (mergeLeft byte loaded old).getLsbD k =
      if k < 24 - 8 * byte then old.getLsbD k else loaded.getLsbD (k - (24 - 8 * byte)) := by
  unfold mergeLeft
  simp only [BitVec.getLsbD_or, BitVec.getLsbD_shiftLeft, BitVec.getLsbD_and, BitVec.getLsbD_ofNat,
    Nat.testBit_two_pow_sub_one, hk, decide_true, Bool.true_and]
  by_cases h : k < 24 - 8 * byte <;> simp [h]

theorem mergeRight_getLsbD (byte : Nat) (loaded old : Word) (k : Nat) (hk : k < 32) :
    (mergeRight byte loaded old).getLsbD k =
      (loaded.getLsbD k || (decide (32 - 8 * byte ≤ k) && old.getLsbD k)) := by
  unfold mergeRight
  simp only [BitVec.getLsbD_or, BitVec.getLsbD_not, BitVec.getLsbD_and, BitVec.getLsbD_ofNat,
    Nat.testBit_two_pow_sub_one, hk, decide_true, Bool.true_and]
  by_cases h : k < 32 - 8 * byte
  · rw [decide_eq_false (Nat.not_le_of_lt h)]; simp [h]
  · rw [decide_eq_true (Nat.le_of_not_lt h)]; simp [h]

theorem length_littleBytes (n : Nat) (v : Word) : (littleBytes n v).length = n := by
  induction n generalizing v with
  | zero => rfl
  | succ n ih => simp [littleBytes, ih]

theorem length_wordToBytes (bigEndian : Bool) (n : Nat) (v : Word) : (wordToBytes bigEndian n v).length = n := by
  unfold wordToBytes; split <;> simp [length_littleBytes]

theorem littleBytes_getD (n : Nat) (v : Word) (k : Nat) (hk : k < n) :
    (littleBytes n v).getD k 0 = v.extractLsb' (8 * k) 8 := by
  induction n generalizing v k with
  | zero => omega
  | succ n ih =>
    cases k with
    | zero => simp [littleBytes, BitVec.setWidth_eq_extractLsb']
    | succ k =>
      simp only [littleBytes, List.getD_cons_succ]
      rw [ih _ k (by omega)]
      ext j hj
      simp [BitVec.getElem_extractLsb']
      congr 1
      omega

end Sys2Proof.Machine
end

