-- ==== Sys2Proof/Laws/Exec.lean ====
section
/-! SUPPORT. Everything an instruction can do when it answers a next state, said once for all instructions: it takes an
exception, or it changes the state in its own way and completes. -/

namespace Sys2Proof.Machine

/-- The five stores: the instructions that access memory and write no register. -/
def isStore (i : Instr) : Bool := isMemory i && (instrInfo i).writes.isNone

/-- The instructions that write HI. -/
def writesHi : Instr → Bool
  | .mult _ _ => true
  | .multu _ _ => true
  | .div _ _ => true
  | .divu _ _ => true
  | .mthi _ => true
  | _ => false

/-- The instructions that write LO. -/
def writesLo : Instr → Bool
  | .mult _ _ => true
  | .multu _ _ => true
  | .div _ _ => true
  | .divu _ _ => true
  | .mtlo _ => true
  | _ => false

/-- The registers on whose values an exception of the instruction depends. -/
def testedReads : Instr → List Reg
  | .lb _ _ base => [base]
  | .lbu _ _ base => [base]
  | .lh _ _ base => [base]
  | .lhu _ _ base => [base]
  | .lw _ _ base => [base]
  | .lwl _ _ base => [base]
  | .lwr _ _ base => [base]
  | .sb _ _ base => [base]
  | .sh _ _ base => [base]
  | .sw _ _ base => [base]
  | .swl _ _ base => [base]
  | .swr _ _ base => [base]
  | .addi _ rs _ => [rs]
  | .add _ rs rt => [rs, rt]
  | .sub _ rs rt => [rs, rt]
  | _ => []

/-- What instruction `i` may have changed just before it completes. -/
structure Effect (i : Instr) (s u : State) : Prop where
  flow : u.pc = s.pc ∧ u.npc = s.npc ∧ u.ds = s.ds ∧ u.stale = s.stale
  kept : u.prId = s.prId ∧ u.ccr = s.ccr ∧ u.image = s.image ∧ SameInputs s u
  history : u.hist1 = if spoils (writesHi i) (writesLo i) s.hist1 then none else s.hist1
  pending : u.ld = s.ld ∨ u.ld = none ∨ ∃ r v, r ≠ 0 ∧ u.ld = some (r, v)
  memory : (u.mem = s.mem ∧ u.stored = s.stored) ∨
    (isStore i = true ∧ ∃ a bs, Accessible .store 1 a s ∧ a.toNat % 4 + bs.length ≤ 4 ∧
      u.mem = writeBytes s.image s.mem (physical s.cfg.segments a) bs ∧
      u.stored = markStored s.stored (physical s.cfg.segments a) bs.length)
  hiLo : SameHiLo s u ∨ writesHi i = true ∨ writesLo i = true
  cp0 : SameCp0 s u ∨ s.userMode = false ∨ s.copUsable 0 = true

/-- How instruction `i` gets from `s` to the next state `t`. -/
def Ends (i : Instr) (s t : State) : Prop :=
  (∃ e, t = (s.abandoned (testedReads i)).trapEntry e) ∨
  ∃ u target, Effect i s u ∧ (isBranch i = false → target = none) ∧ (isBranch i = true → s.ds = false) ∧
    (t = u.completed i target ∨ ∃ rt r, i = .mtc0 rt r ∧ t = (u.completed i target).afterMtc0 r (s.cp0Cell r))

theorem ends_raise {i : Instr} {s t : State} {e : Exc} (h : raise (testedReads i) e s = .next t) : Ends i s t :=
  .inl ⟨e, raise_next h⟩

theorem ends_complete {i : Instr} {s u t : State} (hb : isBranch i = false) (he : Effect i s u)
    (h : complete i u = .next t) : Ends i s t := by
  injection h with h
  exact .inr ⟨u, none, he, fun _ => rfl, fun hb' => absurd hb' (by simp [hb]), .inl h.symm⟩

theorem ends_transfer {i : Instr} {s u t : State} {target : Option Word} (hb : isBranch i = true) (he : Effect i s u)
    (h : transfer i target u = .next t) : Ends i s t := by
  unfold transfer at h
  split at h
  · cases h
  · rename_i hd
    injection h with h
    exact .inr ⟨u, target, he, fun hb' => absurd hb' (by simp [hb]),
      fun _ => by rw [← he.flow.2.2.1]; simpa using hd, .inl h.symm⟩

theorem Effect.refl (i : Instr) (s : State) (hw : writesHi i = false ∧ writesLo i = false) : Effect i s s where
  flow := ⟨rfl, rfl, rfl, rfl⟩
  kept := ⟨rfl, rfl, rfl, rfl, rfl, rfl, rfl, rfl⟩
  history := by rw [hw.1, hw.2]; cases s.hist1 <;> simp [spoils]
  pending := .inl rfl
  memory := .inl ⟨rfl, rfl⟩
  hiLo := .inl ⟨rfl, rfl, rfl, rfl⟩
  cp0 := .inl ⟨rfl, rfl, rfl, rfl, rfl, rfl, rfl, rfl, rfl⟩

theorem Effect.setReg {i : Instr} {s u : State} (h : Effect i s u) (r : Reg) (v : Word) : Effect i s (u.setReg r v) :=
  { h with }

theorem Effect.delayReg {i : Instr} {s u : State} (h : Effect i s u) (r : Reg) (v : Word) :
    Effect i s (u.delayReg r v) where
  flow := h.flow
  kept := h.kept
  history := h.history
  pending := by
    by_cases hr : r = 0
    · exact .inr (.inl (if_pos hr))
    · exact .inr (.inr ⟨r, v, hr, if_neg hr⟩)
  memory := h.memory
  hiLo := h.hiLo
  cp0 := h.cp0

theorem Effect.staleMd {i : Instr} {s u : State} (h : Effect i s u) : Effect i s u.staleMd := { h with }

theorem Effect.copWrite {i : Instr} {s u : State} (h : Effect i s u) (z : Unit4) (r : Reg) (v : Word) :
    Effect i s (u.copWrite z r v) := { h with }

theorem Effect.storeBytes {i : Instr} {s : State} {a : Word} {bs : List Byte} (hi : isStore i = true)
    (hw : writesHi i = false ∧ writesLo i = false) (ha : Accessible .store 1 a s) (hl : a.toNat % 4 + bs.length ≤ 4) :
    Effect i s (s.storeBytes (physical s.cfg.segments a) bs) :=
  { Effect.refl i s hw with memory := .inr ⟨hi, a, bs, ha, hl, rfl, rfl⟩ }

theorem Effect.afterHazard {i : Instr} {s u : State} (h : s.hiLoHazard (writesHi i) (writesLo i) = some u) :
    Effect i s u := by
  obtain ⟨⟨gpr, hist2, hu⟩, -, -⟩ := State.hiLoHazard_some h
  subst hu
  exact {
    flow := ⟨rfl, rfl, rfl, rfl⟩
    kept := ⟨rfl, rfl, rfl, rfl, rfl, rfl, rfl, rfl⟩
    history := rfl
    pending := .inl rfl
    memory := .inl ⟨rfl, rfl⟩
    hiLo := .inl ⟨rfl, rfl, rfl, rfl⟩
    cp0 := .inl ⟨rfl, rfl, rfl, rfl, rfl, rfl, rfl, rfl, rfl⟩ }

/-- A write of HI and LO, whatever it leaves there. -/
theorem Effect.hiLo_any {i : Instr} {s u w : State} (h : Effect i s u) (hi : writesHi i = true ∨ writesLo i = true)
    (hw : w = { u with hi := w.hi, lo := w.lo, hiDefined := w.hiDefined, loDefined := w.loDefined, mdFresh := w.mdFresh }) :
    Effect i s w := by
  rw [hw]
  exact { h with hiLo := .inr hi }

theorem ends_writingHiLo {i : Instr} {s t : State} {effect : State → Answer}
    (he : ∀ u, Effect i s u → effect u = .next t → Ends i s t)
    (h : writingHiLo (writesHi i) (writesLo i) effect s = .next t) : Ends i s t := by
  unfold writingHiLo at h
  split at h
  · cases h
  · rename_i u hu
    exact he u (.afterHazard hu) h

theorem ends_guarded {i : Instr} {s t : State} {check : Option Exc} {effect : State → Answer}
    (hr : testedReads i = []) (he : check = none → effect s = .next t → Ends i s t) (h : guarded check effect s = .next t) : Ends i s t := by
  unfold guarded at h
  split at h
  · exact ends_raise (hr ▸ h)
  · exact he rfl h

theorem ends_loadWith {i : Instr} {s t : State} {n : Nat} {convert : Word → Word} {rt base : Reg} {offset : BitVec 16}
    (hb : isBranch i = false) (hw : writesHi i = false ∧ writesLo i = false) (hr : testedReads i = [base])
    (h : loadWith i n convert rt offset base s = .next t) : Ends i s t := by
  unfold loadWith at h
  split at h
  · exact ends_raise (hr ▸ h)
  · exact ends_complete hb ((Effect.refl i s hw).delayReg _ _) h

theorem ends_loadLeft {i : Instr} {s t : State} {rt base : Reg} {offset : BitVec 16}
    (hb : isBranch i = false) (hw : writesHi i = false ∧ writesLo i = false) (hr : testedReads i = [base])
    (h : loadLeft i rt offset base s = .next t) : Ends i s t := by
  unfold loadLeft at h
  simp only at h
  split at h
  · exact ends_raise (hr ▸ h)
  · exact ends_complete hb ((Effect.refl i s hw).delayReg _ _) h

theorem ends_loadRight {i : Instr} {s t : State} {rt base : Reg} {offset : BitVec 16}
    (hb : isBranch i = false) (hw : writesHi i = false ∧ writesLo i = false) (hr : testedReads i = [base])
    (h : loadRight i rt offset base s = .next t) : Ends i s t := by
  unfold loadRight at h
  simp only at h
  split at h
  · exact ends_raise (hr ▸ h)
  · exact ends_complete hb ((Effect.refl i s hw).delayReg _ _) h

theorem ends_storeOf {i : Instr} {s t : State} {n : Nat} {rt base : Reg} {offset : BitVec 16} (hi : isStore i = true)
    (hb : isBranch i = false) (hw : writesHi i = false ∧ writesLo i = false) (hr : testedReads i = [base]) (hn : n = 1 ∨ n = 2 ∨ n = 4)
    (h : storeOf i n rt offset base s = .next t) : Ends i s t := by
  unfold storeOf at h
  split at h
  · exact ends_raise (hr ▸ h)
  · rename_i p hp
    obtain ⟨⟨h1, h2, h3⟩, rfl⟩ := (State.translate_ok ..).mp hp
    refine ends_complete hb (.storeBytes hi hw ⟨Nat.mod_one _, h2, h3⟩ ?_) h
    rw [length_wordToBytes]
    rcases hn with rfl | rfl | rfl <;> omega

theorem wordAddress_toNat (a : Word) : (wordAddress a).toNat = a.toNat - a.toNat % 4 := by
  unfold wordAddress
  have := a.isLt
  rw [BitVec.toNat_sub, BitVec.toNat_ofNat]
  omega

theorem ends_storeLeft {i : Instr} {s t : State} {rt base : Reg} {offset : BitVec 16} (hi : isStore i = true)
    (hb : isBranch i = false) (hw : writesHi i = false ∧ writesLo i = false) (hr : testedReads i = [base])
    (h : storeLeft i rt offset base s = .next t) : Ends i s t := by
  unfold storeLeft at h
  simp only at h
  split at h
  · exact ends_raise (hr ▸ h)
  · rename_i p hp
    obtain ⟨ha, rfl⟩ := (State.translate_ok ..).mp hp
    refine ends_complete hb (.storeBytes hi hw ha ?_) h
    rw [length_wordToBytes]
    have := wordAddress_toNat (s.effectiveAddress base offset)
    unfold leftStart laneIndex
    split <;> omega

theorem ends_storeRight {i : Instr} {s t : State} {rt base : Reg} {offset : BitVec 16} (hi : isStore i = true)
    (hb : isBranch i = false) (hw : writesHi i = false ∧ writesLo i = false) (hr : testedReads i = [base])
    (h : storeRight i rt offset base s = .next t) : Ends i s t := by
  unfold storeRight at h
  simp only at h
  split at h
  · exact ends_raise (hr ▸ h)
  · rename_i p hp
    obtain ⟨ha, rfl⟩ := (State.translate_ok ..).mp hp
    refine ends_complete hb (.storeBytes hi hw ha ?_) h
    rw [length_wordToBytes]
    have := wordAddress_toNat (s.effectiveAddress base offset)
    unfold rightStart laneIndex
    split <;> omega

theorem ends_branchOnCondition {i : Instr} {s t : State} {z : Unit4} {sense : Bool} {offset : BitVec 16}
    (hb : isBranch i = true)
    (hw : writesHi i = false ∧ writesLo i = false) (hr : testedReads i = []) (h : branchOnCondition i z sense offset s = .next t) : Ends i s t :=
  ends_guarded hr (fun _ h => ends_transfer hb (.refl i s hw) h) h

theorem ends_moveFromCop {i : Instr} {s t : State} {z : Unit4} {rt rd : Reg} (hb : isBranch i = false)
    (hw : writesHi i = false ∧ writesLo i = false) (hr : testedReads i = []) (h : moveFromCop i z rt rd s = .next t) : Ends i s t :=
  ends_guarded hr (fun _ h => ends_complete hb ((Effect.refl i s hw).delayReg _ _) h) h

theorem ends_moveToCop {i : Instr} {s t : State} {z : Unit4} {rt rd : Reg} (hb : isBranch i = false)
    (hw : writesHi i = false ∧ writesLo i = false) (hr : testedReads i = []) (h : moveToCop i z rt rd s = .next t) : Ends i s t :=
  ends_guarded hr (fun _ h => ends_complete hb ((Effect.refl i s hw).copWrite _ _ _) h) h

theorem privileged_of_none {s : State} (h : unprivileged s = none) : s.userMode = false ∨ s.copUsable 0 = true := by
  unfold unprivileged at h
  cases h1 : s.userMode <;> cases h2 : s.copUsable 0 <;> simp_all

/-- What every instruction can do. -/
theorem exec_ends {i : Instr} {s t : State} (h : exec i s = .next t) : Ends i s t := by
  have hr := Effect.refl i s
  cases i
  case lb =>
    simp only [exec, execLb] at h
    exact ends_loadWith rfl ⟨rfl, rfl⟩ rfl h
  case lbu =>
    simp only [exec, execLbu] at h
    exact ends_loadWith rfl ⟨rfl, rfl⟩ rfl h
  case lh =>
    simp only [exec, execLh] at h
    exact ends_loadWith rfl ⟨rfl, rfl⟩ rfl h
  case lhu =>
    simp only [exec, execLhu] at h
    exact ends_loadWith rfl ⟨rfl, rfl⟩ rfl h
  case lw =>
    simp only [exec, execLw] at h
    exact ends_loadWith rfl ⟨rfl, rfl⟩ rfl h
  case lwl => exact ends_loadLeft rfl ⟨rfl, rfl⟩ rfl h
  case lwr => exact ends_loadRight rfl ⟨rfl, rfl⟩ rfl h
  case sb => exact ends_storeOf rfl rfl ⟨rfl, rfl⟩ rfl (.inl rfl) h
  case sh => exact ends_storeOf rfl rfl ⟨rfl, rfl⟩ rfl (.inr (.inl rfl)) h
  case sw => exact ends_storeOf rfl rfl ⟨rfl, rfl⟩ rfl (.inr (.inr rfl)) h
  case swl => exact ends_storeLeft rfl rfl ⟨rfl, rfl⟩ rfl h
  case swr => exact ends_storeRight rfl rfl ⟨rfl, rfl⟩ rfl h
  case addi rt rs imm =>
    change execAddi rt rs imm s = _ at h
    unfold execAddi at h
    split at h
    · exact ends_raise h
    · exact ends_complete rfl ((hr ⟨rfl, rfl⟩).setReg _ _) h
  case addiu => exact ends_complete rfl ((hr ⟨rfl, rfl⟩).setReg _ _) h
  case slti => exact ends_complete rfl ((hr ⟨rfl, rfl⟩).setReg _ _) h
  case sltiu => exact ends_complete rfl ((hr ⟨rfl, rfl⟩).setReg _ _) h
  case andi => exact ends_complete rfl ((hr ⟨rfl, rfl⟩).setReg _ _) h
  case ori => exact ends_complete rfl ((hr ⟨rfl, rfl⟩).setReg _ _) h
  case xori => exact ends_complete rfl ((hr ⟨rfl, rfl⟩).setReg _ _) h
  case lui => exact ends_complete rfl ((hr ⟨rfl, rfl⟩).setReg _ _) h
  case add rd rs rt =>
    change execAdd rd rs rt s = _ at h
    unfold execAdd at h
    split at h
    · exact ends_raise h
    · exact ends_complete rfl ((hr ⟨rfl, rfl⟩).setReg _ _) h
  case addu => exact ends_complete rfl ((hr ⟨rfl, rfl⟩).setReg _ _) h
  case sub rd rs rt =>
    change execSub rd rs rt s = _ at h
    unfold execSub at h
    split at h
    · exact ends_raise h
    · exact ends_complete rfl ((hr ⟨rfl, rfl⟩).setReg _ _) h
  case subu => exact ends_complete rfl ((hr ⟨rfl, rfl⟩).setReg _ _) h
  case slt => exact ends_complete rfl ((hr ⟨rfl, rfl⟩).setReg _ _) h
  case sltu => exact ends_complete rfl ((hr ⟨rfl, rfl⟩).setReg _ _) h
  case and => exact ends_complete rfl ((hr ⟨rfl, rfl⟩).setReg _ _) h
  case or => exact ends_complete rfl ((hr ⟨rfl, rfl⟩).setReg _ _) h
  case xor => exact ends_complete rfl ((hr ⟨rfl, rfl⟩).setReg _ _) h
  case nor => exact ends_complete rfl ((hr ⟨rfl, rfl⟩).setReg _ _) h
  case sll => exact ends_complete rfl ((hr ⟨rfl, rfl⟩).setReg _ _) h
  case srl => exact ends_complete rfl ((hr ⟨rfl, rfl⟩).setReg _ _) h
  case sra => exact ends_complete rfl ((hr ⟨rfl, rfl⟩).setReg _ _) h
  case sllv => exact ends_complete rfl ((hr ⟨rfl, rfl⟩).setReg _ _) h
  case srlv => exact ends_complete rfl ((hr ⟨rfl, rfl⟩).setReg _ _) h
  case srav => exact ends_complete rfl ((hr ⟨rfl, rfl⟩).setReg _ _) h
  case mult => exact ends_writingHiLo (fun _ hu h => ends_complete rfl (hu.hiLo_any (.inl rfl) rfl) h) h
  case multu => exact ends_writingHiLo (fun _ hu h => ends_complete rfl (hu.hiLo_any (.inl rfl) rfl) h) h
  case div =>
    refine ends_writingHiLo (fun _ hu h => ?_) h
    simp only at h
    split at h
    · exact ends_complete rfl (hu.hiLo_any (.inl rfl) rfl) h
    · split at h <;> exact ends_complete rfl (hu.hiLo_any (.inl rfl) rfl) h
  case divu =>
    refine ends_writingHiLo (fun _ hu h => ?_) h
    simp only at h
    split at h <;> exact ends_complete rfl (hu.hiLo_any (.inl rfl) rfl) h
  case jr => exact ends_transfer rfl (hr ⟨rfl, rfl⟩) h
  case jalr rs rd =>
    change execJalr rs rd s = _ at h
    unfold execJalr at h
    split at h <;> exact ends_transfer rfl ((hr ⟨rfl, rfl⟩).setReg _ _) h
  case j => exact ends_transfer rfl (hr ⟨rfl, rfl⟩) h
  case jal => exact ends_transfer rfl ((hr ⟨rfl, rfl⟩).setReg _ _) h
  case beq => exact ends_transfer rfl (hr ⟨rfl, rfl⟩) h
  case bne => exact ends_transfer rfl (hr ⟨rfl, rfl⟩) h
  case blez => exact ends_transfer rfl (hr ⟨rfl, rfl⟩) h
  case bgtz => exact ends_transfer rfl (hr ⟨rfl, rfl⟩) h
  case bltz => exact ends_transfer rfl (hr ⟨rfl, rfl⟩) h
  case bgez => exact ends_transfer rfl (hr ⟨rfl, rfl⟩) h
  case bltzal => exact ends_transfer rfl ((hr ⟨rfl, rfl⟩).setReg _ _) h
  case bgezal => exact ends_transfer rfl ((hr ⟨rfl, rfl⟩).setReg _ _) h
  case bc0f => exact ends_branchOnCondition rfl ⟨rfl, rfl⟩ rfl h
  case bc1f => exact ends_branchOnCondition rfl ⟨rfl, rfl⟩ rfl h
  case bc2f => exact ends_branchOnCondition rfl ⟨rfl, rfl⟩ rfl h
  case bc3f => exact ends_branchOnCondition rfl ⟨rfl, rfl⟩ rfl h
  case bc0t => exact ends_branchOnCondition rfl ⟨rfl, rfl⟩ rfl h
  case bc1t => exact ends_branchOnCondition rfl ⟨rfl, rfl⟩ rfl h
  case bc2t => exact ends_branchOnCondition rfl ⟨rfl, rfl⟩ rfl h
  case bc3t => exact ends_branchOnCondition rfl ⟨rfl, rfl⟩ rfl h
  case mfc0 =>
    simp only [exec, execMfc0] at h
    exact ends_guarded rfl (fun _ h => ends_complete rfl ((hr ⟨rfl, rfl⟩).delayReg _ _) h) h
  case mfc1 => exact ends_moveFromCop rfl ⟨rfl, rfl⟩ rfl h
  case mfc2 => exact ends_moveFromCop rfl ⟨rfl, rfl⟩ rfl h
  case mfc3 => exact ends_moveFromCop rfl ⟨rfl, rfl⟩ rfl h
  case mtc0 rt rd =>
    simp only [exec, execMtc0] at h
    refine ends_guarded rfl (fun hp h => ?_) h
    injection h with h
    refine .inr ⟨s.cp0Write rd (s.rt rt), none, ?_, fun _ => rfl, fun h => absurd h (by simp [isBranch, instrInfo]),
      .inr ⟨rt, rd, rfl, h.symm⟩⟩
    exact {
      flow := by simp
      kept := by simp [SameInputs]
      history := by cases h1 : s.hist1 <;> simp [spoils, writesHi, writesLo, h1]
      pending := .inl (by simp)
      memory := .inl (by simp)
      hiLo := .inl (by simp [SameHiLo])
      cp0 := .inr (privileged_of_none hp) }
  case mtc1 => exact ends_moveToCop rfl ⟨rfl, rfl⟩ rfl h
  case mtc2 => exact ends_moveToCop rfl ⟨rfl, rfl⟩ rfl h
  case mtc3 => exact ends_moveToCop rfl ⟨rfl, rfl⟩ rfl h
  case rfe =>
    simp only [exec, execRfe] at h
    refine ends_guarded rfl (fun hp h => ?_) h
    split at h
    · cases h
    · exact ends_complete (u := s.popMode) rfl { hr ⟨rfl, rfl⟩ with cp0 := .inr (privileged_of_none hp) } h
  case syscall => exact ends_raise h
  case brk => exact ends_raise h
  case mfhi => exact ends_complete rfl ((hr ⟨rfl, rfl⟩).staleMd.setReg _ _) h
  case mthi => exact ends_writingHiLo (fun _ hu h => ends_complete rfl (hu.hiLo_any (.inl rfl) rfl) h) h
  case mflo => exact ends_complete rfl ((hr ⟨rfl, rfl⟩).staleMd.setReg _ _) h
  case mtlo => exact ends_writingHiLo (fun _ hu h => ends_complete rfl (hu.hiLo_any (.inr rfl) rfl) h) h

end Sys2Proof.Machine
end

