-- ==== Sys2Proof/Laws/Step.lean ====
section
/-! SUPPORT. Everything one step can do, said once: it takes an interrupt, it raises an exception, or it runs an
instruction. -/

namespace Sys2Proof.Machine

theorem takeException_next {e : Exc} {s t : State} (h : takeException e s = .next t) : t = s.trapEntry e := by
  unfold takeException at h
  split at h
  · injection h with h; exact h.symm
  · cases h

theorem runNonZeroField_next {i : Instr} {s t : State} (h : runNonZeroField i s = .next t) :
    exec i s = .next t ∨ ∃ e, t = (s.abandoned []).trapEntry e := by
  unfold runNonZeroField raiseUndecoded at h
  split at h
  · exact .inr ⟨_, raise_next h⟩
  · split at h
    · cases h
    · exact .inr ⟨_, raise_next h⟩
    · exact .inl h

theorem runDecoded_next {d : Decoded} {s t : State} (h : runDecoded d s = .next t) :
    (∃ i, exec i s = .next t) ∨ ∃ e, t = (s.abandoned []).trapEntry e := by
  unfold runDecoded runCopReserved runCopOperation raiseUndecoded at h
  split at h
  · exact .inl ⟨_, h⟩
  · rcases runNonZeroField_next h with h | h
    · exact .inl ⟨_, h⟩
    · exact .inr h
  · exact .inr ⟨_, raise_next h⟩
  · split at h
    · exact .inr ⟨_, raise_next h⟩
    · split at h <;> exact .inr ⟨_, raise_next h⟩
  · split at h
    · exact .inr ⟨_, raise_next h⟩
    · cases h
  · exact .inr ⟨_, raise_next h⟩

/-- The three ways in which a step answers a next state. -/
theorem step_cases {s t : State} (h : step s = .next t) :
    (s.beginStep.interruptPending = true ∧ t = s.beginStep.trapEntry .interrupt) ∨
    (s.beginStep.interruptPending = false ∧
      ((∃ e, s.executing.fetch = .raised e ∧ t = s.executing.trapEntry e) ∨
       (∃ e, t = (s.executing.abandoned []).trapEntry e) ∨
       ∃ i, exec i s.executing = .next t)) := by
  unfold step runStep at h
  simp only at h
  split at h
  · rename_i hp
    exact .inl ⟨hp, takeException_next h⟩
  · rename_i hp
    refine .inr ⟨by simpa using hp, ?_⟩
    change (match s.executing.fetch with | .raised e => _ | .refused r => _ | .bytes bs => _) = _ at h
    split at h
    · rename_i e he
      exact .inl ⟨e, he, takeException_next h⟩
    · cases h
    · rcases runDecoded_next h with h | h
      · exact .inr (.inr h)
      · exact .inr (.inl h)

/-- A step that takes no interrupt and fetches its bytes runs what they decode to. -/
theorem step_of_fetches {s : State} {bs : List Byte} (h : Fetches s bs) :
    step s = runDecoded (decodeBytes s.executing.cfg.bigEndian s.executing.cfg.mulDivEncoding bs) s.executing := by
  have h1 := h.1
  have h2 : s.beginStep.deliver.fetch = .bytes bs := h.2
  unfold step runStep
  simp only [h1, h2, Bool.false_eq_true, if_false]
  rfl

theorem State.beginStep_lines (s : State) :
    s.beginStep.tick = s.tick + 1 ∧ s.beginStep.inputs = s.inputs.tail ∧
      s.beginStep.irq = ((s.inputs.head?.map Inputs.irq).getD s.irq) ∧
      s.beginStep.cpc = ((s.inputs.head?.map Inputs.cpc).getD s.cpc) := by
  unfold State.beginStep
  cases s.inputs <;> simp

/-- What every step keeps before its instruction runs. -/
theorem State.executing_kept (s : State) :
    s.executing.mem = s.mem ∧ s.executing.image = s.image ∧ s.executing.stored = s.stored ∧ s.executing.cfg = s.cfg ∧ s.executing.pc = s.pc ∧
      s.executing.npc = s.npc ∧ s.executing.ds = s.ds ∧ s.executing.hist1 = s.hist1 ∧ s.executing.hist2 = s.hist2 ∧
      s.executing.lastMemory = s.lastMemory ∧ s.executing.mtc0 = s.mtc0 ∧ s.executing.tick = s.tick + 1 ∧
      SameCp0 s s.executing ∧ SameHiLo s s.executing ∧ SameCops s s.executing ∧ s.executing.mdFresh = s.mdFresh ∧
      s.executing.cpcPrev = s.cpcPrev := by
  unfold State.executing SameCp0 SameHiLo SameCops
  simp [(State.beginStep_lines s).1]

end Sys2Proof.Machine
end

