-- ==== Sys2Proof/Tests/Slice0.lean ====
section
/-! SUPPORT. The model's own tests. The words, operands and expected values are those of spec/95_test_vectors.md, whose section
each heading names; then, for every statement with hypotheses, a state that meets them. -/

namespace Sys2Proof.Tests
open Sys2Proof.Machine

/-! ## Checks of well-formedness (44_jump_branch.md R234, R244, R245) -/

theorem test_jalr_same_register_ill_formed : (Instr.jalr 7 7).wellFormed = false := by decide
theorem test_bltzal_r31_ill_formed : (Instr.bltzal 31 4).wellFormed = false := by decide
theorem test_bgezal_r31_ill_formed : (Instr.bgezal 31 4).wellFormed = false := by decide
theorem test_jalr_well_formed : (Instr.jalr 5 7).wellFormed = true := by decide

/-! ## Decoding: one word for every instruction (section 2) -/

theorem test_decode_lb : decodeTableWord 32 0x80A6FFFC = some (.lb 6 0xFFFC 5) := by decide
theorem test_decode_lbu : decodeTableWord 32 0x90A6FFFC = some (.lbu 6 0xFFFC 5) := by decide
theorem test_decode_lh : decodeTableWord 32 0x84A6FFFC = some (.lh 6 0xFFFC 5) := by decide
theorem test_decode_lhu : decodeTableWord 32 0x94A6FFFC = some (.lhu 6 0xFFFC 5) := by decide
theorem test_decode_lw : decodeTableWord 32 0x8CA6FFFC = some (.lw 6 0xFFFC 5) := by decide
theorem test_decode_lwl : decodeTableWord 32 0x88A6FFFC = some (.lwl 6 0xFFFC 5) := by decide
theorem test_decode_lwr : decodeTableWord 32 0x98A6FFFC = some (.lwr 6 0xFFFC 5) := by decide
theorem test_decode_sb : decodeTableWord 32 0xA0A6FFFC = some (.sb 6 0xFFFC 5) := by decide
theorem test_decode_sh : decodeTableWord 32 0xA4A6FFFC = some (.sh 6 0xFFFC 5) := by decide
theorem test_decode_sw : decodeTableWord 32 0xACA6FFFC = some (.sw 6 0xFFFC 5) := by decide
theorem test_decode_swl : decodeTableWord 32 0xA8A6FFFC = some (.swl 6 0xFFFC 5) := by decide
theorem test_decode_swr : decodeTableWord 32 0xB8A6FFFC = some (.swr 6 0xFFFC 5) := by decide
theorem test_decode_addi : decodeTableWord 32 0x20A68234 = some (.addi 6 5 0x8234) := by decide
theorem test_decode_addiu : decodeTableWord 32 0x24A68234 = some (.addiu 6 5 0x8234) := by decide
theorem test_decode_slti : decodeTableWord 32 0x28A68234 = some (.slti 6 5 0x8234) := by decide
theorem test_decode_sltiu : decodeTableWord 32 0x2CA68234 = some (.sltiu 6 5 0x8234) := by decide
theorem test_decode_andi : decodeTableWord 32 0x30A68234 = some (.andi 6 5 0x8234) := by decide
theorem test_decode_ori : decodeTableWord 32 0x34A68234 = some (.ori 6 5 0x8234) := by decide
theorem test_decode_xori : decodeTableWord 32 0x38A68234 = some (.xori 6 5 0x8234) := by decide
theorem test_decode_lui : decodeTableWord 32 0x3C068234 = some (.lui 6 0x8234) := by decide
theorem test_decode_add : decodeTableWord 32 0x00A63820 = some (.add 7 5 6) := by decide
theorem test_decode_addu : decodeTableWord 32 0x00A63821 = some (.addu 7 5 6) := by decide
theorem test_decode_sub : decodeTableWord 32 0x00A63822 = some (.sub 7 5 6) := by decide
theorem test_decode_subu : decodeTableWord 32 0x00A63823 = some (.subu 7 5 6) := by decide
theorem test_decode_slt : decodeTableWord 32 0x00A6382A = some (.slt 7 5 6) := by decide
theorem test_decode_sltu : decodeTableWord 32 0x00A6382B = some (.sltu 7 5 6) := by decide
theorem test_decode_and : decodeTableWord 32 0x00A63824 = some (.and 7 5 6) := by decide
theorem test_decode_or : decodeTableWord 32 0x00A63825 = some (.or 7 5 6) := by decide
theorem test_decode_xor : decodeTableWord 32 0x00A63826 = some (.xor 7 5 6) := by decide
theorem test_decode_nor : decodeTableWord 32 0x00A63827 = some (.nor 7 5 6) := by decide
theorem test_decode_sll : decodeTableWord 32 0x00063A40 = some (.sll 7 6 9) := by decide
theorem test_decode_srl : decodeTableWord 32 0x00063A42 = some (.srl 7 6 9) := by decide
theorem test_decode_sra : decodeTableWord 32 0x00063A43 = some (.sra 7 6 9) := by decide
theorem test_decode_sllv : decodeTableWord 32 0x00A63804 = some (.sllv 7 6 5) := by decide
theorem test_decode_srlv : decodeTableWord 32 0x00A63806 = some (.srlv 7 6 5) := by decide
theorem test_decode_srav : decodeTableWord 32 0x00A63807 = some (.srav 7 6 5) := by decide
theorem test_decode_mult : decodeTableWord 32 0x00A6000E = some (.mult 5 6) := by decide
theorem test_decode_mult_mips1 : decodeWord .mips1 0x00A60018 = .instr (.mult 5 6) := by decide
theorem test_decode_multu : decodeTableWord 32 0x00A60018 = some (.multu 5 6) := by decide
theorem test_decode_multu_mips1 : decodeWord .mips1 0x00A60019 = .instr (.multu 5 6) := by decide
theorem test_decode_div : decodeTableWord 32 0x00A6001A = some (.div 5 6) := by decide
theorem test_decode_divu : decodeTableWord 32 0x00A6001B = some (.divu 5 6) := by decide
theorem test_decode_jr : decodeTableWord 32 0x00A00008 = some (.jr 5) := by decide
theorem test_decode_jalr : decodeTableWord 32 0x00A03809 = some (.jalr 5 7) := by decide
theorem test_decode_j : decodeTableWord 32 0x0955AA55 = some (.j 0x155AA55) := by decide
theorem test_decode_jal : decodeTableWord 32 0x0D55AA55 = some (.jal 0x155AA55) := by decide
theorem test_decode_beq : decodeTableWord 32 0x10A6FFFC = some (.beq 5 6 0xFFFC) := by decide
theorem test_decode_bne : decodeTableWord 32 0x14A6FFFC = some (.bne 5 6 0xFFFC) := by decide
theorem test_decode_blez : decodeTableWord 32 0x18A0FFFC = some (.blez 5 0xFFFC) := by decide
theorem test_decode_bgtz : decodeTableWord 32 0x1CA0FFFC = some (.bgtz 5 0xFFFC) := by decide
theorem test_decode_bltz : decodeTableWord 32 0x04A0FFFC = some (.bltz 5 0xFFFC) := by decide
theorem test_decode_bgez : decodeTableWord 32 0x04A1FFFC = some (.bgez 5 0xFFFC) := by decide
theorem test_decode_bltzal : decodeTableWord 32 0x04B0FFFC = some (.bltzal 5 0xFFFC) := by decide
theorem test_decode_bgezal : decodeTableWord 32 0x04B1FFFC = some (.bgezal 5 0xFFFC) := by decide
theorem test_decode_bc0f : decodeTableWord 32 0x4100FFFC = some (.bc0f 0xFFFC) := by decide
theorem test_decode_bc1f : decodeTableWord 32 0x4500FFFC = some (.bc1f 0xFFFC) := by decide
theorem test_decode_bc2f : decodeTableWord 32 0x4900FFFC = some (.bc2f 0xFFFC) := by decide
theorem test_decode_bc3f : decodeTableWord 32 0x4D00FFFC = some (.bc3f 0xFFFC) := by decide
theorem test_decode_bc0t : decodeTableWord 32 0x4101FFFC = some (.bc0t 0xFFFC) := by decide
theorem test_decode_bc1t : decodeTableWord 32 0x4501FFFC = some (.bc1t 0xFFFC) := by decide
theorem test_decode_bc2t : decodeTableWord 32 0x4901FFFC = some (.bc2t 0xFFFC) := by decide
theorem test_decode_bc3t : decodeTableWord 32 0x4D01FFFC = some (.bc3t 0xFFFC) := by decide
theorem test_decode_mfc0 : decodeTableWord 32 0x40063800 = some (.mfc0 6 7) := by decide
theorem test_decode_mfc1 : decodeTableWord 32 0x44063800 = some (.mfc1 6 7) := by decide
theorem test_decode_mfc2 : decodeTableWord 32 0x48063800 = some (.mfc2 6 7) := by decide
theorem test_decode_mfc3 : decodeTableWord 32 0x4C063800 = some (.mfc3 6 7) := by decide
theorem test_decode_mtc0 : decodeTableWord 32 0x40863800 = some (.mtc0 6 7) := by decide
theorem test_decode_mtc1 : decodeTableWord 32 0x44863800 = some (.mtc1 6 7) := by decide
theorem test_decode_mtc2 : decodeTableWord 32 0x48863800 = some (.mtc2 6 7) := by decide
theorem test_decode_mtc3 : decodeTableWord 32 0x4C863800 = some (.mtc3 6 7) := by decide
theorem test_decode_rfe : decodeTableWord 32 0x42000010 = some .rfe := by decide
theorem test_decode_syscall : decodeTableWord 32 0x02AF378C = some (.syscall 0xABCDE) := by decide
theorem test_decode_brk : decodeTableWord 32 0x02AF378D = some (.brk 0xABCDE) := by decide
theorem test_decode_mfhi : decodeTableWord 32 0x00003810 = some (.mfhi 7) := by decide
theorem test_decode_mthi : decodeTableWord 32 0x00A00011 = some (.mthi 5) := by decide
theorem test_decode_mflo : decodeTableWord 32 0x00003812 = some (.mflo 7) := by decide
theorem test_decode_mtlo : decodeTableWord 32 0x00A00013 = some (.mtlo 5) := by decide

/-! ## Words that are no instruction (section 2) -/

theorem test_special_000001 : decodeWord .source 0x00000001 = .reserved := by decide
theorem test_special_010100 : decodeWord .source 0x00000014 = .reserved := by decide
theorem test_special_111111 : decodeWord .source 0x0000003F = .reserved := by decide
theorem test_regimm_00010 : decodeWord .source 0x04020000 = .reserved := by decide
theorem test_major_010100 : decodeWord .source 0x50000000 = .reserved := by decide
theorem test_lwc1 : decodeWord .source 0xC4000000 = .reserved := by decide
theorem test_swc2 : decodeWord .source 0xE8000000 = .reserved := by decide
theorem test_all_ones : decodeWord .source 0xFFFFFFFF = .reserved := by decide
theorem test_tlbr : decodeWord .source 0x42000001 = .copReserved 0 false := by decide
theorem test_tlbp : decodeWord .source 0x42000008 = .copReserved 0 false := by decide
theorem test_cop0_00010 : decodeWord .source 0x40400000 = .copReserved 0 false := by decide
theorem test_cop0_bc_00010 : decodeWord .source 0x41020000 = .copReserved 0 true := by decide
theorem test_cop2_operation : decodeWord .source 0x4A000000 = .copOperation 2 := by decide
theorem test_add_shamt_1 : decodeWord .source 0x00231060 = .nonZeroField (.add 2 1 3) := by decide
theorem test_mfc2_nonzero : decodeWord .source 0x48021801 = .nonZeroField (.mfc2 2 3) := by decide
theorem test_table_word_short : decodeTableWord 40 0 = none := by decide

/-! ## One step at a time (sections 3 to 8) -/

/-- A state in kernel mode about to execute the instruction at `pc`, as section 4 takes it. -/
def atPc (pc : Word) : State := { State.reset with pc := pc, npc := pc + 4, sr := 0 }

/-- About to execute the instruction at 0x80002000. -/
abbrev start : State := atPc 0x80002000

/-- `start` with the bytes 11 22 33 84 55 66 77 88 from 0x1000 up, x[4] = 0x1000 and x[5] = 0x1004 (section 3). -/
def withData (bigEndian : Bool) : State :=
  let s : State :=
    { start with
      cfg := { Config.default with bigEndian := bigEndian }
      mem := writeBytes State.reset.image [] 0x1000 [0x11, 0x22, 0x33, 0x84, 0x55, 0x66, 0x77, 0x88] }
  (s.setReg 4 0x1000).setReg 5 0x1004

/-- One step that runs the word `w`. -/
def run (s : State) (w : Nat) : Answer := step (s.withFetchWord 32 w)

/-- Two steps, the first of which runs `w` and the second `v`. -/
def run2 (s : State) (w v : Nat) : Answer :=
  match run s w with
  | .next t => run t v
  | a => a

/-- What a view of the next state gives, if there is one. -/
def get {α : Type} (a : Answer) (view : State → α) : Option α :=
  match a with
  | .next s => some (view s)
  | _ => none

/-- The destination, Cause, EPC and pc after an exception. -/
def trapView (t : State) : Word × Word × Word × Word := (t.reg 2, t.cause, t.epc, t.pc)

/-- The eight bytes from 0x1000 up. -/
def data (s : State) : List Byte := s.loadBytes 0x1000 8

theorem test_addi_1 :
    get (run ((start.setReg 1 0x7FFFFFFF).setReg 2 0x0000DEAD) 0x20220001) trapView =
      some (0x0000DEAD, 0x30, 0x80002000, 0x80000080) := by decide
theorem test_addi_2 :
    get (run ((start.setReg 1 0x7FFF8000).setReg 2 0x00000000) 0x20227FFF) (·.reg 2) = some 0x7FFFFFFF := by decide
theorem test_addiu_1 :
    get (run ((start.setReg 1 0x7FFFFFFF).setReg 2 0x00000000) 0x24220001) (·.reg 2) = some 0x80000000 := by decide
theorem test_addiu_2 :
    get (run ((start.setReg 1 0x00000000).setReg 2 0x00000000) 0x2422FFFF) (·.reg 2) = some 0xFFFFFFFF := by decide
theorem test_slti_1 :
    get (run ((start.setReg 1 0xFFFFFFFE).setReg 2 0x00000007) 0x2822FFFF) (·.reg 2) = some 0x00000001 := by decide
theorem test_slti_2 :
    get (run ((start.setReg 1 0x00000005).setReg 2 0x00000007) 0x28220005) (·.reg 2) = some 0x00000000 := by decide
theorem test_sltiu_1 :
    get (run ((start.setReg 1 0xFFFFFFFE).setReg 2 0x00000007) 0x2C22FFFF) (·.reg 2) = some 0x00000001 := by decide
theorem test_sltiu_2 :
    get (run ((start.setReg 1 0xFFFFFFFF).setReg 2 0x00000007) 0x2C22FFFF) (·.reg 2) = some 0x00000000 := by decide
theorem test_andi_1 :
    get (run ((start.setReg 1 0xFFFFFFFF).setReg 2 0x00000007) 0x30228000) (·.reg 2) = some 0x00008000 := by decide
theorem test_ori_1 :
    get (run ((start.setReg 1 0x00000000).setReg 2 0x00000007) 0x34228000) (·.reg 2) = some 0x00008000 := by decide
theorem test_xori_1 :
    get (run ((start.setReg 1 0xFFFFFFFF).setReg 2 0x00000007) 0x3822FFFF) (·.reg 2) = some 0xFFFF0000 := by decide
theorem test_lui_1 : get (run (start.setReg 2 0x00000007) 0x3C028000) (·.reg 2) = some 0x80000000 := by decide
theorem test_lui_2 : get (run (start.setReg 2 0x00000007) 0x3C02FFFF) (·.reg 2) = some 0xFFFF0000 := by decide
theorem test_add_1 :
    get (run (((start.setReg 1 0x7FFFFFFF).setReg 3 0x00000001).setReg 2 0x0000DEAD) 0x00231020) trapView =
      some (0x0000DEAD, 0x30, 0x80002000, 0x80000080) := by decide
theorem test_add_2 :
    get (run (((start.setReg 1 0xFFFFFFFF).setReg 3 0x00000001).setReg 2 0x0000DEAD) 0x00231020) (·.reg 2) =
      some 0x00000000 := by decide
theorem test_addu_1 :
    get (run (((start.setReg 1 0x7FFFFFFF).setReg 3 0x00000001).setReg 2 0x0000DEAD) 0x00231021) (·.reg 2) =
      some 0x80000000 := by decide
theorem test_sub_1 :
    get (run (((start.setReg 1 0x80000000).setReg 3 0x00000001).setReg 2 0x0000DEAD) 0x00231022) trapView =
      some (0x0000DEAD, 0x30, 0x80002000, 0x80000080) := by decide
theorem test_sub_2 :
    get (run (((start.setReg 1 0x00000005).setReg 3 0x00000007).setReg 2 0x0000DEAD) 0x00231022) (·.reg 2) =
      some 0xFFFFFFFE := by decide
theorem test_subu_1 :
    get (run (((start.setReg 1 0x80000000).setReg 3 0x00000001).setReg 2 0x0000DEAD) 0x00231023) (·.reg 2) =
      some 0x7FFFFFFF := by decide
theorem test_slt_1 :
    get (run (((start.setReg 1 0xFFFFFFFF).setReg 3 0x00000001).setReg 2 0x00000007) 0x0023102A) (·.reg 2) =
      some 0x00000001 := by decide
theorem test_slt_2 :
    get (run (((start.setReg 1 0x7FFFFFFF).setReg 3 0x80000000).setReg 2 0x00000007) 0x0023102A) (·.reg 2) =
      some 0x00000000 := by decide
theorem test_sltu_1 :
    get (run (((start.setReg 1 0xFFFFFFFF).setReg 3 0x00000001).setReg 2 0x00000007) 0x0023102B) (·.reg 2) =
      some 0x00000000 := by decide
theorem test_sltu_2 :
    get (run (((start.setReg 1 0x7FFFFFFF).setReg 3 0x80000000).setReg 2 0x00000007) 0x0023102B) (·.reg 2) =
      some 0x00000001 := by decide
theorem test_and_1 :
    get (run (((start.setReg 1 0xFF00FF00).setReg 3 0x0FF00FF0).setReg 2 0x00000007) 0x00231024) (·.reg 2) =
      some 0x0F000F00 := by decide
theorem test_or_1 :
    get (run (((start.setReg 1 0xFF00FF00).setReg 3 0x0FF00FF0).setReg 2 0x00000007) 0x00231025) (·.reg 2) =
      some 0xFFF0FFF0 := by decide
theorem test_or_2 :
    get (run ((start.setReg 1 0x00000001).setReg 3 0x00000002) 0x00230025) (·.reg 0) = some 0x00000000 := by decide
theorem test_xor_1 :
    get (run (((start.setReg 1 0xFF00FF00).setReg 3 0x0FF00FF0).setReg 2 0x00000007) 0x00231026) (·.reg 2) =
      some 0xF0F0F0F0 := by decide
theorem test_nor_1 :
    get (run (((start.setReg 1 0xFF00FF00).setReg 3 0x0FF00FF0).setReg 2 0x00000007) 0x00231027) (·.reg 2) =
      some 0x000F000F := by decide
theorem test_nor_2 : get (run (start.setReg 2 0x00000007) 0x00001027) (·.reg 2) = some 0xFFFFFFFF := by decide
theorem test_sll_1 :
    get (run ((start.setReg 1 0x80000001).setReg 2 0x00000007) 0x00011000) (·.reg 2) = some 0x80000001 := by decide
theorem test_sll_2 :
    get (run ((start.setReg 1 0x80000001).setReg 2 0x00000007) 0x000117C0) (·.reg 2) = some 0x80000000 := by decide
theorem test_srl_1 :
    get (run ((start.setReg 1 0x80000001).setReg 2 0x00000007) 0x00011002) (·.reg 2) = some 0x80000001 := by decide
theorem test_srl_2 :
    get (run ((start.setReg 1 0x80000001).setReg 2 0x00000007) 0x000117C2) (·.reg 2) = some 0x00000001 := by decide
theorem test_sra_1 :
    get (run ((start.setReg 1 0x80000001).setReg 2 0x00000007) 0x000117C3) (·.reg 2) = some 0xFFFFFFFF := by decide
theorem test_sra_2 :
    get (run ((start.setReg 1 0x7FFFFFFF).setReg 2 0x00000007) 0x000117C3) (·.reg 2) = some 0x00000000 := by decide
theorem test_sllv_1 :
    get (run (((start.setReg 1 0x00000001).setReg 3 0xFFFFFFFF).setReg 2 0x00000007) 0x00611004) (·.reg 2) =
      some 0x80000000 := by decide
theorem test_sllv_2 :
    get (run (((start.setReg 1 0x00000001).setReg 3 0x00000020).setReg 2 0x00000007) 0x00611004) (·.reg 2) =
      some 0x00000001 := by decide
theorem test_srlv_1 :
    get (run (((start.setReg 1 0x80000000).setReg 3 0x0000003F).setReg 2 0x00000007) 0x00611006) (·.reg 2) =
      some 0x00000001 := by decide
theorem test_srlv_2 :
    get (run (((start.setReg 1 0xFF000000).setReg 3 0x00000008).setReg 2 0x00000007) 0x00611006) (·.reg 2) =
      some 0x00FF0000 := by decide
theorem test_srav_1 :
    get (run (((start.setReg 1 0x80000000).setReg 3 0x00000024).setReg 2 0x00000007) 0x00611007) (·.reg 2) =
      some 0xF8000000 := by decide
theorem test_srav_2 :
    get (run (((start.setReg 1 0xFF000000).setReg 3 0x00000008).setReg 2 0x00000007) 0x00611007) (·.reg 2) =
      some 0xFFFF0000 := by decide
theorem test_mult_1 :
    get (run ((start.setReg 1 0xFFFFFFFF).setReg 3 0xFFFFFFFF) 0x0023000E) (fun t => (t.hi, t.lo)) =
      some (0x00000000,0x00000001) := by decide
theorem test_mult_2 :
    get (run ((start.setReg 1 0x80000000).setReg 3 0x80000000) 0x0023000E) (fun t => (t.hi, t.lo)) =
      some (0x40000000,0x00000000) := by decide
theorem test_multu_1 :
    get (run ((start.setReg 1 0xFFFFFFFF).setReg 3 0xFFFFFFFF) 0x00230018) (fun t => (t.hi, t.lo)) =
      some (0xFFFFFFFE,0x00000001) := by decide
theorem test_multu_2 :
    get (run ((start.setReg 1 0x80000000).setReg 3 0x00000002) 0x00230018) (fun t => (t.hi, t.lo)) =
      some (0x00000001,0x00000000) := by decide
theorem test_div_1 :
    get (run ((start.setReg 1 0x00000007).setReg 3 0xFFFFFFFE) 0x0023001A) (fun t => (t.hi, t.lo)) =
      some (0x00000001,0xFFFFFFFD) := by decide
theorem test_div_2 :
    get (run ((start.setReg 1 0xFFFFFFF9).setReg 3 0x00000002) 0x0023001A) (fun t => (t.hi, t.lo)) =
      some (0xFFFFFFFF,0xFFFFFFFD) := by decide
theorem test_divu_1 :
    get (run ((start.setReg 1 0xFFFFFFFE).setReg 3 0x00000010) 0x0023001B) (fun t => (t.hi, t.lo)) =
      some (0x0000000E,0x0FFFFFFF) := by decide
theorem test_divu_2 :
    get (run ((start.setReg 1 0x80000000).setReg 3 0xFFFFFFFF) 0x0023001B) (fun t => (t.hi, t.lo)) =
      some (0x80000000,0x00000000) := by decide
theorem test_beq_1 :
    get (run ((start.setReg 1 0x00000005).setReg 3 0x00000005) 0x10230004) (·.npc) = some 0x80002014 := by decide
theorem test_beq_2 :
    get (run ((start.setReg 1 0x00000005).setReg 3 0x00000006) 0x10230004) (·.npc) = some 0x80002008 := by decide
theorem test_bne_1 :
    get (run ((start.setReg 1 0x00000005).setReg 3 0x00000006) 0x1423FFFE) (·.npc) = some 0x80001FFC := by decide
theorem test_bne_2 :
    get (run ((start.setReg 1 0x00000005).setReg 3 0x00000005) 0x1423FFFE) (·.npc) = some 0x80002008 := by decide
theorem test_blez_1 : get (run (start.setReg 1 0x00000000) 0x18200003) (·.npc) = some 0x80002010 := by decide
theorem test_blez_2 : get (run (start.setReg 1 0x00000001) 0x18200003) (·.npc) = some 0x80002008 := by decide
theorem test_bgtz_1 : get (run (start.setReg 1 0x00000000) 0x1C200003) (·.npc) = some 0x80002008 := by decide
theorem test_bgtz_2 : get (run (start.setReg 1 0x00000001) 0x1C200003) (·.npc) = some 0x80002010 := by decide
theorem test_bltz_1 : get (run (start.setReg 1 0x00000000) 0x04200003) (·.npc) = some 0x80002008 := by decide
theorem test_bltz_2 : get (run (start.setReg 1 0x80000000) 0x04200003) (·.npc) = some 0x80002010 := by decide
theorem test_bgez_1 : get (run (start.setReg 1 0x00000000) 0x04210003) (·.npc) = some 0x80002010 := by decide
theorem test_bgez_2 : get (run (start.setReg 1 0x80000000) 0x04210003) (·.npc) = some 0x80002008 := by decide
theorem test_bltzal_1 : get (run (start.setReg 1 0x00000000) 0x04300003) (·.reg 31) = some 0x80002008 := by decide
theorem test_bltzal_2 : get (run (start.setReg 1 0x00000000) 0x04300003) (·.npc) = some 0x80002008 := by decide
theorem test_bgezal_1 : get (run (start.setReg 1 0x00000000) 0x04310003) (·.reg 31) = some 0x80002008 := by decide
theorem test_bgezal_2 : get (run (start.setReg 1 0x00000000) 0x04310003) (·.npc) = some 0x80002010 := by decide
theorem test_j_1 : get (run start 0x08000040) (·.npc) = some 0x80000100 := by decide
theorem test_j_2 : get (run start 0x0BFFFFFF) (·.npc) = some 0x8FFFFFFC := by decide
theorem test_jal_1 : get (run (atPc 0x80000010) 0x0C000100) (·.npc) = some 0x80000400 := by decide
theorem test_jal_2 : get (run (atPc 0x80000010) 0x0C000100) (·.reg 31) = some 0x80000018 := by decide
theorem test_jr_1 : get (run (start.setReg 1 0xA0003000) 0x00200008) (·.npc) = some 0xA0003000 := by decide
theorem test_jalr_1 : get (run (start.setReg 1 0xA0003000) 0x00201009) (·.reg 2) = some 0x80002008 := by decide
theorem test_jalr_2 : get (run (start.setReg 1 0xA0003000) 0x00201009) (·.npc) = some 0xA0003000 := by decide
theorem test_lb_1 : get (run2 (withData true) 0x80820000 0) (·.reg 2) = some 0x00000011 := by decide
theorem test_lb_2 : get (run2 (withData true) 0x80820003 0) (·.reg 2) = some 0xFFFFFF84 := by decide
theorem test_lbu_1 : get (run2 (withData true) 0x90820003 0) (·.reg 2) = some 0x00000084 := by decide
theorem test_lbu_2 : get (run2 (withData false) 0x90820003 0) (·.reg 2) = some 0x00000084 := by decide
theorem test_lh_1 : get (run2 (withData true) 0x84820000 0) (·.reg 2) = some 0x00001122 := by decide
theorem test_lh_2 : get (run2 (withData false) 0x84820000 0) (·.reg 2) = some 0x00002211 := by decide
theorem test_lhu_1 : get (run2 (withData true) 0x94820002 0) (·.reg 2) = some 0x00003384 := by decide
theorem test_lhu_2 : get (run2 (withData false) 0x94820002 0) (·.reg 2) = some 0x00008433 := by decide
theorem test_lw_1 : get (run2 (withData true) 0x8C820000 0) (·.reg 2) = some 0x11223384 := by decide
theorem test_lw_2 : get (run2 (withData false) 0x8C820000 0) (·.reg 2) = some 0x84332211 := by decide
theorem test_lwl_1 :
    get (run2 ((withData true).setReg 2 0xAABBCCDD) 0x88820001 0) (·.reg 2) = some 0x223384DD := by decide
theorem test_lwl_2 :
    get (run2 ((withData false).setReg 2 0xAABBCCDD) 0x88820002 0) (·.reg 2) = some 0x332211DD := by decide
theorem test_lwr_1 :
    get (run2 ((withData true).setReg 2 0xAABBCCDD) 0x98820001 0) (·.reg 2) = some 0xAABB1122 := by decide
theorem test_lwr_2 :
    get (run2 ((withData false).setReg 2 0xAABBCCDD) 0x98820002 0) (·.reg 2) = some 0xAABB8433 := by decide
theorem test_sb_1 :
    get (run ((withData true).setReg 2 0xA1B2C3D4) 0xA0820001) data =
      some [0x11,0xD4,0x33,0x84,0x55,0x66,0x77,0x88] := by decide
theorem test_sb_2 :
    get (run ((withData false).setReg 2 0xA1B2C3D4) 0xA0820001) data =
      some [0x11,0xD4,0x33,0x84,0x55,0x66,0x77,0x88] := by decide
theorem test_sh_1 :
    get (run ((withData true).setReg 2 0xA1B2C3D4) 0xA4820002) data =
      some [0x11,0x22,0xC3,0xD4,0x55,0x66,0x77,0x88] := by decide
theorem test_sh_2 :
    get (run ((withData false).setReg 2 0xA1B2C3D4) 0xA4820002) data =
      some [0x11,0x22,0xD4,0xC3,0x55,0x66,0x77,0x88] := by decide
theorem test_sw_1 :
    get (run ((withData true).setReg 2 0xA1B2C3D4) 0xAC820004) data =
      some [0x11,0x22,0x33,0x84,0xA1,0xB2,0xC3,0xD4] := by decide
theorem test_sw_2 :
    get (run ((withData false).setReg 2 0xA1B2C3D4) 0xAC820004) data =
      some [0x11,0x22,0x33,0x84,0xD4,0xC3,0xB2,0xA1] := by decide
theorem test_swl_1 :
    get (run ((withData true).setReg 2 0xA1B2C3D4) 0xa8820001) (fun t => t.loadBytes 0x1000 4) =
      some [0x11,0xA1,0xB2,0xC3] := by decide
theorem test_swl_2 :
    get (run ((withData false).setReg 2 0xA1B2C3D4) 0xa8820002) (fun t => t.loadBytes 0x1000 4) =
      some [0xC3,0xB2,0xA1,0x84] := by decide
theorem test_swr_1 :
    get (run ((withData true).setReg 2 0xA1B2C3D4) 0xb8820001) (fun t => t.loadBytes 0x1000 4) =
      some [0xC3,0xD4,0x33,0x84] := by decide
theorem test_swr_2 :
    get (run ((withData false).setReg 2 0xA1B2C3D4) 0xb8820002) (fun t => t.loadBytes 0x1000 4) =
      some [0x11,0x22,0xD4,0xC3] := by decide
theorem test_address_error_1 :
    get (run (withData true) 0x84820001) (fun t => (t.cause, t.badVAddr)) = some (0x00000010,0x00001001) := by decide
theorem test_address_error_2 :
    get (run (withData true) 0x94820003) (fun t => (t.cause, t.badVAddr)) = some (0x00000010,0x00001003) := by decide
theorem test_address_error_3 :
    get (run (withData true) 0x8C820002) (fun t => (t.cause, t.badVAddr)) = some (0x00000010,0x00001002) := by decide
theorem test_address_error_4 :
    get (run (withData true) 0xA4820003) (fun t => (t.cause, t.badVAddr)) = some (0x00000014,0x00001003) := by decide
theorem test_address_error_5 :
    get (run (withData true) 0xAC820001) (fun t => (t.cause, t.badVAddr)) = some (0x00000014,0x00001001) := by decide

/-! ### Bytes outside the launch image (20_memory.md R81): a store there leaves nothing, a word stored across its end half -/

theorem test_store_outside_image :
    get (run { withData true with image := [⟨0x1002, 0x1005⟩] } 0xAC840000) (fun t => (t.mem.read 0x1001, t.mem.read 0x1002)) =
      some (some 0x22, some 0x10) := by decide
theorem test_load_outside_image :
    get (run { withData true with image := [⟨0x2000, 0x2003⟩] } 0xAC840000) (fun t => t.cell 0x1000) = some none := by decide

/-! ### Other settings of SEGMENTS and TRAP (00_scope.md R8) -/

theorem test_moved_segments :
    physical { Segments.default with kseg0 := ⟨0, 0x0FFFFFFF⟩ } 0x20000004 = 4 ∧
      physical { Segments.default with kseg0 := ⟨0, 0x0FFFFFFF⟩ } 0x80000004 = 0x80000004 := by decide
theorem test_moved_trap :
    get (run { start with cfg := { Config.default with
      trap := { Trap.default with systemCall := ⟨3, 0x80000200, 0⟩, epcNumber := 20, cause := ⟨31, 28, 8, 3⟩ } } } 0x0000000C)
      (fun t => (t.cause, t.pc, t.cp0Value 20)) = some (0x18, 0x80000200, 0x80002000) := by decide

/-! ### Coprocessor 0, HI, LO and the condition lines (section 8) -/

theorem test_mtc0_status : get (run (start.setReg 8 0x10000000) 0x40886000) (·.sr) = some 0x10000000 := by decide
theorem test_mtc0_epc : get (run (start.setReg 8 0x80010000) 0x40887000) (·.epc) = some 0x80010000 := by decide
theorem test_mfc0_epc :
    get (run2 { start with epc := 0x80010014 } 0x401A7000 0) (·.reg 26) = some 0x80010014 := by decide
theorem test_mfc0_user_mode : get (run { atPc 0x2000 with sr := 2 } 0x40026000) (·.cause) = some 0x00000028 := by decide
theorem test_rfe_1 : get (run { start with sr := 0x1000002C } 0x42000010) (·.sr) = some 0x1000002B := by decide
theorem test_rfe_2 : get (run { start with sr := 0x0000003F } 0x42000010) (·.sr) = some 0x0000003C := by decide
theorem test_syscall_bev :
    get (run { start with sr := 0x00400001 } 0x0000000C) (fun t => (t.epc, t.sr, t.pc)) =
      some (0x80002000, 0x00400004, 0xBFC00180) := by decide
theorem test_break_code :
    get (run { start with sr := 1 } 0x0007000D) (fun t => (t.epc, t.cause, t.sr, t.pc, t.npc)) =
      some (0x80002000, 0x24, 4, 0x80000080, 0x80000084) := by decide
theorem test_syscall_in_slot :
    get (run2 { start with sr := 1 } 0x10000004 0x0000000C) (fun t => (t.epc, t.cause, t.sr, t.pc)) =
      some (0x80002000, 0x80000020, 4, 0x80000080) := by decide
theorem test_mfhi :
    get (run { start with hi := 0x12345678, hiDefined := true } 0x00001010) (·.reg 2) = some 0x12345678 := by decide
theorem test_mflo :
    get (run { start with lo := 0x12345678, loDefined := true } 0x00001012) (·.reg 2) = some 0x12345678 := by decide
theorem test_mthi : get (run (start.setReg 1 0xBEEF) 0x00200011) (·.hi) = some 0xBEEF := by decide
theorem test_mtlo : get (run (start.setReg 1 0xBEEF) 0x00200013) (·.lo) = some 0xBEEF := by decide
theorem test_bc0f_taken : get (run { start with sr := 0x10000000 } 0x41000004) (·.npc) = some 0x80002014 := by decide
theorem test_bc0f_not_taken :
    get (run { start with sr := 0x10000000, cpcPrev := 1 } 0x41000004) (·.npc) = some 0x80002008 := by decide
theorem test_bc0t_taken :
    get (run { start with sr := 0x10000000, cpcPrev := 1 } 0x4101FFFF) (·.npc) = some 0x80002000 := by decide
theorem test_bc2t_unusable : get (run start 0x49010004) (·.cause) = some 0x2000002C := by decide
theorem test_mfc1_unusable : get (run start 0x44000000) (·.cause) = some 0x1000002C := by decide
theorem test_interrupt_in_slot :
    get (run { atPc 0x80002004 with sr := 0x401, ds := true, irq := 1 } 0)
      (fun t => (t.epc, t.causeValue, t.sr, t.pc)) = some (0x80002000, 0x80000400, 0x404, 0x80000080) := by decide
theorem test_interrupt_masked :
    get (run { atPc 0x80002004 with sr := 1, irq := 1 } 0) (·.pc) = some 0x80002008 := by decide

/-! ## The statements with hypotheses: states that meet them

One theorem, or one for each clause, shows a state and operands that meet a statement's hypotheses together. -/

/-- Kernel mode, at an address of kseg0. -/
abbrev kernel : State := start

/-- User mode, at an address of kuseg. -/
abbrev user : State := { atPc 0x00002000 with sr := 2 }

/-- Whether there is a next state. -/
def answers (a : Answer) : Bool := (get a (fun _ => ())).isSome

theorem next_of_answers {a : Answer} (h : answers a = true) : ∃ t, a = .next t := by
  cases a with
  | next t => exact ⟨t, rfl⟩
  | fault _ => cases h
  | refused _ => cases h

theorem not_consumed {s : State} (fromHi : Bool) (h : s.hist2 = none) : ¬ ConsumedRead fromHi s := by
  rintro ⟨e, he, -⟩
  rw [h] at he
  cases he

theorem not_recent {s : State} (fromHi : Bool) (q : Reg) (h1 : s.hist1 = none) (h2 : s.hist2 = none) :
    ¬ RecentRead fromHi q s := by
  rintro ⟨e, he | he, -⟩
  · rw [h1] at he; cases he
  · rw [h2] at he; cases he

theorem reads_plain {s : State} (writesHi writesLo : Bool) (u : FreeUse) (r : Reg) (h1 : s.hist1 = none)
    (h2 : s.hist2 = none) : ReadsOperand writesHi writesLo u r (s.operand u r) s :=
  ⟨fun _ => rfl, fun _ _ h => (h.elim (fun x => not_recent true r h1 h2 x.2) (fun x => not_recent false r h1 h2 x.2)).elim⟩

theorem witness_EncodeOfDecode : decodeWord .source 0x80A6FFFC = .instr (.lb 6 0xFFFC 5) := by decide

theorem witness_EncodeOfDecode_nonZeroField : decodeWord .source 0x00231060 = .nonZeroField (.add 2 1 3) := by decide

theorem witness_InstructionByteOrder_big :
    (0x80 : Byte) = (0x80A6FFFC#32).extractLsb' 24 8 ∧ (0xA6 : Byte) = (0x80A6FFFC#32).extractLsb' 16 8 ∧
      (0xFF : Byte) = (0x80A6FFFC#32).extractLsb' 8 8 ∧ (0xFC : Byte) = (0x80A6FFFC#32).extractLsb' 0 8 := by decide

theorem witness_InstructionByteOrder_little :
    (0xFC : Byte) = (0x80A6FFFC#32).extractLsb' 0 8 ∧ (0xFF : Byte) = (0x80A6FFFC#32).extractLsb' 8 8 ∧
      (0xA6 : Byte) = (0x80A6FFFC#32).extractLsb' 16 8 ∧ (0x80 : Byte) = (0x80A6FFFC#32).extractLsb' 24 8 := by decide

theorem witness_StepRunsDecodedInstruction :
    Fetches (kernel.withFetchWord 32 0x24A68234) [0x24, 0xA6, 0x82, 0x34] ∧
      decodeBytes true .source [0x24, 0xA6, 0x82, 0x34] = .instr (.addiu 6 5 0x8234) := by
  unfold Fetches; decide

/-- The last word of kuseg. -/
theorem witness_StepRunsDecodedInstruction_bytes :
    let s := State.withFetchWord { user with pc := 0x7FFFFFFC } 32 0x24A68234
    s.beginStep.interruptPending = false ∧ Accessible .fetch 4 s.pc s.executing ∧
      s.cell 0x7FFFFFFC = some 0x24 ∧ s.cell 0x7FFFFFFD = some 0xA6 ∧ s.cell 0x7FFFFFFE = some 0x82 ∧
      s.cell 0x7FFFFFFF = some 0x34 ∧ s.stored = [] := by
  unfold Accessible; decide

/-- The first byte of the instruction was stored to. -/
theorem witness_StepRunsDecodedInstruction_stored :
    let s : State := { State.withFetchWord user 32 0x24A68234 with stored := [0x2000] }
    s.beginStep.interruptPending = false ∧ Accessible .fetch 4 s.pc s.executing ∧
      (physical s.cfg.segments s.pc + BitVec.ofNat 32 0).toNat ∈ s.stored := by
  unfold Accessible; decide

/-- The launch image ends after the third byte, whose fourth is not stored to. -/
theorem witness_StepRunsDecodedInstruction_outside :
    let s : State := { State.withFetchWord user 32 0x24A68234 with image := [⟨0x2000, 0x2002⟩] }
    s.beginStep.interruptPending = false ∧ Accessible .fetch 4 s.pc s.executing ∧
      (∀ j < 3, (physical s.cfg.segments s.pc + BitVec.ofNat 32 j).toNat ∉ s.stored ∧
        s.cell (physical s.cfg.segments s.pc + BitVec.ofNat 32 j).toNat ≠ none) ∧
      (physical s.cfg.segments s.pc + BitVec.ofNat 32 3).toNat ∉ s.stored ∧
      s.inImage (physical s.cfg.segments s.pc + BitVec.ofNat 32 3).toNat = false := by
  unfold Accessible; decide

/-- No byte has a value. -/
theorem witness_StepRunsDecodedInstruction_unwritten :
    user.beginStep.interruptPending = false ∧ Accessible .fetch 4 user.pc user.executing ∧
      (physical user.cfg.segments user.pc + BitVec.ofNat 32 0).toNat ∉ user.stored ∧
      user.mem.read (physical user.cfg.segments user.pc + BitVec.ofNat 32 0).toNat = none := by
  unfold Accessible; decide

theorem witness_UndefinedEncodingTraps_reserved :
    Fetches (kernel.withFetchWord 32 0xFFFFFFFF) [0xFF, 0xFF, 0xFF, 0xFF] ∧
      decodeBytes true .source [0xFF, 0xFF, 0xFF, 0xFF] = .reserved := by
  unfold Fetches; decide

/-- A COP0 operation that is not RFE: no usability check. -/
theorem witness_UndefinedEncodingTraps_cop0 :
    Fetches (kernel.withFetchWord 32 0x42000001) [0x42, 0, 0, 1] ∧
      decodeBytes true .source [0x42, 0, 0, 1] = .copReserved 0 false := by
  unfold Fetches; decide

theorem witness_UndefinedEncodingTraps_usable :
    let s := State.withFetchWord { kernel with sr := 0x10000000 } 32 0x41020000
    Fetches s [0x41, 2, 0, 0] ∧ decodeBytes true .source [0x41, 2, 0, 0] = .copReserved 0 true ∧
      s.executing.copUsable 0 = true := by
  unfold Fetches; decide

theorem witness_UndefinedEncodingTraps_unusable :
    let s := State.withFetchWord kernel 32 0x41020000
    Fetches s [0x41, 2, 0, 0] ∧ decodeBytes true .source [0x41, 2, 0, 0] = .copReserved 0 true ∧
      s.executing.copUsable 0 = false := by
  unfold Fetches; decide

/-- A COPz operation, with Cu2 and without Cu3. -/
theorem witness_UndefinedEncodingTraps_operation :
    let s := State.withFetchWord { kernel with sr := 0x40000000 } 32 0x4A000000
    let t := State.withFetchWord { kernel with sr := 0x40000000 } 32 0x4E000000
    (Fetches s [0x4A, 0, 0, 0] ∧ decodeBytes true .source [0x4A, 0, 0, 0] = .copOperation 2 ∧
      s.executing.copUsable 2 = true) ∧
    Fetches t [0x4E, 0, 0, 0] ∧ decodeBytes true .source [0x4E, 0, 0, 0] = .copOperation 3 ∧
      t.executing.copUsable 3 = false := by
  unfold Fetches; decide

/-- ADD with a shamt of 1, under each policy: no usability check. -/
theorem witness_UndefinedEncodingTraps_nonZeroField (policy : ReservedFieldPolicy) :
    let s := State.withFetchWord { kernel with cfg := { Config.default with reservedFieldPolicy := policy } } 32 0x00231060
    Fetches s [0, 0x23, 0x10, 0x60] ∧ decodeBytes true .source [0, 0x23, 0x10, 0x60] = .nonZeroField (.add 2 1 3) ∧
      (∀ z rt rd, z ≠ 0 → (Instr.add 2 1 3 = moveFrom z rt rd ∨ Instr.add 2 1 3 = moveTo z rt rd) →
        s.executing.copUsable z = true) ∧
      ∀ rt rd, (Instr.add 2 1 3 = .mfc0 rt rd ∨ Instr.add 2 1 3 = .mtc0 rt rd ∨ Instr.add 2 1 3 = .rfe) →
        s.executing.userMode = false := by
  refine ⟨?_, by decide, fun z _ _ _ h => ?_, fun _ _ _ => ?_⟩
  · cases policy <;> (unfold Fetches; decide)
  · unfold moveFrom moveTo at h
    split at h <;> simp at h
  · cases policy <;> decide

/-- MFC2 with a bit of its constant field set, without Cu2. -/
theorem witness_UndefinedEncodingTraps_nonZeroField_unusable :
    let s := State.withFetchWord kernel 32 0x48021801
    Fetches s [0x48, 2, 0x18, 1] ∧ decodeBytes true .source [0x48, 2, 0x18, 1] = .nonZeroField (.mfc2 2 3) ∧
      Instr.mfc2 2 3 = moveFrom 2 2 3 ∧ (2 : Unit4) ≠ 0 ∧ s.executing.copUsable 2 = false := by
  unfold Fetches; decide

/-- MTC0 with a bit of its constant field set, in user mode without Cu0. -/
theorem witness_UndefinedEncodingTraps_nonZeroField_unprivileged :
    let s := State.withFetchWord user 32 0x40886001
    Fetches s [0x40, 0x88, 0x60, 1] ∧ decodeBytes true .source [0x40, 0x88, 0x60, 1] = .nonZeroField (.mtc0 8 12) ∧
      s.executing.userMode = true ∧ s.executing.copUsable 0 = false := by
  unfold Fetches; decide

theorem witness_InterruptTaken :
    let s : State := { kernel with sr := 0x8001, irq := 0x20 }
    s.mtc0 = none ∧ s.beginStep.interruptPending = true ∧ ∃ t, step s = .next t :=
  ⟨by decide, by decide, next_of_answers (by decide)⟩

/-- Directly after an MTC0 that enabled interrupts: not yet. -/
theorem witness_InterruptTaken_status :
    let s : State := { kernel with sr := 0x8001, irq := 0x20, mtc0 := some (12, 0) }
    s.cp0Register 12 = .status ∧ s.beginStep.interruptPending = false := by decide

/-- Directly after an MTC0 that cleared the software interrupt: still taken. -/
theorem witness_InterruptTaken_cause :
    let s : State := { kernel with sr := 0x0101, mtc0 := some (13, 0x100) }
    s.cp0Register 13 = .cause ∧ s.beginStep.interruptPending = true := by decide

theorem witness_FetchErrors_alignment :
    let s := atPc 0x80002002
    s.beginStep.interruptPending = false ∧ s.pc.toNat % 4 ≠ 0 := by decide

theorem witness_FetchErrors_mode :
    let s : State := { user with pc := 0x80000000 }
    s.beginStep.interruptPending = false ∧ s.executing.userMode = true ∧ 2 ^ 31 ≤ s.pc.toNat := by decide

theorem witness_FetchErrors_bus :
    let s : State := { kernel with cfg := { Config.default with busErrors := [⟨0x2000, 0x2000, .fetch⟩] } }
    s.beginStep.interruptPending = false ∧ s.pc.toNat % 4 = 0 ∧ ¬ (s.executing.userMode = true ∧ 2 ^ 31 ≤ s.pc.toNat) ∧
      busRefuses s.cfg (physical s.cfg.segments s.pc) .fetch = true := by decide

theorem witness_ResetState :
    6 ≤ Config.default.trap.status.bev ∧ Config.default.trap.status.bev < 32 ∧
      State.reset = State.resetWith Config.default := by decide

theorem witness_EveryStepKeepsInvariant :
    let s := State.reset.withFetchWord 32 0x24A68234
    s.Inv ∧ ∃ t, step s = .next t := by
  refine ⟨⟨by decide, by decide, by decide, by decide, by decide, by decide, ?_, ?_, ?_⟩, next_of_answers (by decide)⟩
  · intro r v h; cases h
  · intro e h; cases h
  · intro e h; cases h

theorem witness_EveryStepKeepsConfiguration :
    ∃ t, step (State.withFetchWord { kernel with inputs := [⟨0x3F, 0xF⟩] } 32 0x24A68234) = .next t :=
  next_of_answers (by decide)

theorem witness_UserModeIsConfined_plain :
    let s := State.withFetchWord user 32 0x24A68234
    s.sr.getLsbD 1 = true ∧ s.sr.getLsbD 28 = false ∧ s.mtc0 = none ∧ ∃ t, step s = .next t :=
  ⟨by decide, by decide, by decide, next_of_answers (by decide)⟩

/-- MTC0 in user mode: Reserved Instruction. -/
theorem witness_UserModeIsConfined_trap :
    let s := State.withFetchWord user 32 0x40886000
    s.sr.getLsbD 1 = true ∧ s.sr.getLsbD 28 = false ∧ s.mtc0 = none ∧ ∃ t, step s = .next t :=
  ⟨by decide, by decide, by decide, next_of_answers (by decide)⟩

theorem witness_OnlyStoresWriteMemory_lw :
    (∃ t, exec (.lw 2 0 4) (withData true) = .next t) ∧
      ∀ rt offset base, Instr.lw 2 0 4 ≠ .sb rt offset base ∧ Instr.lw 2 0 4 ≠ .sh rt offset base ∧
        Instr.lw 2 0 4 ≠ .sw rt offset base ∧ Instr.lw 2 0 4 ≠ .swl rt offset base ∧
        Instr.lw 2 0 4 ≠ .swr rt offset base :=
  ⟨next_of_answers (by decide), by intros; simp⟩

theorem witness_OnlyStoresWriteMemory_sw :
    (∃ t, exec (.sw 2 0 4) (withData true) = .next t) ∧
      ∀ rs rt, Instr.sw 2 0 4 ≠ .mult rs rt ∧ Instr.sw 2 0 4 ≠ .multu rs rt ∧ Instr.sw 2 0 4 ≠ .div rs rt ∧
        Instr.sw 2 0 4 ≠ .divu rs rt ∧ Instr.sw 2 0 4 ≠ .mthi rs ∧ Instr.sw 2 0 4 ≠ .mtlo rs :=
  ⟨next_of_answers (by decide), by intros; simp⟩

/-- After an MFLO of r5: an instruction that uses r5. -/
theorem witness_HistoriesMoveOn_completes :
    let s : State := { kernel with hist1 := some ⟨false, 5, false⟩ }
    (∃ t, exec (.addu 2 5 0) s = .next t) ∧ ReadsRegister (.addu 2 5 0) 5 ∧ ¬ SpoilsRead (.addu 2 5 0) ⟨false, 5, false⟩ :=
  ⟨next_of_answers (by decide), .inr (.inr (.inr (.inl ⟨2, 5, 0, .inl rfl, by simp⟩))), by rintro ⟨_, _, h⟩; simp at h⟩

/-- After an MFLO of r5: a load from a misaligned address in r5. -/
theorem witness_HistoriesMoveOn_traps :
    let s : State := { kernel with hist1 := some ⟨false, 5, false⟩ }
    (∃ t, exec (.lw 2 1 5) s = .next t) ∧ TestsRegister (.lw 2 1 5) 5 :=
  ⟨next_of_answers (by decide), .inl ⟨2, 1, by simp⟩⟩

theorem witness_OperandReads_stale :
    let s : State := { kernel with stale := some 5 }
    s.stale = some 5 ∧ (5 : Reg) ≠ 0 ∧ s.stale ≠ some 6 ∧ s.mtc0 = none := by decide

/-- An MTC0 to Status that changed Cu1 and KUc alone. -/
theorem witness_OperandReads_status :
    let s : State := { kernel with sr := 0x20000002, mtc0 := some (12, 0) }
    s.mtc0 = some (12, 0) ∧ s.cp0Register 12 = .status ∧
      1 = (if s.cfg.trap.status.kernelUserUpper then 1 else 0) ∧ 29 = s.cfg.trap.status.cu + (1 : Unit4).toNat ∧
      31 = s.cfg.trap.status.cu + (3 : Unit4).toNat ∧ (0 : Word).getLsbD 31 = s.sr.getLsbD 31 ∧
      (0 : Word).getLsbD 1 ≠ s.sr.getLsbD 1 ∧ (0 : Word).getLsbD 29 ≠ s.sr.getLsbD 29 := by decide

theorem witness_LoadDelivery :
    ({ kernel with ld := some (31, 7) } : State).ld = some (31, 7) ∧ (31 : Reg) ≠ 0 ∧ kernel.ld = none := by decide

/-- The ends of kseg0 where SEGMENTS makes it the second word of memory. -/
theorem witness_AddressesAndSegments_moved :
    let segments : Segments := { Segments.default with kseg0 := ⟨1, 1⟩, kseg1 := ⟨0x3FFFFFFF, 0x3FFFFFFF⟩ }
    InSegment segments.kseg0 4 ∧ InSegment segments.kseg0 7 ∧ ¬ InSegment segments.kseg0 8 ∧ ¬ InSegment segments.kseg1 8 ∧
      InSegment segments.kseg1 0xFFFFFFFF := by
  unfold InSegment; decide

theorem witness_AddressesAndSegments :
    (0x7FFFFFFF : Word).toNat < 0x80000000 ∧
      (0x80000000 ≤ (0x80000000 : Word).toNat ∧ (0x9FFFFFFF : Word).toNat < 0xA0000000) ∧
      (0xA0000000 ≤ (0xA0000000 : Word).toNat ∧ (0xBFFFFFFF : Word).toNat < 0xC0000000) ∧
      0xC0000000 ≤ (0xC0000000 : Word).toNat := by decide

/-- Sums at both sides of each bound. -/
theorem witness_AddResultOrOverflow :
    let s := (kernel.setReg 1 0x7FFFFFFF).setReg 3 0x80000000
    ((s.rs 1).toInt + (s.rt 0).toInt = 2 ^ 31 - 1 ∧ (s.rs 3).toInt + (0 : BitVec 16).toInt = -2 ^ 31) ∧
      (s.rs 1).toInt + (1 : BitVec 16).toInt = 2 ^ 31 ∧ (s.rs 3).toInt + (0xFFFF : BitVec 16).toInt = -2 ^ 31 - 1 := by decide

theorem witness_SubResultOrOverflow :
    let s := (kernel.setReg 1 0x80000000).setReg 3 1
    (s.rs 1).toInt - (s.rt 0).toInt = -2 ^ 31 ∧ (s.rs 1).toInt - (s.rt 3).toInt = -2 ^ 31 - 1 ∧
      (s.rs 0).toInt - (s.rt 1).toInt = 2 ^ 31 := by decide

theorem witness_MultiplyResult :
    ¬ ConsumedRead true kernel ∧ ¬ ConsumedRead false kernel ∧ ReadsOperand true true .staleRs 1 (kernel.rs 1) kernel ∧
      ReadsOperand true true .staleRt 3 (kernel.rt 3) kernel :=
  ⟨not_consumed _ rfl, not_consumed _ rfl, reads_plain _ _ _ _ rfl rfl, reads_plain _ _ _ _ rfl rfl⟩

/-- An operand that the MFHI just before has written. -/
theorem witness_MultiplyResult_recent :
    let s : State := { kernel with hist1 := some ⟨true, 1, false⟩ }
    ¬ ConsumedRead true s ∧ ¬ ConsumedRead false s ∧ ReadsOperand true true .staleRs 1 (s.free (.hiLoResult 1)) s ∧
      ReadsOperand true true .staleRt 0 0 s := by
  refine ⟨not_consumed _ rfl, not_consumed _ rfl, ⟨fun h => ?_, fun _ _ _ => rfl⟩, ⟨fun _ => rfl, fun h => absurd rfl h⟩⟩
  rcases h with h | h | h
  · exact absurd h (by decide)
  · cases h
  · exact absurd ⟨rfl, _, .inl rfl, rfl, rfl⟩ h.1

theorem witness_DivideSignedResult_zero : (0 : Word).toInt = 0 := by decide
theorem witness_DivideSignedResult_corner : (0x80000000 : Word).toInt = -2 ^ 31 ∧ (0xFFFFFFFF : Word).toInt = -1 := by decide

/-- -7 by 2. -/
theorem witness_DivideSignedResult_quotient :
    (0xFFFFFFF9 : Word).toInt = (2 : Word).toInt * (-3) + (-1) ∧ |(-1 : Int)| < |(2 : Word).toInt| ∧
      (0 ≤ (0xFFFFFFF9 : Word).toInt → (0 : Int) ≤ -1) ∧ ((0xFFFFFFF9 : Word).toInt ≤ 0 → (-1 : Int) ≤ 0) ∧
      (-3 : Int) < 2 ^ 31 := by decide

theorem witness_DivideUnsignedResult :
    (0 : Word).toNat = 0 ∧ (0xFFFFFFFF : Word).toNat = (0x10 : Word).toNat * 0x0FFFFFFF + 0xF ∧
      0xF < (0x10 : Word).toNat := by decide

theorem witness_MoveFromHiLoResult :
    (Instr.mfhi 2 = .mfhi 2 ∧ (7 : Word) = if ({ kernel with hi := 7, hiDefined := true } : State).hiDefined then 7 else 0) ∧
      (Instr.mflo 2 = .mflo 2 ∧ kernel.loDefined = false) := by decide

theorem witness_MoveToHiLoResult_fresh :
    let s : State := { kernel with mdFresh := true }
    s.mdFresh = true ∧ ¬ ConsumedRead true s ∧ ReadsOperand true false .staleRs 1 (s.rs 1) s ∧ ¬ ConsumedRead false s ∧
      ReadsOperand false true .staleRs 1 (s.rs 1) s :=
  ⟨rfl, not_consumed _ rfl, reads_plain _ _ _ _ rfl rfl, not_consumed _ rfl, reads_plain _ _ _ _ rfl rfl⟩

theorem witness_MoveToHiLoResult_stale :
    kernel.mdFresh = false ∧ ¬ ConsumedRead true kernel ∧ ReadsOperand true false .staleRs 1 (kernel.rs 1) kernel :=
  ⟨rfl, not_consumed _ rfl, reads_plain _ _ _ _ rfl rfl⟩

/-- MFHI r5; an instruction that reads r5; MTHI. -/
theorem witness_HiLoSpacing_consumed :
    let s : State := { kernel with hist2 := some ⟨true, 5, true⟩ }
    (∃ rs rt : Reg, ((Instr.mthi 1 = .mult rs rt ∨ Instr.mthi 1 = .multu rs rt ∨ Instr.mthi 1 = .div rs rt ∨
        Instr.mthi 1 = .divu rs rt) ∧ true = true ∧ false = true) ∨
      (Instr.mthi 1 = .mthi rs ∧ true = true ∧ false = false) ∨ (Instr.mthi 1 = .mtlo rs ∧ true = false ∧ false = true)) ∧
    ConsumedRead true s :=
  ⟨⟨1, 0, .inr (.inl ⟨rfl, rfl, rfl⟩)⟩, _, rfl, rfl, rfl⟩

/-- MFLO r5; DIV. -/
theorem witness_HiLoSpacing_recent :
    let s : State := { kernel with hist1 := some ⟨false, 5, false⟩ }
    ¬ ConsumedRead true s ∧ ¬ ConsumedRead false s ∧ (5 : Reg) ≠ 0 ∧ RecentRead false 5 s :=
  ⟨not_consumed _ rfl, not_consumed _ rfl, by decide, _, .inl rfl, rfl, rfl⟩

/-- The last bytes of kuseg in user mode, and of the address space in kernel mode. -/
theorem witness_LoadByteResult :
    let s := user.setReg 4 0x7FFFFFFF
    let t := kernel.setReg 4 0xFFFFFFFF
    Accessible .load 1 (s.effectiveAddress 4 0) s ∧ Accessible .load 1 (t.effectiveAddress 4 0) t := by
  unfold Accessible; decide

theorem witness_LoadHalfwordResult :
    let s := user.setReg 4 0x7FFFFFFF
    let t : State := withData false
    Accessible .load 2 (s.effectiveAddress 4 0xFFFF) s ∧
      Accessible .load 2 (t.effectiveAddress 4 2) t ∧ (0x1002 : Word) = physical t.cfg.segments (t.effectiveAddress 4 2) ∧
      (0x8433 : Half) = t.byteAt 0x1003 ++ t.byteAt 0x1002 := by
  unfold Accessible; decide

theorem witness_LoadWordResult :
    let s := withData true
    Accessible .load 4 (s.effectiveAddress 5 0xFFFC) s ∧ (0x1000 : Word) = physical s.cfg.segments (s.effectiveAddress 5 0xFFFC) := by
  unfold Accessible; decide

/-- Position 1 of a big-endian word: both halves. -/
theorem witness_LoadWordPartResult_big :
    let s := (withData true).setReg 2 0xAABBCCDD
    (0x1001 : Word) = s.effectiveAddress 4 1 ∧ (0x1000 : Word) = 0x1001 - BitVec.ofNat 32 ((0x1001 : Word).toNat % 4) ∧
      (0x1000 : Word) = physical s.cfg.segments 0x1000 ∧ 0x11 = s.byteAt 0x1000 ∧ 0x22 = s.byteAt 0x1001 ∧ 0x33 = s.byteAt 0x1002 ∧
      0x84 = s.byteAt 0x1003 ∧ s.reg 2 = 0xAA#8 ++ 0xBB#8 ++ 0xCC#8 ++ 0xDD#8 ∧
      Accessible .load 1 0x1001 s ∧ Accessible .load 1 0x1000 s := by
  unfold Accessible; decide

/-- Position 3 of a little-endian word: both halves. -/
theorem witness_LoadWordPartResult_little :
    let s := (withData false).setReg 2 0xAABBCCDD
    s.cfg.bigEndian = false ∧ (0x1003 : Word) = s.effectiveAddress 4 3 ∧
      (0x1000 : Word) = 0x1003 - BitVec.ofNat 32 ((0x1003 : Word).toNat % 4) ∧
      s.reg 2 = 0xAA#8 ++ 0xBB#8 ++ 0xCC#8 ++ 0xDD#8 ∧ Accessible .load 1 0x1000 s ∧ Accessible .load 1 0x1003 s := by
  unfold Accessible; decide

theorem witness_StoreResult :
    let s := (user.setReg 4 0x7FFFFFFC).setReg 2 0xA1B2C3D4
    (0x7FFFFFFC : Word) = physical s.cfg.segments (s.effectiveAddress 4 0) ∧ s.rt 2 = 0xA1#8 ++ 0xB2#8 ++ 0xC3#8 ++ 0xD4#8 ∧
      Accessible .store 1 (s.effectiveAddress 4 0) s ∧ Accessible .store 2 (s.effectiveAddress 4 0) s ∧
      Accessible .store 4 (s.effectiveAddress 4 0) s := by
  unfold Accessible; decide

/-- A word of which only the second half is in the launch image. -/
theorem witness_StoreResult_image :
    let s : State := { (kernel.setReg 4 0x1000).setReg 2 0xA1B2C3D4 with image := [⟨0x1002, 0x1003⟩] }
    (0x1000 : Word) = physical s.cfg.segments (s.effectiveAddress 4 0) ∧ s.rt 2 = 0xA1#8 ++ 0xB2#8 ++ 0xC3#8 ++ 0xD4#8 ∧
      Accessible .store 4 (s.effectiveAddress 4 0) s ∧ s.inImage 0x1001 = false ∧ s.inImage 0x1002 = true := by
  unfold Accessible; decide

theorem witness_StoreWordPartResult :
    let s := (withData false).setReg 2 0xA1B2C3D4
    (0x1002 : Word) = s.effectiveAddress 4 2 ∧ (0x1000 : Word) = 0x1002 - BitVec.ofNat 32 ((0x1002 : Word).toNat % 4) ∧
      s.rt 2 = 0xA1#8 ++ 0xB2#8 ++ 0xC3#8 ++ 0xD4#8 ∧ Accessible .store 1 0x1000 s ∧ Accessible .store 1 0x1002 s := by
  unfold Accessible; decide

theorem witness_DataAccessErrors_alignment :
    let s := withData true
    (0x1002 : Word) = s.effectiveAddress 4 2 ∧ (0x1002 : Word).toNat % 4 ≠ 0 := by decide

/-- The first byte above kuseg. -/
theorem witness_DataAccessErrors_mode :
    let s := user.setReg 4 0x7FFFFFFF
    (0x80000000 : Word) = s.effectiveAddress 4 1 ∧ s.userMode = true ∧ 2 ^ 31 ≤ (0x80000000 : Word).toNat := by decide

theorem witness_DataAccessErrors_bus :
    let s : State := { withData true with cfg := { Config.default with busErrors := [⟨0x1000, 0x1FFF, .store⟩] } }
    (0x1004 : Word) = s.effectiveAddress 4 4 ∧ (0x1004 : Word).toNat % 4 = 0 ∧
      ¬ (s.userMode = true ∧ 2 ^ 31 ≤ (0x1004 : Word).toNat) ∧ busRefuses s.cfg (physical s.cfg.segments 0x1004) .store = true := by decide

theorem witness_UnalignedLoadPair :
    let s := withData true
    (2 : Reg) ≠ 0 ∧ (4 : Reg) ≠ 2 ∧ s.stale ≠ some 4 ∧ s.ld = none ∧ s.mtc0 = none ∧
      (1 : BitVec 16).toInt + 3 < 2 ^ 15 ∧ (0x1001 : Word) = s.effectiveAddress 4 1 ∧ Accessible .load 1 0x1001 s ∧
      Accessible .load 1 ((0x1001 : Word) + 3 - BitVec.ofNat 32 (((0x1001 : Word) + 3).toNat % 4)) s ∧
      s.cell (physical s.cfg.segments 0x1001).toNat = some 0x22 ∧ s.cell (physical s.cfg.segments (0x1001 + 1)).toNat = some 0x33 ∧
      s.cell (physical s.cfg.segments (0x1001 + 2)).toNat = some 0x84 ∧ s.cell (physical s.cfg.segments (0x1001 + 3)).toNat = some 0x55 ∧
      s.cfg.bigEndian = true := by
  unfold Accessible; decide

theorem witness_UnalignedStorePair :
    let s := (withData false).setReg 2 0xA1B2C3D4
    s.stale ≠ some 4 ∧ s.stale ≠ some 2 ∧ s.ld = none ∧ s.mtc0 = none ∧ (3 : BitVec 16).toInt + 3 < 2 ^ 15 ∧
      (0x1003 : Word) = s.effectiveAddress 4 3 ∧ Accessible .store 1 0x1003 s ∧
      Accessible .store 1 ((0x1003 : Word) + 3 - BitVec.ofNat 32 (((0x1003 : Word) + 3).toNat % 4)) s ∧
      s.reg 2 = 0xA1#8 ++ 0xB2#8 ++ 0xC3#8 ++ 0xD4#8 ∧ s.cfg.bigEndian = false := by
  unfold Accessible; decide

/-- Also for JumpRegisterResult; the delay slot is in the next 256-Mbyte region. -/
theorem witness_JumpResult : (atPc 0x8FFFFFFC).ds = false := by decide

theorem witness_JumpRegisterResult : kernel.ds = false ∧ (5 : Reg) ≠ 7 ∧ (7 : Reg) = 7 := by decide

/-- The most negative offset. The same for BranchOnSignResult and BranchAndLinkResult. -/
theorem witness_BranchOnEqualityResult :
    kernel.ds = false ∧
      (0x7FFE2004 : Word) = BitVec.ofInt 32 (kernel.pc.toNat + 4 + 4 * (0x8000 : BitVec 16).toInt) := by decide

theorem witness_BranchOnConditionResult_valid :
    let s : State := { kernel with sr := 0x10000000, cpcPrev := 1 }
    s.ds = false ∧ s.copUsable 0 = true ∧ (0x80002014 : Word) = BitVec.ofInt 32 (s.pc.toNat + 4 + 4 * (4 : BitVec 16).toInt) ∧
      true = s.cpcPrev.getLsbD 0 := by decide

/-- A line the part does not have: its value is the free bit. -/
theorem witness_BranchOnConditionResult_open :
    let s : State := { kernel with sr := 0x80000000 }
    s.ds = false ∧ s.copUsable 3 = true ∧ ¬ ((3 : Unit4) = 0 ∨ s.cfg.bczValid.getLsbD 3 = true) := by decide

theorem witness_BranchInDelaySlotStops :
    let s : State := { kernel with ds := true, sr := 0x40000000 }
    s.ds = true ∧ Instr.jr 5 ∈ [Instr.j 0, .jal 0, .jr 5] ∧ s.copUsable 2 = true ∧
      Instr.bc2t 4 ∈ [branchFalse 2 4, branchTrue 2 4] := by decide

theorem witness_UnusableCoprocessorTraps :
    kernel.copUsable 1 = false ∧ (1 : Unit4) ≠ 0 ∧ user.userMode = true ∧ user.copUsable 0 = false := by decide

/-- Kernel mode, or user mode with Cu0. -/
theorem witness_MoveFromCp0Result :
    kernel.userMode = false ∧ (∀ old, kernel.mtc0 = some (12, old) → old = kernel.sr) ∧ kernel.cp0Register 12 = .status ∧
      ({ user with sr := 0x10000002 } : State).copUsable 0 = true :=
  ⟨by decide, (by intro _ h; cases h), by decide, by decide⟩

/-- The numbers of the default TRAP. -/
theorem witness_MoveFromCp0Result_numbers :
    let trap := kernel.cfg.trap
    [trap.statusNumber, trap.causeNumber, trap.epcNumber, trap.badVAddrNumber, trap.prIdNumber, trap.bpcNumber,
      trap.bdaNumber, trap.dcicNumber].Nodup := by decide

/-- Directly after an MTC0 that changed EPC. -/
theorem witness_MoveFromCp0Result_changed :
    let s : State := { kernel with epc := 8, mtc0 := some (14, 4) }
    s.userMode = false ∧ s.cp0Register 14 = .epc ∧ s.mtc0 = some (14, 4) ∧ (4 : Word) ≠ s.epc := by decide

theorem witness_MoveToCp0Result :
    kernel.userMode = false ∧ Cp0Register.status = kernel.cp0Register 12 ∧ Cp0Register.other = kernel.cp0Register 31 ∧
      ({ user with sr := 0x10000002 } : State).copUsable 0 = true := by decide

theorem witness_CoprocessorMoveResult :
    let s : State := { kernel with sr := 0xE0000000, cfg := { Config.default with copSupported := 0x2 } }
    (1 : Unit4) ≠ 0 ∧ s.copUsable 1 = true ∧ s.cfg.copSupported.getLsbD 1 = true ∧ s.copUsable 3 = true ∧
      s.cfg.copSupported.getLsbD 3 = false := by decide

theorem witness_RestoreFromExceptionResult :
    kernel.userMode = false ∧ kernel.lastMemory = false ∧ ({ kernel with lastMemory := true } : State).lastMemory = true ∧
      kernel.mtc0 = none := by decide

theorem witness_RestoreUndoesTrapEntry :
    let s : State := { user with sr := 0x0000FF03 }
    TrapEntered .systemCall s (s.trapEntry .systemCall) ∧ (s.trapEntry .systemCall).sr = 0x0000FF0C ∧
      (s.trapEntry .systemCall).mtc0 = none ∧ (s.trapEntry .systemCall).lastMemory = false :=
  ⟨State.trapEntry_entered _ _, by decide, by decide, by decide⟩

theorem witness_SystemCallAndBreakpoint :
    kernel.cfg.trap.mode = .vectored ∧
      ({ kernel with cfg := { Config.default with trap := { Trap.default with mode := .terminal } } } : State).cfg.trap.mode = .terminal := by decide


end Sys2Proof.Tests
end

section
/-! The scope of the model: the parameters of R8 and the state after reset (O10), addresses and segments (O19), and what
MFC0 reads (O55). -/

namespace Sys2Proof.Machine

/-! ## Segments (20_memory.md R62) -/

/-- A segment as the range of addresses from its first byte up to the first byte past it. -/
theorem inSegment_iff_of_bounds {g : Segment} {first bound : Nat} (hfirst : 4 * g.firstWord.toNat = first)
    (hbound : 4 * g.lastWord.toNat + 4 = bound) (a : Word) : InSegment g a ↔ first ≤ a.toNat ∧ a.toNat < bound := by
  subst hfirst hbound
  rfl

theorem inSegment_default_kuseg (a : Word) : InSegment Segments.default.kuseg a ↔ a.toNat < 0x80000000 :=
  (inSegment_iff_of_bounds (first := 0) (bound := 0x80000000) (by decide) (by decide) a).trans
    (and_iff_right (Nat.zero_le _))

theorem inSegment_default_kseg0 (a : Word) :
    InSegment Segments.default.kseg0 a ↔ 0x80000000 ≤ a.toNat ∧ a.toNat < 0xA0000000 :=
  inSegment_iff_of_bounds (by decide) (by decide) a

theorem inSegment_default_kseg1 (a : Word) :
    InSegment Segments.default.kseg1 a ↔ 0xA0000000 ≤ a.toNat ∧ a.toNat < 0xC0000000 :=
  inSegment_iff_of_bounds (by decide) (by decide) a

theorem inSegment_default_kseg2 (a : Word) : InSegment Segments.default.kseg2 a ↔ 0xC0000000 ≤ a.toNat :=
  (inSegment_iff_of_bounds (first := 0xC0000000) (bound := 2 ^ 32) (by decide) (by decide) a).trans
    (and_iff_left a.isLt)

/-- With the default of SEGMENTS, an address outside 80000000 to BFFFFFFF is its own. -/
theorem physical_default_unmapped {a : Word} (h : a.toNat < 0x80000000 ∨ 0xC0000000 ≤ a.toNat) :
    physical .default a = a := by
  apply physical_unmapped
  rw [inSegment_default_kseg0, inSegment_default_kseg1]
  omega

/-- With the default of SEGMENTS, kseg0 and kseg1 each begin at a multiple of their length, 512 Mbytes, so the low 29 bits
of an address are its distance from the start of its segment. -/
theorem physical_default_kseg0 {a : Word} (h : 0x80000000 ≤ a.toNat) (h' : a.toNat < 0xA0000000) :
    (physical .default a).toNat = a.toNat - 0x80000000 := by
  rw [physical_mapped (.inl ((inSegment_default_kseg0 a).mpr ⟨h, h'⟩))]
  omega

theorem physical_default_kseg1 {a : Word} (h : 0xA0000000 ≤ a.toNat) (h' : a.toNat < 0xC0000000) :
    (physical .default a).toNat = a.toNat - 0xA0000000 := by
  rw [physical_mapped (.inr ((inSegment_default_kseg1 a).mpr ⟨h, h'⟩))]
  omega

/-! ## Effective addresses (30_encoding.md R112) -/

theorem State.effectiveAddress_toNat (s : State) (base : Reg) (offset : BitVec 16) :
    ((s.effectiveAddress base offset).toNat : Int) = ((s.rs base).toNat + offset.toInt) % 2 ^ 32 := by
  unfold State.effectiveAddress
  rw [signExtend_eq, BitVec.toNat_add, BitVec.toNat_ofInt]
  omega

/-- Settles O19: the sum is `State.effectiveAddress_toNat`, the segment map of any SEGMENTS is `physical_mapped` and
`physical_unmapped`, and the default bounds are put into these. -/
theorem addressesAndSegments : Obligations.AddressesAndSegments := by
  refine ⟨State.effectiveAddress_toNat, fun segments a => ⟨physical_mapped, fun h0 h1 => ?_⟩, fun a => ?_⟩
  · exact physical_unmapped (not_or.mpr ⟨h0, h1⟩)
  · exact ⟨fun h => physical_default_unmapped (.inl h), physical_default_kseg0, physical_default_kseg1,
      fun h => physical_default_unmapped (.inr h)⟩

/-! ## The numbers of the coprocessor 0 registers (10_state.md R36 to R38) -/

/-- The register numbers of TRAP, each with the register it names, in the order in which `State.cp0Register` tries
them. -/
def cp0Names (trap : Trap) : List (Σ _ : Reg, Cp0Register) :=
  [⟨trap.statusNumber, .status⟩, ⟨trap.causeNumber, .cause⟩, ⟨trap.epcNumber, .epc⟩, ⟨trap.badVAddrNumber, .badVAddr⟩,
    ⟨trap.prIdNumber, .prId⟩, ⟨trap.bpcNumber, .bpc⟩, ⟨trap.bdaNumber, .bda⟩, ⟨trap.dcicNumber, .dcic⟩]

/-- The register that a number names is the first one that `cp0Names` lists under it. -/
theorem State.cp0Register_eq_dlookup (s : State) (r : Reg) :
    s.cp0Register r = ((cp0Names s.cfg.trap).dlookup r).getD .other := by
  unfold State.cp0Register cp0Names
  simp only [List.dlookup, @eq_comm _ _ r]
  split_ifs <;> simp

/-- With numbers all different, a register is named by its own number and by no other. -/
theorem State.cp0Register_eq_iff {s : State} (h : (cp0Names s.cfg.trap).NodupKeys) {c : Cp0Register} (hc : c ≠ .other)
    (r : Reg) : s.cp0Register r = c ↔ ⟨r, c⟩ ∈ cp0Names s.cfg.trap := by
  rw [State.cp0Register_eq_dlookup, ← List.mem_dlookup_iff h, Option.mem_def]
  cases (cp0Names s.cfg.trap).dlookup r with
  | none => simpa using hc.symm
  | some d => simp

/-! ## What MFC0 reads (46_coprocessor0.md R277, R279) -/

/-- The registers that MFC0 reads as the spec says, each with what it holds. -/
def State.readableCp0 (s : State) : List (Cp0Register × Word) :=
  [(.status, s.sr), (.epc, s.epc), (.badVAddr, s.badVAddr), (.prId, s.prId), (.cause, s.cause)]

theorem State.cp0Cell_of_readable {s : State} {r : Reg} {cell : Word} (h : (s.cp0Register r, cell) ∈ s.readableCp0) :
    s.cp0Cell r = cell := by
  unfold State.cp0Cell
  generalize s.cp0Register r = c at h ⊢
  cases c <;> simp_all [State.readableCp0]

/-- A register with a stated value reads as it is, but for Cause, which shows the interrupt lines. -/
theorem State.cp0Value_of_readable {s : State} {r : Reg} {cell : Word} (h : (s.cp0Register r, cell) ∈ s.readableCp0) :
    s.cp0Value r = if s.cp0Register r = .cause then s.causeValue else cell := by
  unfold State.cp0Value
  generalize s.cp0Register r = c at h ⊢
  cases c <;> simp_all [State.readableCp0]

theorem State.cp0Value_of_open {s : State} {r : Reg} (h : s.cp0Register r ∈ [.bpc, .bda, .dcic, .other]) :
    s.cp0Value r = s.free (.readCp0 r) := by
  unfold State.cp0Value
  generalize s.cp0Register r = c at h ⊢
  cases c <;> simp_all

/-- A register without a stated value is free whatever the instruction before was. -/
theorem State.cp0Read_of_open {s : State} {r : Reg} (h : s.cp0Register r ∈ [.bpc, .bda, .dcic, .other]) :
    s.cp0Read r = s.free (.readCp0 r) := by
  unfold State.cp0Read
  rw [State.cp0Value_of_open h]
  split
  · exact ite_self _
  · rfl

theorem decodeWord_mfc0 (enc : MulDivEncoding) (rt rd : Reg) :
    decodeWord enc (0b010000#6 ++ 0b00000#5 ++ rt ++ rd ++ 0#11) = .instr (.mfc0 rt rd) := by
  rw [zero11_eq, decodeWord_cop enc (by rw [fieldOp_rType]; decide) (by rw [fieldOp_rType]; decide)
    (by rw [cop_rType]; decide)]
  simp only [decodeCop, fieldCop, fieldRs_rType, fieldRt_rType, fieldRd_rType, low11_rType, unit_rType]
  rfl

theorem exec_mfc0 (rt rd : Reg) (s : State) :
    exec (.mfc0 rt rd) s =
      guarded (unprivileged s) (fun s => complete (.mfc0 rt rd) (s.delayReg rt (s.cp0Read rd))) s := rfl

/-- MFC0 where it may execute: what `State.cp0Read` finds arrives one instruction late. -/
theorem loadsReg_mfc0 {s : State} (rt rd : Reg) (h : s.userMode = false ∨ s.copUsable 0 = true) :
    LoadsReg (.mfc0 rt rd) rt (s.cp0Read rd) s :=
  loadsReg_of_complete ((exec_mfc0 rt rd s).trans (guarded_none (unprivileged_none h))) rfl

/-- Settles O55. The numbers: `cp0Names` has no number twice, so looking one up is membership. The value: it is
`State.cp0Read`, free after an MTC0 that changed the register, and `State.cp0Value` otherwise. -/
theorem moveFromCp0Result : Obligations.MoveFromCp0Result := by
  intro enc rt rd s trap
  refine ⟨decodeWord_mfc0 enc rt rd, ?names, fun hp => ⟨s.cp0Read rd, loadsReg_mfc0 rt rd hp, State.cp0Read_of_open, ?value⟩⟩
  case names =>
    rintro rfl hn
    have named {c : Cp0Register} (hc : c ≠ .other) := State.cp0Register_eq_iff (s := s) hn hc rd
    simp [named, cp0Names]
  case value =>
    intro cell hcell
    have hcell' := State.cp0Cell_of_readable hcell
    refine ⟨fun old hold hne => State.cp0Read_changed hold (hcell' ▸ hne), fun settled => ?_⟩
    rw [State.cp0Read_settled (hcell' ▸ settled), State.cp0Value_of_readable hcell]
    split_ifs with hc
    · obtain rfl : cell = s.cause := by simpa [State.readableCp0, hc] using hcell
      exact State.causeValue_getLsbD s
    · rfl

/-! ## The state after reset (70_reset_and_hazards.md R351) -/

/-- Status after reset has the bit BEV and no other. -/
theorem resetWith_sr_getLsbD (cfg : Config) (k : Nat) (hk : k < 32) :
    (State.resetWith cfg).sr.getLsbD k = decide (k = cfg.trap.status.bev) := by
  change ((1 : Word) <<< cfg.trap.status.bev).getLsbD k = _
  rw [Bool.eq_iff_iff]
  simp only [BitVec.ofNat_eq_ofNat, BitVec.getLsbD_shiftLeft, BitVec.getLsbD_one, Nat.ofNat_pos, decide_true,
    Bool.true_and, Bool.and_eq_true, decide_eq_true_eq, Bool.not_eq_true', decide_eq_false_iff_not, not_lt]
  omega

/-- Settles O10. Of the state after reset only Status is computed, by `resetWith_sr_getLsbD`: BEV lies outside the three
pairs, so KUc and IEc are clear. The default bounds of SEGMENTS are the lemmas `inSegment_default_kuseg` to `_kseg2`. -/
theorem resetState : Obligations.ResetState := by
  refine ⟨?reset, rfl, rfl, rfl, ?entries, rfl, rfl, by decide, by decide, by decide, by decide, by decide, by decide,
    by decide, by decide, fun a => ⟨inSegment_default_kuseg a, inSegment_default_kseg0 a, inSegment_default_kseg1 a,
      inSegment_default_kseg2 a⟩⟩
  case reset =>
    rintro cfg s h6 h32 rfl
    have below (k : Nat) (hk : k < 6) : (State.resetWith cfg).sr.getLsbD k = false := by
      rw [resetWith_sr_getLsbD cfg k (by omega)]
      exact decide_eq_false (by omega)
    refine ⟨rfl, rfl, rfl, rfl, rfl, rfl, rfl, rfl, rfl, rfl, below 1 (by decide), below 0 (by decide), ?_, rfl, rfl, rfl⟩
    rw [resetWith_sr_getLsbD cfg _ h32]
    exact decide_eq_true rfl
  case entries =>
    intro e
    cases e <;> exact ⟨rfl, rfl, rfl⟩

end Sys2Proof.Machine
end

section
/-! The state over steps: its invariant (O11, O12), what no step writes (O13), which instructions write memory, HI and
LO (O15), the histories (O16), what an instruction reads (O17), the delivery of a delayed write (O18), and what a step
fetches and runs (O6). -/

namespace Sys2Proof.Machine

/-! ## The tables of Machine/Operands.lean and Laws/Exec.lean against the lists of Safety.lean

Each compares two tables constructor by constructor. -/

theorem loadOrStore_iff (i : Instr) : LoadOrStore i ↔ isMemory i = true := by
  cases i <;> simp [LoadOrStore, isMemory, instrInfo]

/-- A unit number is 0, 1, 2 or 3. -/
theorem exists_unit_iff (p : Unit4 → Prop) : (∃ z, p z) ↔ p 0 ∨ p 1 ∨ p 2 ∨ p 3 := by
  have units : ∀ z : Unit4, z = 0 ∨ z = 1 ∨ z = 2 ∨ z = 3 := by decide
  constructor
  · rintro ⟨z, h⟩
    obtain rfl | rfl | rfl | rfl := units z
    · exact .inl h
    · exact .inr (.inl h)
    · exact .inr (.inr (.inl h))
    · exact .inr (.inr (.inr h))
  · rintro (h | h | h | h) <;> exact ⟨_, h⟩

theorem jumpOrBranch_iff (i : Instr) : JumpOrBranch i ↔ isBranch i = true := by
  cases i <;> simp [JumpOrBranch, isBranch, instrInfo, exists_unit_iff, branchFalse, branchTrue]

theorem readsRegister_iff (i : Instr) (q : Reg) : ReadsRegister i q ↔ q ∈ (instrInfo i).reads := by
  cases i <;> simp [ReadsRegister, instrInfo, or_and_right, exists_or, eq_comm]

theorem writesRegister_iff (i : Instr) (q : Reg) : WritesRegister i q ↔ (instrInfo i).writes = some q := by
  cases i <;> simp [WritesRegister, instrInfo, eq_comm]

theorem testsRegister_iff (i : Instr) (q : Reg) : TestsRegister i q ↔ q ∈ testedReads i := by
  cases i <;> simp [TestsRegister, testedReads, or_and_right, exists_or, eq_comm]

theorem spoilsRead_iff (i : Instr) (e : HiLoRead) :
    SpoilsRead i e ↔ spoils (writesHi i) (writesLo i) (some e) = true := by
  cases i <;> simp [SpoilsRead, spoils, writesHi, writesLo]

theorem isStore_false {i : Instr} (h : ∀ rt offset base, i ≠ .sb rt offset base ∧ i ≠ .sh rt offset base ∧
    i ≠ .sw rt offset base ∧ i ≠ .swl rt offset base ∧ i ≠ .swr rt offset base) : isStore i = false := by
  cases i <;> simp_all [isStore, isMemory, instrInfo]

theorem writesHiLo_false {i : Instr} (h : ∀ rs rt, i ≠ .mult rs rt ∧ i ≠ .multu rs rt ∧ i ≠ .div rs rt ∧
    i ≠ .divu rs rt ∧ i ≠ .mthi rs ∧ i ≠ .mtlo rs) : writesHi i = false ∧ writesLo i = false := by
  cases i <;> simp_all [writesHi, writesLo]

/-! ## The HI/LO history (10_state.md R41) -/

/-- The entry of an MFHI or MFLO with a destination; no other instruction makes one. -/
theorem hiLoEntry_eq_some_iff (i : Instr) (e : HiLoRead) :
    hiLoEntry i = some e ↔ e.rd ≠ 0 ∧ e.consumed = false ∧ i = if e.fromHi then .mfhi e.rd else .mflo e.rd := by
  obtain ⟨fromHi, q, consumed⟩ := e
  cases i with
  | mfhi rd =>
    cases fromHi
    · simp [hiLoEntry, instrInfo]
    · simp [hiLoEntry, instrInfo]; grind
  | mflo rd =>
    cases fromHi
    · simp [hiLoEntry, instrInfo]; grind
    · simp [hiLoEntry, instrInfo]
  | _ => cases fromHi <;> simp [hiLoEntry, instrInfo]

theorem HiLoRead.eq_iff (e' e : HiLoRead) : e' = e ↔
    e.rd = e'.rd ∧ e.fromHi = e'.fromHi ∧ (e.consumed = true ↔ e'.consumed = true) := by
  rw [← Bool.eq_iff_iff]
  constructor
  · rintro rfl; exact ⟨rfl, rfl, rfl⟩
  · cases e; cases e'; rintro ⟨rfl, rfl, rfl⟩; rfl

/-- An entry is left over an instruction that uses the result, or does not overwrite it. -/
theorem afterUse_eq_some_iff (entry : Option HiLoRead) (reads : List Reg) (writes : Option Reg) (e : HiLoRead) :
    afterUse entry reads writes = some e ↔ ∃ e', entry = some e' ∧ (e'.rd ∈ reads ∨ writes ≠ some e'.rd) ∧
      e.rd = e'.rd ∧ e.fromHi = e'.fromHi ∧ (e.consumed = true ↔ e'.consumed = true ∨ e'.rd ∈ reads) := by
  cases entry with
  | none => simp [afterUse]
  | some e' =>
    rw [afterUse]
    split_ifs with used overwritten
    · rw [Option.some_inj, HiLoRead.eq_iff]; simp [used]
    · simp [used, overwritten]
    · rw [Option.some_inj, HiLoRead.eq_iff]; simp [used, overwritten]

/-- An entry that is left names the register it named before, so never register 0. -/
theorem afterUse_rd_ne_zero {entry : Option HiLoRead} {reads : List Reg} {writes : Option Reg}
    (h : ∀ e, entry = some e → e.rd ≠ 0) : ∀ e, afterUse entry reads writes = some e → e.rd ≠ 0 := by
  intro e he
  obtain ⟨e', he', -, hrd, -⟩ := (afterUse_eq_some_iff ..).mp he
  exact hrd ▸ h e' he'

/-- Just before an instruction completes, the entry of the instruction before is there unless this one writes what that
one read. -/
theorem Effect.hist1_eq_some_iff {i : Instr} {s u : State} (h : Effect i s u) (e : HiLoRead) :
    u.hist1 = some e ↔ s.hist1 = some e ∧ ¬ SpoilsRead i e := by
  rw [h.history, spoilsRead_iff]
  cases s.hist1 with
  | none => simp
  | some e' => grind

/-! ## How an instruction ends, in the terms of its trap or of its completion -/

/-- Trap entry does not look at the histories. -/
theorem trapEntered_of_abandoned (s : State) (reads : List Reg) (e : Exc) :
    TrapEntered e s ((s.abandoned reads).trapEntry e) :=
  { State.trapEntry_entered (s.abandoned reads) e with }

/-- The two ways in which an instruction answers a next state, with the two ways to complete put together: an MTC0
leaves its record (70_reset_and_hazards.md R373), and no other instruction does. -/
theorem exec_cases {i : Instr} {s t : State} (h : exec i s = .next t) :
    (∃ e, t = (s.abandoned (testedReads i)).trapEntry e) ∨
    ∃ u target record, Effect i s u ∧ (isBranch i = false → target = none) ∧
      ((∀ rt rd, i ≠ .mtc0 rt rd) → record = none) ∧ t = { u.completed i target with mtc0 := record } := by
  rcases exec_ends h with trap | ⟨u, target, hu, htarget, -, rfl | ⟨rt, rd, rfl, rfl⟩⟩
  · exact .inl trap
  · exact .inr ⟨u, target, none, hu, htarget, fun _ => rfl, rfl⟩
  · exact .inr ⟨u, target, some (rd, s.cp0Cell rd), hu, htarget, fun hi => absurd rfl (hi rt rd), rfl⟩

/-! ## The histories over an instruction (O16) -/

/-- Settles O16. What becomes of the entry of the instruction before is `afterUse_eq_some_iff`, where this one completes
and where it traps. -/
theorem historiesMoveOn : Obligations.HistoriesMoveOn := by
  intro i s t h
  rcases exec_cases h with ⟨exc, rfl⟩ | ⟨u, target, record, hu, -, hrecord, rfl⟩
  · refine .inr ⟨⟨exc, trapEntered_of_abandoned s _ exc⟩, rfl, rfl, rfl, rfl, fun e => ?_⟩
    simp [afterUse_eq_some_iff, testsRegister_iff]
  · obtain ⟨-, hnpc, -, -⟩ := hu.flow
    obtain ⟨-, -, -, hcpc, -⟩ := hu.kept
    refine .inl ⟨hnpc, hcpc, (loadOrStore_iff i).symm, (jumpOrBranch_iff i).symm, hrecord, hiLoEntry_eq_some_iff i,
      fun e => ?_⟩
    change afterUse u.hist1 (instrInfo i).reads (instrInfo i).writes = some e ↔ _
    simp only [afterUse_eq_some_iff, hu.hist1_eq_some_iff, readsRegister_iff, writesRegister_iff, and_assoc, ne_eq]

/-! ## What an instruction leaves in memory, HI and LO (O15) -/

theorem Effect.sameMemory {i : Instr} {s u : State} (h : Effect i s u) (hi : isStore i = false) : SameMemory s u := by
  obtain ⟨-, -, himage, -, -, -, -, htick⟩ := h.kept
  rcases h.memory with ⟨hmem, hstored⟩ | ⟨hstore, -⟩
  · exact .of_mem himage hmem htick hstored
  · exact absurd hstore (by simp [hi])

theorem Effect.sameHiLo {i : Instr} {s u : State} (h : Effect i s u) (hi : writesHi i = false ∧ writesLo i = false) :
    SameHiLo s u := by
  rcases h.hiLo with same | hw | hw
  · exact same
  · exact absurd hw (by simp [hi.1])
  · exact absurd hw (by simp [hi.2])

/-- Settles O15. Trap entry writes neither memory nor HI and LO, and completion adds nothing to the instruction's
effect. -/
theorem onlyStoresWriteMemory : Obligations.OnlyStoresWriteMemory := by
  intro i s t h
  rcases exec_cases h with ⟨exc, rfl⟩ | ⟨u, target, record, hu, -, -, rfl⟩
  · have entered := trapEntered_of_abandoned s (testedReads i) exc
    exact ⟨fun _ => entered.memory, fun _ => entered.hiLo.1⟩
  · exact ⟨fun hi => hu.sameMemory (isStore_false hi), fun hi => hu.sameHiLo (writesHiLo_false hi)⟩

/-! ## What no step writes (O13) -/

/-- What stays as it is from the beginning of a step to its end. -/
def SameConfiguration (s t : State) : Prop :=
  t.prId = s.prId ∧ t.ccr = s.ccr ∧ t.image = s.image ∧ SameInputs s t

theorem sameConfiguration_trapEntry (s : State) (e : Exc) : SameConfiguration s (s.trapEntry e) :=
  ⟨rfl, rfl, rfl, rfl, rfl, rfl, rfl, rfl⟩

theorem sameConfiguration_of_exec {i : Instr} {s t : State} (h : exec i s = .next t) : SameConfiguration s t := by
  rcases exec_cases h with ⟨exc, rfl⟩ | ⟨u, target, record, hu, -, -, rfl⟩
  · exact sameConfiguration_trapEntry s exc
  · exact hu.kept

theorem sameConfiguration_executing (s : State) : SameConfiguration s.beginStep s.executing := by
  simp [SameConfiguration, SameInputs, State.executing]

theorem SameConfiguration.trans {s t u : State} (h : SameConfiguration s t) (h' : SameConfiguration t u) :
    SameConfiguration s u := by
  simp_all [SameConfiguration, SameInputs]

/-- After its beginning a step changes nothing of the configuration. -/
theorem sameConfiguration_of_step {s t : State} (h : step s = .next t) : SameConfiguration s.beginStep t := by
  have executing := sameConfiguration_executing s
  rcases step_cases h with ⟨-, rfl⟩ | ⟨-, ⟨e, -, rfl⟩ | ⟨e, rfl⟩ | ⟨i, hi⟩⟩
  · exact sameConfiguration_trapEntry s.beginStep .interrupt
  · exact executing.trans (sameConfiguration_trapEntry s.executing e)
  · exact executing.trans (sameConfiguration_trapEntry s.executing e)
  · exact executing.trans (sameConfiguration_of_exec hi)

/-- Settles O13: the beginning of a step takes the inputs over and numbers the step, and nothing after it touches what
is stated. -/
theorem everyStepKeepsConfiguration : Obligations.EveryStepKeepsConfiguration := by
  intro s t h
  obtain ⟨hprId, hccr, himage, hcpc, hirq, hinputs, hcfg, htick⟩ := sameConfiguration_of_step h
  obtain ⟨tick, inputs, irq, cpc⟩ := s.beginStep_lines
  exact ⟨hcfg.trans s.beginStep_cfg, himage.trans s.beginStep_image, hprId.trans s.beginStep_prId,
    hccr.trans s.beginStep_ccr, htick.trans tick, hinputs.trans inputs, hirq.trans irq, hcpc.trans cpc⟩

/-! ## The invariant: memory -/

/-- The part of the invariant that is about memory: what `State.Inv` says of the launch image, memory and the record of
stored addresses. -/
structure MemoryInv (image : List AddressRange) (m : Memory) (stored : List Nat) : Prop where
  memory : m.wf
  storedRising : stored.Pairwise (· < ·)
  inside : ∀ c ∈ m, inRanges image c.1 = true
  storedListed : ∀ a ∈ stored, inRanges image a = true → (m.read a).isSome = true

theorem State.Inv.memoryInv {s : State} (h : s.Inv) : MemoryInv s.image s.mem s.stored :=
  ⟨h.memory, h.storedRising, h.inside, h.storedListed⟩

/-- A store keeps it: a byte that it puts into the launch image has a value, and one outside is not listed. -/
theorem MemoryInv.store {image : List AddressRange} {m : Memory} {stored : List Nat} (h : MemoryInv image m stored)
    (a : Word) (bs : List Byte) (hl : bs.length ≤ 2 ^ 32) :
    MemoryInv image (writeBytes image m a bs) (markStored stored a bs.length) where
  memory := writeBytes_wf h.memory image a bs
  storedRising := markStored_sorted h.storedRising a bs.length
  inside c hc := (mem_writeBytes hc).elim (h.inside c) id
  storedListed b hb hi := by
    rcases (mem_markStored ..).mp hb with hb | ⟨k, hk, rfl⟩
    · exact writeBytes_read_isSome image m a bs b (h.storedListed b hb hi)
    · rw [writeBytes_read_at image m a bs hl k hk hi]; rfl

theorem MemoryInv.effect {i : Instr} {s u : State} (h : MemoryInv s.image s.mem s.stored) (hu : Effect i s u) :
    MemoryInv u.image u.mem u.stored := by
  obtain ⟨-, -, himage, -⟩ := hu.kept
  rcases hu.memory with ⟨hmem, hstored⟩ | ⟨-, a, bs, -, hl, hmem, hstored⟩
  · rwa [himage, hmem, hstored]
  · rw [himage, hmem, hstored]
    exact h.store _ bs (by omega)

/-! ## The invariant: every step (O12) -/

theorem State.Inv.beginStep {s : State} (h : s.Inv) : s.beginStep.Inv := by
  unfold State.beginStep
  split <;> exact { h with }

theorem State.Inv.deliver {s : State} (h : s.Inv) : s.deliver.Inv := by
  unfold State.deliver
  split
  · exact { h with pending := nofun }
  · exact { h with }

theorem State.Inv.executing {s : State} (h : s.Inv) : s.executing.Inv := h.beginStep.deliver

theorem State.Inv.trapEntry {s : State} (h : s.Inv) (e : Exc) : (s.trapEntry e).Inv :=
  { h with
    sequential := fun _ => rfl
    afterBranch := nofun }

theorem State.Inv.abandoned {s : State} (h : s.Inv) (reads : List Reg) : (s.abandoned reads).Inv :=
  { h with
    afterBranch := fun hds =>
      have ⟨_, hmtc0, _⟩ := h.afterBranch hds
      ⟨rfl, hmtc0, rfl⟩
    history := ⟨nofun, afterUse_rd_ne_zero fun e he => (h.history.1 e he).2⟩ }

/-- What an instruction leaves pending is pending already, or is its own delayed write, never for register 0. -/
theorem Effect.pending_ne_zero {i : Instr} {s u : State} (hu : Effect i s u) (h : ∀ r v, s.ld = some (r, v) → r ≠ 0) :
    ∀ r v, u.ld = some (r, v) → r ≠ 0 := by
  intro r v hrv
  rcases hu.pending with hld | hld | ⟨q, w, hq, hld⟩
  · exact h r v (hld ▸ hrv)
  · exact absurd hrv (by simp [hld])
  · obtain ⟨rfl, -⟩ : q = r ∧ w = v := by simpa [hld] using hrv
    exact hq

/-- A jump or branch is no load or store, no MFHI or MFLO and no MTC0. -/
theorem branch_excludes {i : Instr} (h : isBranch i = true) :
    isMemory i = false ∧ hiLoEntry i = none ∧ ∀ rt rd, i ≠ .mtc0 rt rd := by
  cases i <;> simp_all [isBranch, isMemory, hiLoEntry, instrInfo]

/-- The state after an instruction that has completed: the delay slot flag, npc and the histories are those of
`State.completed`, the rest is the instruction's effect. -/
theorem State.Inv.completed {i : Instr} {s u : State} {target : Option Word} {record : Option (Reg × Word)} (h : s.Inv)
    (hu : Effect i s u) (htarget : isBranch i = false → target = none)
    (hrecord : (∀ rt rd, i ≠ .mtc0 rt rd) → record = none) :
    ({ u.completed i target with mtc0 := record } : State).Inv :=
  { h.memoryInv.effect hu with
    sequential := fun hds => by rw [State.completed_npc, htarget hds]; rfl
    afterBranch := fun hds =>
      have ⟨hmemory, hentry, hmtc0⟩ := branch_excludes hds
      ⟨hmemory, hrecord hmtc0, hentry⟩
    pending := hu.pending_ne_zero h.pending
    history := by
      constructor
      · intro e he
        obtain ⟨hrd, hconsumed, -⟩ := (hiLoEntry_eq_some_iff i e).mp he
        exact ⟨hconsumed, hrd⟩
      · exact afterUse_rd_ne_zero fun e he => (h.history.1 e ((hu.hist1_eq_some_iff e).mp he).1).2 }

theorem State.Inv.exec {i : Instr} {s t : State} (h : s.Inv) (ht : exec i s = .next t) : t.Inv := by
  rcases exec_cases ht with ⟨e, rfl⟩ | ⟨u, target, record, hu, htarget, hrecord, rfl⟩
  · exact (h.abandoned _).trapEntry e
  · exact h.completed hu htarget hrecord

/-- Settles O12, by the ways in which a step answers a next state. -/
theorem everyStepKeepsInvariant : Obligations.EveryStepKeepsInvariant := by
  intro s t h ht
  rcases step_cases ht with ⟨-, rfl⟩ | ⟨-, ⟨e, -, rfl⟩ | ⟨e, rfl⟩ | ⟨i, hi⟩⟩
  · exact h.beginStep.trapEntry .interrupt
  · exact h.executing.trapEntry e
  · exact (h.executing.abandoned []).trapEntry e
  · exact h.executing.exec hi

/-! ## The invariant after reset (O11) -/

/-- Settles O11: nothing is in memory, stored to, pending or in a history, and npc is the word after pc. -/
theorem invariantHoldsAtReset : Obligations.InvariantHoldsAtReset := by
  have hreset (cfg : Config) : (State.resetWith cfg).Inv :=
    { memory := Memory.wf_nil
      storedRising := .nil
      inside := nofun
      storedListed := nofun
      sequential := fun _ => rfl
      afterBranch := nofun
      pending := nofun
      history := ⟨nofun, nofun⟩ }
  exact ⟨hreset .default, hreset⟩

/-! ## Operands and the bits of Status (O17) -/

/-- A bit of Status that an MTC0 just before has changed is a free bit. -/
theorem State.statusBit_changed {s : State} {k : Nat} {q : Reg} {old : Word} (h : s.mtc0 = some (q, old))
    (hq : s.cp0Register q = .status) (hk : old.getLsbD k ≠ s.sr.getLsbD k) :
    s.statusBit k = (s.free (.statusBit k)).getLsbD 0 := by
  unfold State.statusBit
  rw [h]
  exact if_pos ⟨hq, hk⟩

/-- `State.statusBit_eq` with its condition said of whatever MTC0 was just before. -/
theorem State.statusBit_unchanged {s : State} {k : Nat}
    (h : ∀ q old, s.mtc0 = some (q, old) → s.cp0Register q = .status → old.getLsbD k = s.sr.getLsbD k) :
    s.statusBit k = s.sr.getLsbD k := by
  apply State.statusBit_eq
  cases hm : s.mtc0 with
  | none => exact .inl rfl
  | some record =>
    obtain ⟨q, old⟩ := record
    exact .inr ⟨q, old, rfl, Classical.or_iff_not_imp_left.mpr fun hq => h q old hm (not_not.mp hq)⟩

theorem State.reg_of_ne_zero (s : State) {r : Reg} (h : r ≠ 0) : s.reg r = s.gpr[r.toNat]'r.isLt := if_neg h

/-- Settles O17. `State.rs` and `State.rt` are `State.operand`, and `State.userMode` and `State.copUsable` are
`State.statusBit` at the places of KUc and Cu[z]. -/
theorem operandReads : Obligations.OperandReads := by
  intro s r z ku cu
  refine ⟨s.operand_zero _, s.operand_zero _, s.reg_zero, s.reg_of_ne_zero, fun hr => ?fresh, fun hr h0 => ?stale,
    ?status⟩
  case fresh => exact ⟨s.operand_of_fresh _ r hr, s.operand_of_fresh _ r hr⟩
  case stale => exact ⟨s.operand_of_stale _ r hr h0, s.operand_of_stale _ r hr h0⟩
  case status =>
    rintro rfl rfl
    exact ⟨State.statusBit_unchanged, State.statusBit_unchanged,
      fun q old hm hq => ⟨State.statusBit_changed hm hq, State.statusBit_changed hm hq⟩⟩

/-! ## Delivery of the delayed write (O18) -/

theorem State.reg_executing_some {s : State} {r : Reg} {v : Word} (h : s.ld = some (r, v)) (q : Reg) :
    s.executing.reg q = if q = r then (if r = 0 then 0 else v) else s.reg q := by
  have hld : s.beginStep.ld = some (r, v) := by rw [State.beginStep_ld, h]
  calc s.executing.reg q
      = (s.beginStep.setReg r v).reg q := State.reg_congr (by rw [State.executing, State.deliver_some hld]) q
    _ = if q = r then (if r = 0 then 0 else v) else s.beginStep.reg q := State.reg_setReg ..
    _ = if q = r then (if r = 0 then 0 else v) else s.reg q := by rw [State.reg_congr s.beginStep_gpr]

theorem State.reg_executing_none {s : State} (h : s.ld = none) (q : Reg) : s.executing.reg q = s.reg q := by
  have hld : s.beginStep.ld = none := by rw [State.beginStep_ld, h]
  exact State.reg_congr (by rw [State.executing, State.deliver_none hld, State.beginStep_gpr]) q

/-- The register whose delayed write is delivered is the one that is stale. -/
theorem State.executing_stale (s : State) : s.executing.stale = s.ld.map Prod.fst := by
  unfold State.executing State.deliver
  rw [State.beginStep_ld]
  cases s.ld <;> rfl

/-- Settles O18. -/
theorem loadDelivery : Obligations.LoadDelivery := by
  intro s
  obtain ⟨hmem, himage, -, -, hpc, -, hds, -, -, -, -, -, hcp0, hhiLo, -⟩ := s.executing_kept
  refine ⟨fun r v h h0 => ?pending, fun h => ?nothing, hhiLo, hcp0, hmem, himage, hpc, hds⟩
  case pending =>
    refine ⟨?_, by rw [State.executing_stale, h]; rfl, s.executing_ld, fun q hq => ?_⟩
    · rw [State.reg_executing_some h, if_pos rfl, if_neg h0]
    · rw [State.reg_executing_some h, if_neg hq]
  case nothing =>
    exact ⟨State.reg_executing_none h, by rw [State.executing_stale, h]; rfl, s.executing_ld⟩

/-! ## The bytes of a fetch (O6; 20_memory.md R78, R81, R88) -/

/-- A byte that has a value and was not stored to is fetched, and the fetch goes on with the next. -/
theorem State.fetchBytes_of_cell {s : State} {a : Word} {b : Byte} (hs : a.toNat ∉ s.stored)
    (hc : s.cell a.toNat = some b) (n : Nat) : s.fetchBytes a (n + 1) = (s.fetchBytes (a + 1) n).map (b :: ·) := by
  rw [State.fetchBytes, if_neg hs, hc]
  cases s.fetchBytes (a + 1) n <;> rfl

theorem State.fetchBytes_of_stored {s : State} {a : Word} (h : a.toNat ∈ s.stored) (n : Nat) :
    s.fetchBytes a (n + 1) = .error (.fetchStored a) := by
  rw [State.fetchBytes, if_pos h]

theorem State.fetchBytes_of_unwritten {s : State} {a : Word} (hs : a.toNat ∉ s.stored) (hc : s.cell a.toNat = none)
    (n : Nat) : s.fetchBytes a (n + 1) = .error (.fetchUnwritten a) := by
  rw [State.fetchBytes, if_neg hs, hc]

/-- Where the bytes before are fetched, a fetch is refused for what the rest of it is refused for. -/
theorem State.fetchBytes_error_after {s : State} {r : Refusal} (k n : Nat) (a : Word)
    (before : ∀ j < k, (a + BitVec.ofNat 32 j).toNat ∉ s.stored ∧ s.cell (a + BitVec.ofNat 32 j).toNat ≠ none)
    (h : s.fetchBytes (a + BitVec.ofNat 32 k) n = .error r) : s.fetchBytes a (n + k) = .error r := by
  induction k generalizing a with
  | zero => simpa using h
  | succ k ih =>
    obtain ⟨hs, hc⟩ : a.toNat ∉ s.stored ∧ s.cell a.toNat ≠ none := by simpa using before 0 (by omega)
    obtain ⟨b, hb⟩ := Option.ne_none_iff_exists'.mp hc
    have rest : s.fetchBytes (a + 1) (n + k) = .error r := by
      refine ih (a + 1) (fun j hj => ?_) ?_
      · rw [add_one_add_ofNat]; exact before (j + 1) (by omega)
      · rwa [add_one_add_ofNat]
    rw [← Nat.add_assoc, State.fetchBytes_of_cell hs hb, rest]
    rfl

/-- A byte outside the launch image, or one that nothing has written, has no value. -/
theorem State.cell_eq_none {s : State} {a : Nat} (h : s.inImage a = false ∨ s.mem.read a = none) : s.cell a = none := by
  rcases h with h | h
  · exact State.cell_outside h
  · unfold State.cell; rw [h]; exact ite_self _

/-- A fetch finds the bytes that are there at the beginning of the step. -/
theorem State.fetchBytes_executing (s : State) (a : Word) (n : Nat) :
    s.executing.fetchBytes a n = s.fetchBytes a n := by
  obtain ⟨hmem, himage, hstored, -⟩ := s.executing_kept
  induction n generalizing a with
  | zero => rfl
  | succ n ih => simp only [State.fetchBytes, hstored, State.cell_congr himage hmem, ih]

/-- Where the fetch of a word passes its checks, it begins at the physical address of pc. -/
theorem State.translate_executing {s : State} (h : Accessible .fetch 4 s.pc s.executing) :
    s.executing.translate .fetch 4 s.executing.pc = .ok (physical s.cfg.segments s.pc) := by
  obtain ⟨-, -, -, hcfg, hpc, -⟩ := s.executing_kept
  rw [hpc]
  exact (State.translate_ok ..).mpr ⟨h, by rw [hcfg]⟩

theorem fetches_of_fetchBytes {s : State} {bs : List Byte} (hp : s.beginStep.interruptPending = false)
    (ha : Accessible .fetch 4 s.pc s.executing) (h : s.fetchBytes (physical s.cfg.segments s.pc) 4 = .ok bs) :
    Fetches s bs := by
  refine ⟨hp, ?_⟩
  rw [← State.fetchBytes_executing] at h
  simp only [State.fetch, State.translate_executing ha, h]

theorem step_of_fetchBytes_error {s : State} {r : Refusal} (hp : s.beginStep.interruptPending = false)
    (ha : Accessible .fetch 4 s.pc s.executing) (h : s.fetchBytes (physical s.cfg.segments s.pc) 4 = .error r) :
    step s = .refused r := by
  have refused : s.beginStep.deliver.fetch = .refused r := by
    rw [← State.fetchBytes_executing] at h
    rw [← State.executing]
    simp only [State.fetch, State.translate_executing ha, h]
  unfold step runStep
  simp [hp, refused]

/-- Settles O6. A fetched instruction runs by `step_of_fetches`; the bytes are fetched one by one, and the first that is
refused ends the fetch and the step. -/
theorem stepRunsDecodedInstruction : Obligations.StepRunsDecodedInstruction := by
  refine ⟨fun s bs i hf hd => ?runs, ?fetches⟩
  case runs =>
    obtain ⟨-, -, -, hcfg, -⟩ := s.executing_kept
    rw [step_of_fetches hf, hcfg, hd]
    rfl
  case fetches =>
    rintro s p hp ha rfl
    refine ⟨fun b0 b1 b2 b3 h0 h1 h2 h3 hs0 hs1 hs2 hs3 => ?bytes, fun k hk before => ?refused⟩
    case bytes =>
      refine fetches_of_fetchBytes hp ha ?_
      have two (p : Word) : p + 1 + 1 = p + 2 := BitVec.add_assoc p 1 1
      have three (p : Word) : p + 2 + 1 = p + 3 := BitVec.add_assoc p 2 1
      rw [State.fetchBytes_of_cell hs0 h0, State.fetchBytes_of_cell hs1 h1, two, State.fetchBytes_of_cell hs2 h2, three,
        State.fetchBytes_of_cell hs3 h3]
      rfl
    case refused =>
      have stops {r : Refusal}
          (h : ∀ n, s.fetchBytes (physical s.cfg.segments s.pc + BitVec.ofNat 32 k) (n + 1) = .error r) :
          step s = .refused r := by
        refine step_of_fetchBytes_error hp ha ?_
        obtain ⟨n, hn⟩ : ∃ n, 4 = n + 1 + k := ⟨3 - k, by omega⟩
        rw [hn]
        exact State.fetchBytes_error_after k (n + 1) _ before (h n)
      exact ⟨fun hs => stops (State.fetchBytes_of_stored hs),
        fun hs hc => stops (State.fetchBytes_of_unwritten hs (State.cell_eq_none hc))⟩

end Sys2Proof.Machine
end

section
/-! Memory: the byte order of an instruction (O4), and the exceptions of an access that fails a check, on a fetch (O9)
and on a load or store (O44). -/

namespace Sys2Proof.Machine

/-! ## Byte order (20_memory.md R70, R71) -/

/-- A word is its four bytes, the most significant first. -/
theorem append_bytes_eq (w : Word) :
    w.extractLsb' 24 8 ++ w.extractLsb' 16 8 ++ w.extractLsb' 8 8 ++ w.extractLsb' 0 8 = w := by
  rw [BitVec.extractLsb'_append_extractLsb'_eq_extractLsb' (by rfl),
    BitVec.extractLsb'_append_extractLsb'_eq_extractLsb' (by rfl),
    BitVec.extractLsb'_append_extractLsb'_eq_extractLsb' (by rfl)]
  exact BitVec.extractLsb'_eq_self

/-- Settles O4: `decodeBytes` decodes the word that the four bytes make, and these make up `w` in either order. -/
theorem instructionByteOrder : Obligations.InstructionByteOrder := by
  rintro bigEndian enc w b0 b1 b2 b3 rfl rfl rfl rfl
  rw [decodeBytes, bytesToWord_four]
  cases bigEndian <;> exact congrArg (decodeWord enc) (append_bytes_eq w)

/-! ## A fetch that fails a check (20_memory.md R76, R78) -/

theorem step_takes_of_fetch_error {s : State} {e : Exc} (hp : s.beginStep.interruptPending = false)
    (h : s.executing.translate .fetch 4 s.executing.pc = .error e) : Takes (step s) e s.executing := by
  have raised : s.executing.fetch = .raised e := by rw [State.fetch, h]
  have taken : step s = takeException e s.executing := by
    rw [State.executing] at raised ⊢
    simp [step, runStep, hp, raised]
  rw [taken]
  exact takeException_takes e s.executing

/-- Settles O9: a fetch takes whatever exception its checks give (`step_takes_of_fetch_error`), which is an Address Error
for the alignment or the mode, and a Bus Error for the platform only where both of these pass. -/
theorem fetchErrors : Obligations.FetchErrors := by
  intro s hp
  obtain ⟨-, -, -, hcfg, hpc, -⟩ := s.executing_kept
  constructor
  · intro h
    refine step_takes_of_fetch_error hp ?_
    rw [hpc]
    exact State.translate_addressError _ .fetch 4 _ h
  · intro haligned hmode hbus
    refine step_takes_of_fetch_error hp ?_
    rw [hpc]
    exact State.translate_busError _ .fetch 4 _ haligned hmode (by rw [hcfg]; exact hbus)

/-! ## Which shared access each load and store is (40_load_store.md R141 to R152) -/

section
variable (rt base : Reg) (offset : BitVec 16) (s : State)

theorem exec_lb : exec (.lb rt offset base) s =
    loadWith (.lb rt offset base) 1 (fun b => (b.setWidth 8).signExtend 32) rt offset base s := rfl

theorem exec_lbu : exec (.lbu rt offset base) s =
    loadWith (.lbu rt offset base) 1 (fun b => (b.setWidth 8).setWidth 32) rt offset base s := rfl

theorem exec_lh : exec (.lh rt offset base) s =
    loadWith (.lh rt offset base) 2 (fun h => (h.setWidth 16).signExtend 32) rt offset base s := rfl

theorem exec_lhu : exec (.lhu rt offset base) s =
    loadWith (.lhu rt offset base) 2 (fun h => (h.setWidth 16).setWidth 32) rt offset base s := rfl

theorem exec_lw : exec (.lw rt offset base) s = loadWith (.lw rt offset base) 4 (fun w => w) rt offset base s := rfl

theorem exec_lwl : exec (.lwl rt offset base) s = loadLeft (.lwl rt offset base) rt offset base s := rfl

theorem exec_lwr : exec (.lwr rt offset base) s = loadRight (.lwr rt offset base) rt offset base s := rfl

theorem exec_sb : exec (.sb rt offset base) s = storeOf (.sb rt offset base) 1 rt offset base s := rfl

theorem exec_sh : exec (.sh rt offset base) s = storeOf (.sh rt offset base) 2 rt offset base s := rfl

theorem exec_sw : exec (.sw rt offset base) s = storeOf (.sw rt offset base) 4 rt offset base s := rfl

theorem exec_swl : exec (.swl rt offset base) s = storeLeft (.swl rt offset base) rt offset base s := rfl

theorem exec_swr : exec (.swr rt offset base) s = storeRight (.swr rt offset base) rt offset base s := rfl

end

/-! ## A load or store that fails a check (20_memory.md R76; 40_load_store.md R153)

Every access makes its checks before it reads or writes anything, and raises what they give. -/

section
variable {s : State} {i : Instr} {n : Nat} {rt base : Reg} {offset : BitVec 16} {e : Exc}

theorem takes_of_loadWith {convert : Word → Word} (hi : exec i s = loadWith i n convert rt offset base s)
    (h : s.translate .load n (s.effectiveAddress base offset) = .error e) : Takes (exec i s) e s := by
  rw [hi, loadWith, h]
  exact raise_takes [base] e s

theorem takes_of_storeOf (hi : exec i s = storeOf i n rt offset base s)
    (h : s.translate .store n (s.effectiveAddress base offset) = .error e) : Takes (exec i s) e s := by
  rw [hi, storeOf, h]
  exact raise_takes [base] e s

theorem takes_of_loadLeft (hi : exec i s = loadLeft i rt offset base s)
    (h : s.translate .load 1 (leftStart s.cfg.bigEndian (s.effectiveAddress base offset)) = .error e) :
    Takes (exec i s) e s := by
  rw [hi, loadLeft, h]
  exact raise_takes [base] e s

theorem takes_of_loadRight (hi : exec i s = loadRight i rt offset base s)
    (h : s.translate .load 1 (rightStart s.cfg.bigEndian (s.effectiveAddress base offset)) = .error e) :
    Takes (exec i s) e s := by
  rw [hi, loadRight, h]
  exact raise_takes [base] e s

theorem takes_of_storeLeft (hi : exec i s = storeLeft i rt offset base s)
    (h : s.translate .store 1 (leftStart s.cfg.bigEndian (s.effectiveAddress base offset)) = .error e) :
    Takes (exec i s) e s := by
  rw [hi, storeLeft, h]
  exact raise_takes [base] e s

theorem takes_of_storeRight (hi : exec i s = storeRight i rt offset base s)
    (h : s.translate .store 1 (rightStart s.cfg.bigEndian (s.effectiveAddress base offset)) = .error e) :
    Takes (exec i s) e s := by
  rw [hi, storeRight, h]
  exact raise_takes [base] e s

end

theorem addressError_data {kind : AccessKind} (h : kind ≠ .fetch) (a : Word) :
    addressError kind a = if kind = .load then .addressErrorLoad a else .addressErrorStore a := by
  cases kind with
  | load => rfl
  | store => rfl
  | fetch => exact absurd rfl h

theorem busError_data {kind : AccessKind} (h : kind ≠ .fetch) : busError kind = .busErrorData := by
  cases kind with
  | load => rfl
  | store => rfl
  | fetch => exact absurd rfl h

/-- Settles O44: each of the twelve loads and stores takes the exception of its access, with no other effect, where the
checks of the access give one; which one they give is `State.translate_addressError` and `State.translate_busError`. -/
theorem dataAccessErrors : Obligations.DataAccessErrors := by
  rintro rt offset base s i kind n a _ rfl access
  have data : kind ≠ .fetch := by
    rintro rfl
    simp at access
  have takes {e : Exc} (h : s.translate kind n a = .error e) : Takes (exec i s) e s := by
    rcases access with ⟨rfl, rfl, load⟩ | ⟨rfl, rfl, store⟩ | ⟨rfl, left, rfl⟩ | ⟨rfl, right, rfl⟩
    case inl =>
      rcases load with ⟨rfl, rfl | rfl⟩ | ⟨rfl, rfl | rfl⟩ | ⟨rfl, rfl⟩
      · exact takes_of_loadWith (exec_lb ..) h
      · exact takes_of_loadWith (exec_lbu ..) h
      · exact takes_of_loadWith (exec_lh ..) h
      · exact takes_of_loadWith (exec_lhu ..) h
      · exact takes_of_loadWith (exec_lw ..) h
    case inr.inl =>
      rcases store with ⟨rfl, rfl⟩ | ⟨rfl, rfl⟩ | ⟨rfl, rfl⟩
      · exact takes_of_storeOf (exec_sb ..) h
      · exact takes_of_storeOf (exec_sh ..) h
      · exact takes_of_storeOf (exec_sw ..) h
    case inr.inr.inl =>
      rcases left with ⟨rfl, rfl⟩ | ⟨rfl, rfl⟩
      · exact takes_of_loadLeft (exec_lwl ..) h
      · exact takes_of_storeLeft (exec_swl ..) h
    case inr.inr.inr =>
      rcases right with ⟨rfl, rfl⟩ | ⟨rfl, rfl⟩
      · exact takes_of_loadRight (exec_lwr ..) h
      · exact takes_of_storeRight (exec_swr ..) h
  constructor
  · intro h
    rw [← addressError_data data]
    exact takes (State.translate_addressError s kind n a h)
  · intro haligned hmode hbus
    rw [← busError_data data]
    exact takes (State.translate_busError s kind n a haligned hmode hbus)

end Sys2Proof.Machine
end

section
/-! Encoding: the decoder gives back what was encoded (O2, O1), a word that decodes to an instruction is its encoding
(O3), the words that are no instruction are those of 30_encoding.md R123 and 45_coprocessor.md R266 (O5), and what the
step does with them (O7). O3, O5 and the constant-zero fields of O7 rest on one walk through the decoder's tables,
`reading_decodeWord`. -/

namespace Sys2Proof

/-! ## Decoding after encoding (30_encoding.md R120) -/

/-- Settles O2, table by table: the fields of an encoding are those it is written with, and its constant-zero fields are
zero. (Two literal fields side by side stay two fields, since the lemmas on fields speak of words written field by field.) -/
theorem decodeOfEncode : Obligations.DecodeOfEncode := by
  intro enc i
  cases i with
  | lb rt offset base | lbu rt offset base | lh rt offset base | lhu rt offset base | lw rt offset base
  | lwl rt offset base | lwr rt offset base | sb rt offset base | sh rt offset base | sw rt offset base
  | swl rt offset base | swr rt offset base | addi rt rs imm | addiu rt rs imm | slti rt rs imm | sltiu rt rs imm
  | andi rt rs imm | ori rt rs imm | xori rt rs imm | lui rt imm | j target | jal target | beq rs rt offset
  | bne rs rt offset | blez rs offset | bgtz rs offset =>
    simp [-BitVec.reduceAppend, encode, decodeWord, decodeMajor, whenZero]
  | bltz rs offset | bgez rs offset | bltzal rs offset | bgezal rs offset =>
    simp [-BitVec.reduceAppend, encode, decodeWord, decodeRegimm]
  | add rd rs rt | addu rd rs rt | sub rd rs rt | subu rd rs rt | slt rd rs rt | sltu rd rs rt | and rd rs rt
  | or rd rs rt | xor rd rs rt | nor rd rs rt | sll rd rt shamt | srl rd rt shamt | sra rd rt shamt | sllv rd rt rs
  | srlv rd rt rs | srav rd rt rs | div rs rt | divu rs rt | jr rs | jalr rs rd | syscall code | brk code | mfhi rd
  | mthi rs | mflo rd | mtlo rs =>
    simp [-BitVec.reduceAppend, encode, decodeWord, decodeSpecial, whenZero]
  | mult rs rt | multu rs rt =>
    cases enc <;> simp [-BitVec.reduceAppend, encode, functMult, functMultu, decodeWord, decodeSpecial, whenZero]
  | bc0f offset | bc1f offset | bc2f offset | bc3f offset | bc0t offset | bc1t offset | bc2t offset | bc3t offset =>
    simp [-BitVec.reduceAppend, encode, decodeWord, decodeCop, fieldCop, branchFalse, branchTrue]
  | mfc0 rt rd | mfc1 rt rd | mfc2 rt rd | mfc3 rt rd | mtc0 rt rd | mtc1 rt rd | mtc2 rt rd | mtc3 rt rd =>
    have low11 : 0#5 ++ 0#6 = 0#11 := rfl
    simp [-BitVec.reduceAppend, encode, decodeWord, decodeCop, fieldCop, moveFrom, moveTo, whenZero, low11]
  | rfe => cases enc <;> rfl

theorem decodeWord_of_encode_eq {enc : MulDivEncoding} {w : Word} {i : Instr} (h : encode enc i = w) :
    decodeWord enc w = .instr i :=
  h ▸ decodeOfEncode enc i

/-- Settles O1: each word is the encoding of the instruction it stands for. -/
theorem specWordsDecode : Obligations.SpecWordsDecode := by
  unfold Obligations.SpecWordsDecode
  refine ⟨?_, ?_, ?_, ?_, ?_, ?_, ?_, ?_, ?_, ?_, ?_, ?_, ?_, ?_, ?_, ?_⟩
  all_goals exact decodeWord_of_encode_eq rfl

/-! ## A word but for its constant-zero fields (30_encoding.md R121) -/

/-- `x` is `w` but for fields that are 0 in `x`; that these are 0 in `w` too is `p`. -/
structure Clears {n : Nat} (p : Prop) (x w : BitVec n) : Prop where
  eq_iff : x = w ↔ p
  and_eq : x &&& w = x

section
variable {m n : Nat} {p q : Prop} {x w : BitVec m} {y v : BitVec n}

theorem Clears.refl (x : BitVec m) : Clears True x x := ⟨by simp, BitVec.and_self⟩

theorem Clears.zero (w : BitVec m) : Clears (w = 0) 0 w := ⟨eq_comm, BitVec.zero_and⟩

theorem Clears.congr (h : Clears p x w) (hpq : p ↔ q) : Clears q x w := ⟨h.eq_iff.trans hpq, h.and_eq⟩

theorem Clears.append (hx : Clears p x w) (hy : Clears q y v) : Clears (p ∧ q) (x ++ y) (w ++ v) where
  eq_iff := by
    rw [← hx.eq_iff, ← hy.eq_iff]
    constructor
    · intro h
      have high := congrArg (BitVec.extractLsb' n m) h
      have low := congrArg (BitVec.extractLsb' 0 n) h
      rw [BitVec.extractLsb'_append_eq_left, BitVec.extractLsb'_append_eq_left] at high
      rw [BitVec.extractLsb'_append_eq_right, BitVec.extractLsb'_append_eq_right] at low
      exact ⟨high, low⟩
    · rintro ⟨rfl, rfl⟩
      rfl
  and_eq := by rw [BitVec.and_append, hx.and_eq, hy.and_eq]

end

section
variable {w : Word} {a b c d : Reg} {f : BitVec 6} {pa pb pc pd pf : Prop}

theorem clears_iType (ha : Clears pa a (fieldRs w)) (hb : Clears pb b (fieldRt w)) :
    Clears (pa ∧ pb) (fieldOp w ++ a ++ b ++ fieldImm w) w := by
  have fields := (((Clears.refl (fieldOp w)).append ha).append hb).append (.refl (fieldImm w))
  have whole : Clears _ (fieldOp w ++ a ++ b ++ fieldImm w) w := Eq.subst (word_iType w).symm fields
  exact whole.congr (by simp)

theorem clears_rType (ha : Clears pa a (fieldRs w)) (hb : Clears pb b (fieldRt w)) (hc : Clears pc c (fieldRd w))
    (hd : Clears pd d (fieldShamt w)) (hf : Clears pf f (fieldFunct w)) :
    Clears (pa ∧ pb ∧ pc ∧ pd ∧ pf) (fieldOp w ++ a ++ b ++ c ++ d ++ f) w := by
  have fields := (((((Clears.refl (fieldOp w)).append ha).append hb).append hc).append hd).append hf
  have whole : Clears _ (fieldOp w ++ a ++ b ++ c ++ d ++ f) w := Eq.subst (word_rType w).symm fields
  exact whole.congr (by simp [and_assoc])

end

/-- The layout of RFE: bit 25, and a constant field of 20 bits (R119). -/
theorem word_copOperation (w : Word) :
    w = fieldOp w ++ w.extractLsb' 25 1 ++ w.extractLsb' 5 20 ++ w.extractLsb' 0 5 := by
  rw [fieldOp, BitVec.extractLsb'_append_extractLsb'_eq_extractLsb' (by rfl),
    BitVec.extractLsb'_append_extractLsb'_eq_extractLsb' (by rfl),
    BitVec.extractLsb'_append_extractLsb'_eq_extractLsb' (by rfl)]
  exact BitVec.extractLsb'_eq_self.symm

/-! ## The fields as numbers -/

theorem fieldOp_toNat (w : Word) : (fieldOp w).toNat = w.toNat / 2 ^ 26 := by
  simp only [fieldOp, BitVec.extractLsb'_toNat, Nat.shiftRight_eq_div_pow]
  omega

theorem fieldRs_toNat (w : Word) : (fieldRs w).toNat = w.toNat / 2 ^ 21 % 32 := by
  simp [fieldRs, Nat.shiftRight_eq_div_pow]

theorem fieldRt_toNat (w : Word) : (fieldRt w).toNat = w.toNat / 2 ^ 16 % 32 := by
  simp [fieldRt, Nat.shiftRight_eq_div_pow]

theorem fieldFunct_toNat (w : Word) : (fieldFunct w).toNat = w.toNat % 64 := by
  simp [fieldFunct]

theorem low5_toNat (w : Word) : (w.extractLsb' 0 5).toNat = w.toNat % 32 := by
  simp

/-! ## The words that are no instruction (30_encoding.md R123; 45_coprocessor.md R266) -/

abbrev UndefinedMajor (op : Nat) : Prop :=
  op ∈ [0b010100, 0b010101, 0b010110, 0b010111, 0b011000, 0b011001, 0b011010, 0b011011, 0b011100, 0b011101, 0b011110,
    0b011111, 0b100111, 0b101100, 0b101101, 0b101111] ∨ 0b110000 ≤ op

abbrev UndefinedFunct (enc : MulDivEncoding) (funct : Nat) : Prop :=
  funct ∈ [0b000001, 0b000101, 0b001010, 0b001011, 0b001111, 0b010100, 0b010101, 0b010110, 0b010111, 0b011100, 0b011101,
    0b011110, 0b011111, 0b101000, 0b101001] ∨ 0b101100 ≤ funct ∨
    funct = (match enc with | .source => 0b011001 | .mips1 => 0b001110)

abbrev UndefinedRegimm (rt : Nat) : Prop := rt ∉ [0b00000, 0b00001, 0b10000, 0b10001]

/-- An undefined encoding outside the COPz words. -/
def UndefinedEncoding (enc : MulDivEncoding) (w : Word) : Prop :=
  UndefinedMajor (fieldOp w).toNat ∨ ((fieldOp w).toNat = 0 ∧ UndefinedFunct enc (fieldFunct w).toNat) ∨
    ((fieldOp w).toNat = 1 ∧ UndefinedRegimm (fieldRt w).toNat)

/-- A COPz operation, z = 1 to 3: a COPz word with bit 25 set. -/
def IsCopOperation (w : Word) (z : Unit4) : Prop :=
  z ≠ 0 ∧ (fieldOp w).toNat = 16 + z.toNat ∧ 16 ≤ (fieldRs w).toNat

/-- A COPz word with an undefined minor opcode, in bits 20:16 if `branch`. -/
def UndefinedMinor (w : Word) (z : Unit4) (branch : Bool) : Prop :=
  (fieldOp w).toNat = 16 + z.toNat ∧
    ((branch = false ∧ (fieldRs w).toNat < 16 ∧ (fieldRs w).toNat ∉ [0b00000, 0b00100, 0b01000]) ∨
     (branch = true ∧ (fieldRs w).toNat = 0b01000 ∧ 2 ≤ (fieldRt w).toNat) ∨
     (branch = false ∧ z = 0 ∧ 16 ≤ (fieldRs w).toNat ∧ (w.extractLsb' 0 5).toNat ≠ 0b10000))

/-- None of the three. -/
structure Defined (enc : MulDivEncoding) (w : Word) : Prop where
  encoding : ¬ UndefinedEncoding enc w
  operation : ∀ z, ¬ IsCopOperation w z
  minor : ∀ z branch, ¬ UndefinedMinor w z branch

/-! ### The three exclude each other -/

section
variable {enc : MulDivEncoding} {w : Word} {y z : Unit4} {branch branch' : Bool}

theorem unit_inj (hy : (fieldOp w).toNat = 16 + y.toNat) (hz : (fieldOp w).toNat = 16 + z.toNat) : y = z :=
  BitVec.eq_of_toNat_eq (by omega)

/-- The major opcodes of COPz are defined. -/
theorem not_undefinedEncoding_of_unit (hop : (fieldOp w).toNat = 16 + z.toNat) : ¬ UndefinedEncoding enc w := by
  have lt := z.isLt
  rintro (major | ⟨special, -⟩ | ⟨regimm, -⟩)
  · simp only [UndefinedMajor, List.mem_cons, List.not_mem_nil, or_false] at major
    omega
  · omega
  · omega

theorem IsCopOperation.unique (h : IsCopOperation w y) (h' : IsCopOperation w z) : y = z := unit_inj h.2.1 h'.2.1

theorem IsCopOperation.not_undefinedMinor (h : IsCopOperation w y) : ¬ UndefinedMinor w z branch := by
  obtain ⟨hy, hop, hrs⟩ := h
  rintro ⟨hop', ⟨-, low, -⟩ | ⟨-, bc, -⟩ | ⟨-, hz, -⟩⟩
  · omega
  · omega
  · exact hy ((unit_inj hop hop').trans hz)

/-- Bits 20:16 are what is undefined exactly where bits 25:21 are BC. -/
theorem UndefinedMinor.branch_iff (h : UndefinedMinor w z branch) : branch = true ↔ (fieldRs w).toNat = 0b01000 := by
  obtain ⟨-, ⟨rfl, -, other⟩ | ⟨rfl, bc, -⟩ | ⟨rfl, -, high, -⟩⟩ := h
  · simp only [List.mem_cons, List.not_mem_nil, not_or] at other
    simpa using other.2.2.1
  · simpa using bc
  · simp only [Bool.false_eq_true, false_iff]
    omega

theorem UndefinedMinor.unique (h : UndefinedMinor w y branch) (h' : UndefinedMinor w z branch') :
    y = z ∧ branch = branch' :=
  ⟨unit_inj h.1 h'.1, Bool.eq_iff_iff.mpr (h.branch_iff.trans h'.branch_iff.symm)⟩

end

/-! ## What the decoder answers, and on which words -/

/-- No usability check comes before the constant-zero fields of `i`, or it is one of the moves of a COPz unit or RFE, and
so no branch on a condition. -/
def PlainOrMove (i : Instr) : Prop :=
  (∀ s, Machine.usabilityOf i s = none) ∨ (∃ z rt rd, i = moveFrom z rt rd ∨ i = moveTo z rt rd) ∨ i = .rfe

/-- What an answer of the decoder says of the word. -/
inductive Reading (enc : MulDivEncoding) (w : Word) : Decoded → Prop where
  | instr {i : Instr} (defined : Defined enc w) (h : encode enc i = w) : Reading enc w (.instr i)
  | nonZeroField {i : Instr} (defined : Defined enc w) (plain : PlainOrMove i) (ne : encode enc i ≠ w)
      (and_eq : encode enc i &&& w = encode enc i) : Reading enc w (.nonZeroField i)
  | reserved (h : UndefinedEncoding enc w) : Reading enc w .reserved
  | copReserved {z : Unit4} {branch : Bool} (h : UndefinedMinor w z branch) : Reading enc w (.copReserved z branch)
  | copOperation {z : Unit4} (h : IsCopOperation w z) : Reading enc w (.copOperation z)

section
variable {enc : MulDivEncoding} {w : Word} {zero : Bool} {i : Instr}

theorem Reading.whenZero (defined : Defined enc w) (plain : PlainOrMove i)
    (h : Clears (zero = true) (encode enc i) w) : Reading enc w (whenZero zero i) := by
  cases zero with
  | true => exact .instr defined (h.eq_iff.mpr rfl)
  | false => exact .nonZeroField defined plain (by simp [h.eq_iff]) h.and_eq

/-! ### SPECIAL (R115) -/

theorem defined_of_not_cop {o : BitVec 6} (hop : fieldOp w = o) (not_cop : ∀ z : Unit4, o.toNat ≠ 16 + z.toNat)
    (defined : ¬ UndefinedEncoding enc w) : Defined enc w where
  encoding := defined
  operation z h := not_cop z (hop ▸ h.2.1)
  minor z _ h := not_cop z (hop ▸ h.1)

theorem undefinedEncoding_of_special (hop : fieldOp w = 0#6) :
    UndefinedEncoding enc w ↔ UndefinedFunct enc (fieldFunct w).toNat := by
  simp [UndefinedEncoding, hop]

theorem defined_of_special {f : BitVec 6} (hop : fieldOp w = 0#6) (hf : fieldFunct w = f)
    (defined : ¬ UndefinedFunct enc f.toNat) : Defined enc w :=
  defined_of_not_cop hop (by decide) (by rwa [undefinedEncoding_of_special hop, hf])

/-- A row of the table of SPECIAL words: of the four fields between the opcode fields each is an operand (`Clears.refl`)
or constant zero (`Clears.zero`). -/
theorem reading_special {f : BitVec 6} {a b c d : Reg} {pa pb pc pd : Prop} (hop : fieldOp w = 0#6)
    (hf : fieldFunct w = f) (ha : Clears pa a (fieldRs w)) (hb : Clears pb b (fieldRt w))
    (hc : Clears pc c (fieldRd w)) (hd : Clears pd d (fieldShamt w))
    (defined : ¬ UndefinedFunct enc f.toNat := by cases enc <;> decide)
    (hi : encode enc i = 0#6 ++ a ++ b ++ c ++ d ++ f := by rfl)
    (hz : pa ∧ pb ∧ pc ∧ pd ↔ zero = true := by simp [and_assoc])
    (unchecked : ∀ s, Machine.usabilityOf i s = none := by intro s; rfl) : Reading enc w (whenZero zero i) := by
  refine .whenZero (defined_of_special hop hf defined) (.inl unchecked) ?_
  rw [hi, ← hop, ← hf]
  exact (clears_rType ha hb hc hd (.refl _)).congr (by simpa using hz)

theorem reading_decodeSpecial (enc : MulDivEncoding) (hop : fieldOp w = 0#6) :
    Reading enc w (decodeSpecial enc w) := by
  unfold decodeSpecial
  split
  -- SLL, SRL, SRA
  case h_1 h | h_2 h | h_3 h => exact reading_special hop h (.zero _) (.refl _) (.refl _) (.refl _)
  -- SLLV, SRLV, SRAV, and the arithmetic, logic and comparison of two registers
  case h_4 h | h_5 h | h_6 h | h_20 h | h_21 h | h_22 h | h_23 h | h_24 h | h_25 h | h_26 h | h_27 h | h_28 h | h_29 h =>
    exact reading_special hop h (.refl _) (.refl _) (.refl _) (.zero _)
  -- JR, MTHI, MTLO
  case h_7 h | h_13 h | h_15 h => exact reading_special hop h (.refl _) (.zero _) (.zero _) (.zero _)
  -- JALR
  case h_8 h => exact reading_special hop h (.refl _) (.zero _) (.refl _) (.zero _)
  -- MFHI, MFLO
  case h_12 h | h_14 h => exact reading_special hop h (.zero _) (.zero _) (.refl _) (.zero _)
  -- DIV, DIVU
  case h_18 h | h_19 h => exact reading_special hop h (.refl _) (.refl _) (.zero _) (.zero _)
  -- SYSCALL, BREAK
  case h_9 h | h_10 h =>
    refine .instr (defined_of_special hop h (by cases enc <;> decide)) ?_
    rw [encode, ← hop, ← h]
    exact (word_codeType w).symm
  -- The three codes that MULT and MULTU share out by MULDIV_ENCODING (R129)
  case h_11 h =>
    cases enc with
    | source => exact reading_special hop h (.refl _) (.refl _) (.zero _) (.zero _) (by decide)
    | mips1 => exact .reserved ((undefinedEncoding_of_special hop).mpr (by rw [h]; decide))
  case h_16 h =>
    cases enc with
    | source => exact reading_special hop h (.refl _) (.refl _) (.zero _) (.zero _) (by decide)
    | mips1 => exact reading_special hop h (.refl _) (.refl _) (.zero _) (.zero _) (by decide)
  case h_17 h =>
    cases enc with
    | source => exact .reserved ((undefinedEncoding_of_special hop).mpr (by rw [h]; decide))
    | mips1 => exact reading_special hop h (.refl _) (.refl _) (.zero _) (.zero _) (by decide)
  -- None of the codes above
  case h_30 =>
    refine .reserved ((undefinedEncoding_of_special hop).mpr ?_)
    have lt : (fieldFunct w).toNat < 64 := (fieldFunct w).isLt
    simp only [imp_false, ← BitVec.toNat_inj, BitVec.toNat_ofNat] at *
    cases enc <;> simp only [UndefinedFunct, List.mem_cons, List.not_mem_nil, or_false] <;> omega

/-! ### REGIMM (R116) -/

theorem undefinedEncoding_of_regimm (hop : fieldOp w = 1#6) :
    UndefinedEncoding enc w ↔ UndefinedRegimm (fieldRt w).toNat := by
  simp [UndefinedEncoding, hop]

theorem reading_decodeRegimm (enc : MulDivEncoding) (hop : fieldOp w = 1#6) : Reading enc w (decodeRegimm w) := by
  unfold decodeRegimm
  split
  case h_1 h | h_2 h | h_3 h | h_4 h =>
    refine .instr (defined_of_not_cop hop (by decide) ?_) ?_
    · rw [undefinedEncoding_of_regimm hop, h]
      decide
    · rw [encode, ← hop, ← h]
      exact (word_iType w).symm
  case h_5 =>
    refine .reserved ((undefinedEncoding_of_regimm hop).mpr ?_)
    simp_all [UndefinedRegimm, ← BitVec.toNat_inj]

/-! ### The other major opcodes (R114) -/

/-- A defined major opcode that no other table belongs to. -/
abbrev OwnMajor (o : BitVec 6) : Prop :=
  ¬ UndefinedMajor o.toNat ∧ o.toNat ≠ 0 ∧ o.toNat ≠ 1 ∧ ∀ z : Unit4, o.toNat ≠ 16 + z.toNat

theorem defined_of_major {o : BitVec 6} (hop : fieldOp w = o) (ho : OwnMajor o) : Defined enc w := by
  obtain ⟨major, special, regimm, not_cop⟩ := ho
  refine defined_of_not_cop hop not_cop ?_
  rw [UndefinedEncoding, hop]
  simp only [special, regimm, major, false_and, or_false, not_false_eq_true]

/-- A row of the table of major opcodes that has a constant-zero field. -/
theorem reading_iType {o : BitVec 6} {a b : Reg} {pa pb : Prop} (hop : fieldOp w = o)
    (ha : Clears pa a (fieldRs w)) (hb : Clears pb b (fieldRt w)) (ho : OwnMajor o := by decide)
    (hi : encode enc i = o ++ a ++ b ++ fieldImm w := by rfl) (hz : pa ∧ pb ↔ zero = true := by simp)
    (unchecked : ∀ s, Machine.usabilityOf i s = none := by intro s; rfl) : Reading enc w (whenZero zero i) := by
  refine .whenZero (defined_of_major hop ho) (.inl unchecked) ?_
  rw [hi, ← hop]
  exact (clears_iType ha hb).congr hz

theorem reading_decodeMajor (enc : MulDivEncoding) (special : fieldOp w ≠ 0#6) (regimm : fieldOp w ≠ 1#6)
    (cop : w.extractLsb' 28 4 ≠ 4#4) : Reading enc w (decodeMajor w) := by
  unfold decodeMajor
  split
  -- J, JAL
  case h_1 h | h_2 h =>
    refine .instr (defined_of_major h (by decide)) ?_
    rw [encode, ← h]
    exact (word_jType w).symm
  -- BLEZ, BGTZ
  case h_5 h | h_6 h => exact reading_iType h (.refl _) (.zero _)
  -- LUI
  case h_14 h => exact reading_iType h (.zero _) (.refl _)
  -- None of the codes of the table
  case h_27 =>
    refine .reserved (.inl ?_)
    have not_cop : (fieldOp w).extractLsb' 2 4 ≠ 4#4 := by
      rwa [fieldOp_cop w, BitVec.extractLsb'_append_eq_left]
    have lt : (fieldOp w).toNat < 64 := (fieldOp w).isLt
    clear cop
    simp only [imp_false, ne_eq, ← BitVec.toNat_inj, BitVec.extractLsb'_toNat, BitVec.toNat_ofNat,
      Nat.shiftRight_eq_div_pow] at *
    simp only [UndefinedMajor, List.mem_cons, List.not_mem_nil, or_false]
    omega
  -- The rows without a constant-zero field
  all_goals
    next h =>
    refine .instr (defined_of_major h (by decide)) ?_
    rw [encode, ← h]
    exact (word_iType w).symm

/-! ### COPz (R117 to R119) -/

theorem fieldOp_toNat_eq_unit {z : Unit4} (cop : w.extractLsb' 28 4 = 4#4) :
    (fieldOp w).toNat = 16 + z.toNat ↔ fieldCop w = z := by
  rw [fieldOp_cop, cop]
  generalize fieldCop w = y
  revert y z
  decide

/-- A COPz word with a defined minor opcode: MF, MT, BC with BCF or BCT, or COP0 with RFE. -/
theorem defined_of_cop (cop : w.extractLsb' 28 4 = 4#4)
    (h : (fieldRs w).toNat = 0 ∨ (fieldRs w).toNat = 4 ∨ ((fieldRs w).toNat = 8 ∧ (fieldRt w).toNat < 2) ∨
      (fieldCop w = 0 ∧ 16 ≤ (fieldRs w).toNat ∧ (w.extractLsb' 0 5).toNat = 16)) : Defined enc w where
  encoding := not_undefinedEncoding_of_unit ((fieldOp_toNat_eq_unit cop).mpr rfl)
  operation := by
    rintro z ⟨hz, hop, hrs⟩
    obtain rfl := (fieldOp_toNat_eq_unit cop).mp hop
    simp only [hz, false_and, or_false] at h
    omega
  minor := by
    rintro z branch ⟨-, h'⟩
    simp only [List.mem_cons, List.not_mem_nil, or_false] at h'
    omega

/-- The encodings of the four forms that name their unit z in bits 27:26 (R105). -/
theorem encode_unit (enc : MulDivEncoding) (z : Unit4) (rt rd : Reg) (offset : BitVec 16) :
    encode enc (moveFrom z rt rd) = (0b0100#4 ++ z : BitVec 6) ++ 0b00000#5 ++ rt ++ rd ++ 0b00000#5 ++ 0b000000#6 ∧
    encode enc (moveTo z rt rd) = (0b0100#4 ++ z : BitVec 6) ++ 0b00100#5 ++ rt ++ rd ++ 0b00000#5 ++ 0b000000#6 ∧
    encode enc (branchFalse z offset) = (0b0100#4 ++ z : BitVec 6) ++ 0b01000#5 ++ 0b00000#5 ++ offset ∧
    encode enc (branchTrue z offset) = (0b0100#4 ++ z : BitVec 6) ++ 0b01000#5 ++ 0b00001#5 ++ offset := by
  obtain rfl | rfl | rfl | rfl : z = 0#2 ∨ z = 1#2 ∨ z = 2#2 ∨ z = 3#2 := by revert z; decide
  all_goals exact ⟨rfl, rfl, rfl, rfl⟩

theorem reading_move {minor : BitVec 5} (cop : w.extractLsb' 28 4 = 4#4) (hrs : fieldRs w = minor)
    (hminor : minor.toNat = 0 ∨ minor.toNat = 4)
    (hi : encode enc i =
      (0b0100#4 ++ fieldCop w : BitVec 6) ++ minor ++ fieldRt w ++ fieldRd w ++ 0b00000#5 ++ 0b000000#6)
    (plain : PlainOrMove i) : Reading enc w (whenZero (w.extractLsb' 0 11 == 0) i) := by
  refine .whenZero (defined_of_cop cop (by rw [hrs]; omega)) plain ?_
  have low11 : w.extractLsb' 0 11 = 0 ↔ fieldShamt w = 0 ∧ fieldFunct w = 0 := by
    rw [low11_eq, eq_comm]
    exact ((Clears.zero (fieldShamt w)).append (.zero (fieldFunct w))).eq_iff
  rw [hi, ← hrs, ← cop, ← fieldOp_cop]
  exact (clears_rType (.refl _) (.refl _) (.refl _) (.zero _) (.zero _)).congr (by simpa using low11.symm)

theorem reading_rfe (cop : w.extractLsb' 28 4 = 4#4) (unit : fieldCop w = 0) (high : 16 ≤ (fieldRs w).toNat)
    (low : w.extractLsb' 0 5 = 16#5) : Reading enc w (whenZero (w.extractLsb' 5 20 == 0) .rfe) := by
  refine .whenZero (defined_of_cop cop (.inr (.inr (.inr ⟨unit, high, by rw [low]; rfl⟩)))) (.inr (.inr rfl)) ?_
  have op : fieldOp w = 16#6 := by
    rw [fieldOp_cop, cop, unit]
    rfl
  have bit25 : w.extractLsb' 25 1 = 1#1 := by
    rw [fieldRs_toNat] at high
    apply BitVec.eq_of_toNat_eq
    rw [BitVec.extractLsb'_toNat, Nat.shiftRight_eq_div_pow, BitVec.toNat_ofNat]
    omega
  have fields := (((Clears.refl (fieldOp w)).append (.refl (w.extractLsb' 25 1))).append
    (.zero (w.extractLsb' 5 20))).append (.refl (w.extractLsb' 0 5))
  have whole : Clears _ (fieldOp w ++ w.extractLsb' 25 1 ++ 0#20 ++ w.extractLsb' 0 5) w :=
    Eq.subst (word_copOperation w).symm fields
  rw [op, bit25, low] at whole
  exact whole.congr (by simp)

theorem fieldRs_bit4 (w : Word) : (fieldRs w).getLsbD 4 = true ↔ 16 ≤ (fieldRs w).toNat := by
  generalize fieldRs w = minor
  revert minor
  decide

theorem reading_decodeCop (enc : MulDivEncoding) (cop : w.extractLsb' 28 4 = 4#4) : Reading enc w (decodeCop w) := by
  have op : (fieldOp w).toNat = 16 + (fieldCop w).toNat := (fieldOp_toNat_eq_unit cop).mpr rfl
  obtain ⟨encode_mf, encode_mt, encode_bcf, encode_bct⟩ :=
    encode_unit enc (fieldCop w) (fieldRt w) (fieldRd w) (fieldImm w)
  unfold decodeCop
  split
  case h_1 mf => exact reading_move cop mf (.inl rfl) encode_mf (.inr (.inl ⟨_, _, _, .inl rfl⟩))
  case h_2 mt => exact reading_move cop mt (.inr rfl) encode_mt (.inr (.inl ⟨_, _, _, .inr rfl⟩))
  case h_3 bc =>
    split
    case h_1 bcf =>
      refine .instr (defined_of_cop cop (.inr (.inr (.inl ⟨by rw [bc]; rfl, by rw [bcf]; decide⟩)))) ?_
      rw [encode_bcf, ← cop, ← fieldOp_cop, ← bc, ← bcf]
      exact (word_iType w).symm
    case h_2 bct =>
      refine .instr (defined_of_cop cop (.inr (.inr (.inl ⟨by rw [bc]; rfl, by rw [bct]; decide⟩)))) ?_
      rw [encode_bct, ← cop, ← fieldOp_cop, ← bc, ← bct]
      exact (word_iType w).symm
    case h_3 not_bcf not_bct =>
      simp only [imp_false, ← BitVec.toNat_inj, BitVec.toNat_ofNat] at not_bcf not_bct
      exact .copReserved ⟨op, .inr (.inl ⟨rfl, by rw [bc]; rfl, by omega⟩)⟩
  case h_4 not_mf not_mt not_bc =>
    simp only [imp_false, ← BitVec.toNat_inj, BitVec.toNat_ofNat] at not_mf not_mt not_bc
    simp only [fieldRs_bit4, beq_iff_eq]
    split_ifs with high unit low
    · exact reading_rfe cop unit high low
    · rw [unit] at op
      exact .copReserved ⟨op, .inr (.inr ⟨rfl, rfl, high, by simpa [← BitVec.toNat_inj] using low⟩)⟩
    · exact .copOperation ⟨unit, op, high⟩
    · exact .copReserved ⟨op, .inl ⟨rfl, by omega, by simp [not_mf, not_mt, not_bc]⟩⟩

/-! ### Every word -/

theorem reading_decodeWord (enc : MulDivEncoding) (w : Word) : Reading enc w (decodeWord enc w) := by
  unfold decodeWord
  split_ifs with special regimm cop
  · exact reading_decodeSpecial enc special
  · exact reading_decodeRegimm enc regimm
  · exact reading_decodeCop enc cop
  · exact reading_decodeMajor enc special regimm cop

end

/-! ## Encoding after decoding (30_encoding.md R120, R121) -/

/-- Settles O3. -/
theorem encodeOfDecode : Obligations.EncodeOfDecode := by
  intro enc w i
  have reading := reading_decodeWord enc w
  constructor
  · intro h
    rw [h] at reading
    cases reading with | instr _ h => exact h
  · intro h
    rw [h] at reading
    cases reading with | nonZeroField _ _ ne and_eq => exact ⟨ne, and_eq⟩

/-! ## Exactly the undefined encodings (30_encoding.md R123; 45_coprocessor.md R266)

An answer of the decoder puts the word into one of the three kinds or into none, and the kinds exclude each other. -/

section
variable {enc : MulDivEncoding} {w : Word} {d : Decoded}

theorem Reading.reserved_iff (h : Reading enc w d) : d = .reserved ↔ UndefinedEncoding enc w := by
  cases h with
  | instr defined | nonZeroField defined => simpa using defined.encoding
  | reserved h => simpa using h
  | copReserved h => simpa using not_undefinedEncoding_of_unit h.1
  | copOperation h => simpa using not_undefinedEncoding_of_unit h.2.1

theorem Reading.copOperation_iff (h : Reading enc w d) (z : Unit4) : d = .copOperation z ↔ IsCopOperation w z := by
  cases h with
  | instr defined | nonZeroField defined => simpa using defined.operation z
  | reserved h => simpa using fun h' : IsCopOperation w z => not_undefinedEncoding_of_unit h'.2.1 h
  | copReserved h => simpa using fun h' : IsCopOperation w z => h'.not_undefinedMinor h
  | copOperation h => exact ⟨fun | rfl => h, fun h' => congrArg _ (h.unique h')⟩

theorem Reading.copReserved_iff (h : Reading enc w d) (z : Unit4) (branch : Bool) :
    d = .copReserved z branch ↔ UndefinedMinor w z branch := by
  cases h with
  | instr defined | nonZeroField defined => simpa using defined.minor z branch
  | reserved h => simpa using fun h' : UndefinedMinor w z branch => not_undefinedEncoding_of_unit h'.1 h
  | copReserved h =>
    refine ⟨fun | rfl => h, fun h' => ?_⟩
    obtain ⟨rfl, rfl⟩ := h.unique h'
    rfl
  | copOperation h => simpa using h.not_undefinedMinor

end

/-- Settles O5. -/
theorem undefinedEncodings : Obligations.UndefinedEncodings := by
  intro enc w
  have reading := reading_decodeWord enc w
  simp only [← fieldOp_toNat, ← fieldRs_toNat, ← fieldRt_toNat, ← fieldFunct_toNat, ← low5_toNat]
  refine ⟨?_, reading.copOperation_iff, reading.copReserved_iff⟩
  rw [reading.reserved_iff]
  cases enc <;> rfl

end Sys2Proof

namespace Sys2Proof.Machine

/-! ## The usability check that comes before the fields of a word (60_exceptions.md R331) -/

theorem unusable_some {s : State} {z : Unit4} (h : s.copUsable z = false) :
    unusable z s = some (.coprocessorUnusable z) := by
  unfold unusable
  rw [h]
  rfl

theorem unprivileged_some {s : State} (hu : s.userMode = true) (hc : s.copUsable 0 = false) :
    unprivileged s = some .reservedInstruction := by
  unfold unprivileged
  rw [hu, hc]
  rfl

theorem usabilityOf_move {z : Unit4} {rt rd : Reg} {i : Instr} (hz : z ≠ 0)
    (h : i = moveFrom z rt rd ∨ i = moveTo z rt rd) (s : State) : usabilityOf i s = unusable z s := by
  have units : ∀ z : Unit4, z ≠ 0 → z = 1 ∨ z = 2 ∨ z = 3 := by decide
  obtain rfl | rfl | rfl := units z hz
  all_goals rcases h with rfl | rfl <;> rfl

theorem usabilityOf_system {rt rd : Reg} {i : Instr} (h : i = .mfc0 rt rd ∨ i = .mtc0 rt rd ∨ i = .rfe) (s : State) :
    usabilityOf i s = unprivileged s := by
  rcases h with rfl | rfl | rfl <;> rfl

theorem usabilityOf_none {i : Instr} {s : State} (plain : PlainOrMove i)
    (moves : ∀ z rt rd, z ≠ 0 → (i = moveFrom z rt rd ∨ i = moveTo z rt rd) → s.copUsable z = true)
    (system : ∀ rt rd, (i = .mfc0 rt rd ∨ i = .mtc0 rt rd ∨ i = .rfe) →
      s.userMode = false ∨ s.copUsable 0 = true) : usabilityOf i s = none := by
  have privileged {rt rd : Reg} (h : i = .mfc0 rt rd ∨ i = .mtc0 rt rd ∨ i = .rfe) : usabilityOf i s = none :=
    (usabilityOf_system h s).trans (unprivileged_none (system rt rd h))
  rcases plain with unchecked | ⟨z, rt, rd, move⟩ | rfe
  · exact unchecked s
  · by_cases hz : z = 0
    · subst hz
      exact privileged (rt := rt) (rd := rd) (move.imp_right .inl)
    · exact (usabilityOf_move hz move s).trans (unusable_none (moves z rt rd hz move))
  · exact privileged (rt := 0) (rd := 0) (.inr (.inr rfe))

/-! ## What becomes of a word that is no instruction (30_encoding.md R121 to R123; log entries 13, 16, 28) -/

theorem runCopReserved_takes (z : Unit4) (branch : Bool) (s : State) :
    if (z = 0 ∧ branch = false) ∨ s.copUsable z = true then Takes (runCopReserved z branch s) .reservedInstruction s
    else Takes (runCopReserved z branch s) (.coprocessorUnusable z) s := by
  unfold runCopReserved raiseUndecoded
  split_ifs with h unchecked unchecked
  · exact raise_takes [] _ s
  · rw [unusable_none (h.resolve_left unchecked)]
    exact raise_takes [] _ s
  · exact absurd (.inl unchecked) h
  · rw [unusable_some (by simpa using (not_or.mp h).2)]
    exact raise_takes [] _ s

theorem runCopOperation_takes (z : Unit4) (s : State) :
    if s.copUsable z = true then runCopOperation z s = .refused (.copOperation z)
    else Takes (runCopOperation z s) (.coprocessorUnusable z) s := by
  unfold runCopOperation raiseUndecoded
  split_ifs with h
  · rw [unusable_none h]
  · rw [unusable_some (by simpa using h)]
    exact raise_takes [] _ s

theorem runNonZeroField_takes {i : Instr} {s : State} {e : Exc} (h : usabilityOf i s = some e) :
    Takes (runNonZeroField i s) e s := by
  rw [runNonZeroField, h]
  exact raise_takes [] e s

theorem runNonZeroField_policy {i : Instr} {s : State} (h : usabilityOf i s = none) :
    (s.cfg.reservedFieldPolicy = .refuse → runNonZeroField i s = .refused .nonZeroField) ∧
      (s.cfg.reservedFieldPolicy = .ri → Takes (runNonZeroField i s) .reservedInstruction s) ∧
      (s.cfg.reservedFieldPolicy = .ignore → runNonZeroField i s = exec i s) := by
  rw [runNonZeroField, h]
  refine ⟨fun policy => ?refuse, fun policy => ?ri, fun policy => ?ignore⟩
  all_goals rw [policy]
  case ri => exact raise_takes [] _ s

theorem decodeBytes_cases (bigEndian : Bool) (enc : MulDivEncoding) (bs : List Byte) :
    decodeBytes bigEndian enc bs = .truncated ∨ ∃ w, decodeBytes bigEndian enc bs = decodeWord enc w := by
  unfold decodeBytes
  split
  · exact .inr ⟨_, rfl⟩
  · exact .inl rfl

/-- The coprocessor branches have no constant-zero field, so the decoder does not reject a word for one of theirs. -/
theorem plainOrMove_of_nonZeroField {bigEndian : Bool} {enc : MulDivEncoding} {bs : List Byte} {i : Instr}
    (h : decodeBytes bigEndian enc bs = .nonZeroField i) : PlainOrMove i := by
  rcases decodeBytes_cases bigEndian enc bs with short | ⟨w, hw⟩
  · rw [short] at h
    cases h
  · have reading := reading_decodeWord enc w
    rw [← hw, h] at reading
    cases reading with | nonZeroField _ plain => exact plain

/-- Settles O7, by the kind of decoded word: the step runs it by `step_of_fetches`, and each kind has its lemma above. -/
theorem undefinedEncodingTraps : Obligations.UndefinedEncodingTraps := by
  intro s bs d hf hd
  obtain ⟨-, -, -, hcfg, -⟩ := s.executing_kept
  have run : step s = runDecoded d s.executing := by rw [step_of_fetches hf, hcfg, hd]
  rw [run, ← hcfg]
  refine ⟨?reserved, ?copReserved, ?copOperation, ?nonZeroField⟩
  case reserved =>
    rintro rfl
    exact raise_takes [] _ _
  case copReserved =>
    rintro z branch rfl
    exact runCopReserved_takes z branch _
  case copOperation =>
    rintro z rfl
    exact runCopOperation_takes z _
  case nonZeroField =>
    rintro i rfl
    refine ⟨fun z rt rd hz move h => ?unusable, fun rt rd system hu hc => ?unprivileged, fun moves system => ?policy⟩
    case unusable => exact runNonZeroField_takes ((usabilityOf_move hz move _).trans (unusable_some h))
    case unprivileged => exact runNonZeroField_takes ((usabilityOf_system system _).trans (unprivileged_some hu hc))
    case policy => exact runNonZeroField_policy (usabilityOf_none (plainOrMove_of_nonZeroField hd) moves system)

end Sys2Proof.Machine
end

section
/-! Loads and stores: the aligned loads (O38 to O40) and stores (O42), LWL, LWR, SWL and SWR by the tables (O41, O43),
and the pairs of them that move an unaligned word (O45, O46). -/

namespace Sys2Proof.Machine

/-! ## The bytes of a word

A word is its four lanes, lane `m` being its byte `m` from the right. -/

/-- Byte `m` of a word, from the right. -/
def lane (v : Word) (m : Nat) : Byte := v.extractLsb' (8 * m) 8

/-- The word with the lanes `f 0` to `f 3`. -/
def ofLanes (f : Nat → Byte) : Word := f 3 ++ f 2 ++ f 1 ++ f 0

theorem lane_getLsbD (v : Word) (m : Nat) {k : Nat} (hk : k < 8) : (lane v m).getLsbD k = v.getLsbD (8 * m + k) := by
  simp [lane, hk]

theorem ofLanes_lane (v : Word) : ofLanes (lane v) = v := append_bytes_eq v

theorem ofLanes_congr {f g : Nat → Byte} (h : ∀ m < 4, f m = g m) : ofLanes f = ofLanes g := by
  simp only [ofLanes, h 0 (by omega), h 1 (by omega), h 2 (by omega), h 3 (by omega)]

theorem eq_ofLanes {v : Word} {f : Nat → Byte} (h : ∀ m < 4, lane v m = f m) : v = ofLanes f :=
  (ofLanes_lane v).symm.trans (ofLanes_congr h)

theorem lane_littleWord (bs : List Byte) {m : Nat} (hm : m < 4) : lane (littleWord bs) m = bs.getD m 0 := by
  refine BitVec.eq_of_getLsbD_eq fun k hk => ?_
  rw [lane_getLsbD _ _ hk, littleWord_getLsbD _ _ (by omega), show (8 * m + k) / 8 = m by omega,
    show (8 * m + k) % 8 = k by omega]

theorem lane_append (b3 b2 b1 b0 : Byte) {m : Nat} (hm : m < 4) :
    lane (b3 ++ b2 ++ b1 ++ b0) m = [b0, b1, b2, b3].getD m 0 := by
  rw [← littleWord_four, lane_littleWord _ hm]

theorem lane_ofLanes (f : Nat → Byte) {m : Nat} (hm : m < 4) : lane (ofLanes f) m = f m := by
  rw [ofLanes, lane_append _ _ _ _ hm]
  match m, hm with
  | 0, _ | 1, _ | 2, _ | 3, _ => rfl

theorem lane_ushiftRight (v : Word) (d m : Nat) : lane (v >>> (8 * d)) m = lane v (d + m) := by
  refine BitVec.eq_of_getLsbD_eq fun k hk => ?_
  rw [lane_getLsbD _ _ hk, lane_getLsbD _ _ hk, BitVec.getLsbD_ushiftRight]
  congr 1
  omega

/-! ## The bytes that are loaded and stored (20_memory.md R70, R72) -/

theorem State.loadBytes_eq_map (s : State) (p : Word) (n : Nat) :
    s.loadBytes p n = (List.range n).map fun k => s.byteAt (p + BitVec.ofNat 32 k) := by
  induction n generalizing p with
  | zero => rfl
  | succ n ih =>
    simp only [State.loadBytes, ih, add_one_add_ofNat]
    simp [List.range_succ_eq_map]

theorem littleBytes_eq_map (n : Nat) (v : Word) : littleBytes n v = (List.range n).map (lane v) := by
  refine List.ext_getElem (by simp [length_littleBytes]) fun k hk _ => ?_
  rw [← List.getD_eq_getElem _ 0 hk, littleBytes_getD n v k (by rwa [length_littleBytes] at hk)]
  simp [lane]

/-! ## Aligned loads and stores (40_load_store.md R141 to R145, R148 to R150) -/

section
variable {s : State} {i : Instr} {n : Nat} {rt base : Reg} {offset : BitVec 16}

theorem loadsReg_of_loadWith {convert : Word → Word} {v : Word}
    (hi : exec i s = loadWith i n convert rt offset base s) (hb : isBranch i = false)
    (ha : Accessible .load n (s.effectiveAddress base offset) s)
    (hv : convert (bytesToWord s.cfg.bigEndian
      (s.loadBytes (physical s.cfg.segments (s.effectiveAddress base offset)) n)) = v) : LoadsReg i rt v s := by
  refine loadsReg_of_complete ?_ hb
  rw [hi, loadWith, (State.translate_ok ..).mpr ⟨ha, rfl⟩, ← hv]

theorem storesBytes_of_storeOf {bs : List Byte} (hi : exec i s = storeOf i n rt offset base s)
    (hb : isBranch i = false) (hn : n ≤ 4) (ha : Accessible .store n (s.effectiveAddress base offset) s)
    (hbs : wordToBytes s.cfg.bigEndian n (s.rt rt) = bs) :
    StoresBytes i (physical s.cfg.segments (s.effectiveAddress base offset)) bs s := by
  subst hbs
  refine storesBytes_of_complete ?_ hb (by rw [length_wordToBytes]; omega)
  rw [hi, storeOf, (State.translate_ok ..).mpr ⟨ha, rfl⟩]

end

/-- Settles O38: the one byte loaded is the low byte of the word read, whatever the byte order. -/
theorem loadByteResult : Obligations.LoadByteResult := by
  intro enc rt offset base s
  refine ⟨decodeOfEncode enc (.lb rt offset base), decodeOfEncode enc (.lbu rt offset base), fun ha => ?_⟩
  have loaded (p : Word) : (bytesToWord s.cfg.bigEndian (s.loadBytes p 1)).setWidth 8 = s.byteAt p := by
    rw [State.loadBytes, State.loadBytes, bytesToWord_one, BitVec.setWidth_setWidth_of_le _ (by omega),
      BitVec.setWidth_eq]
  constructor
  · exact loadsReg_of_loadWith (exec_lb ..) rfl ha (by rw [loaded]; rfl)
  · exact loadsReg_of_loadWith (exec_lbu ..) rfl ha (by rw [loaded, BitVec.ofNat_toNat])

/-- Settles O39: the halfword loaded is the low half of the word read. -/
theorem loadHalfwordResult : Obligations.LoadHalfwordResult := by
  intro enc rt offset base s
  refine ⟨decodeOfEncode enc (.lh rt offset base), decodeOfEncode enc (.lhu rt offset base), ?_⟩
  rintro p h ha rfl rfl
  have loaded (p : Word) : (bytesToWord s.cfg.bigEndian (s.loadBytes p 2)).setWidth 16 =
      if s.cfg.bigEndian then s.byteAt p ++ s.byteAt (p + 1) else s.byteAt (p + 1) ++ s.byteAt p :=
    bytesToWord_two ..
  constructor
  · exact loadsReg_of_loadWith (exec_lh ..) rfl ha (by rw [loaded]; rfl)
  · exact loadsReg_of_loadWith (exec_lhu ..) rfl ha (by rw [loaded, BitVec.ofNat_toNat])

/-- Settles O40. -/
theorem loadWordResult : Obligations.LoadWordResult := by
  intro enc rt offset base s
  refine ⟨decodeOfEncode enc (.lw rt offset base), ?_⟩
  rintro p ha rfl
  refine loadsReg_of_loadWith (exec_lw ..) rfl ha ?_
  simp [State.loadBytes_eq_map, List.range_succ, bytesToWord_four]

/-- Settles O42: the bytes stored are the lowest lanes of x[rt], in the byte order. -/
theorem storeResult : Obligations.StoreResult := by
  intro enc rt offset base s p r0 r1 r2 r3
  refine ⟨decodeOfEncode enc (.sb rt offset base), decodeOfEncode enc (.sh rt offset base),
    decodeOfEncode enc (.sw rt offset base), ?_⟩
  rintro rfl hrt
  refine ⟨fun ha => ?byte, fun ha => ?half, fun ha => ?word⟩
  case byte =>
    refine storesBytes_of_storeOf (exec_sb ..) rfl (by omega) ha ?_
    simp [wordToBytes, littleBytes_eq_map, hrt, lane_append]
  case half =>
    refine storesBytes_of_storeOf (exec_sh ..) rfl (by omega) ha ?_
    simp [wordToBytes, littleBytes_eq_map, List.range_succ, hrt, lane_append]
  case word =>
    refine storesBytes_of_storeOf (exec_sw ..) rfl (by omega) ha ?_
    simp [wordToBytes, littleBytes_eq_map, List.range_succ, hrt, lane_append]

/-! ## What LWL, LWR, SWL and SWR move (40_load_store.md R146, R147, R151, R152) -/

/-- Where lane `k` of a value of `count` bytes lies among them in memory (20_memory.md R70). -/
def laneOffset (bigEndian : Bool) (count k : Nat) : Nat := if bigEndian then count - 1 - k else k

/-- The part of a word that one of the four moves: the lanes from `low` up, `count` of them, which lie in memory from
the virtual address `start` up. -/
structure Part where
  low : Nat
  count : Nat
  start : Word

/-- The part has lane `m`. -/
abbrev Part.Moves (part : Part) (m : Nat) : Prop := part.low ≤ m ∧ m < part.low + part.count

/-- The physical address of lane `m` of a part. -/
def Part.address (part : Part) (cfg : Config) (m : Nat) : Word :=
  physical cfg.segments part.start + BitVec.ofNat 32 (laneOffset cfg.bigEndian part.count (m - part.low))

/-- The bytes of a part of `v`, in the order in which they lie in memory. -/
def Part.bytes (part : Part) (cfg : Config) (v : Word) : List Byte :=
  wordToBytes cfg.bigEndian part.count (v >>> (8 * part.low))

/-- The part that LWL and SWL move at the address `a`. -/
def leftPart (bigEndian : Bool) (a : Word) : Part where
  low := 3 - laneIndex bigEndian a
  count := laneIndex bigEndian a + 1
  start := leftStart bigEndian a

/-- The part that LWR and SWR move at the address `a`. -/
def rightPart (bigEndian : Bool) (a : Word) : Part where
  low := 0
  count := 4 - laneIndex bigEndian a
  start := rightStart bigEndian a

/-- The word `old` with a part of it loaded from memory. -/
def State.loaded (s : State) (part : Part) (old : Word) : Word :=
  ofLanes fun m => if part.Moves m then s.byteAt (part.address s.cfg m) else lane old m

/-- `part` is what the effective address gives an instruction to move, and may be accessed. -/
structure PartAt (kind : AccessKind) (s : State) (offset : BitVec 16) (base : Reg) (partOf : Bool → Word → Part)
    (part : Part) : Prop where
  eq : part = partOf s.cfg.bigEndian (s.effectiveAddress base offset)
  accessible : Accessible kind 1 part.start s

/-- `i` loads a part of x[rt]. -/
def LoadsPart (i : Instr) (rt : Reg) (offset : BitVec 16) (base : Reg) (partOf : Bool → Word → Part) : Prop :=
  ∀ s part, PartAt .load s offset base partOf part → exec i s = complete i (s.delayReg rt (s.loaded part (s.reg rt)))

/-- `i` stores a part of x[rt]. -/
def StoresPart (i : Instr) (rt : Reg) (offset : BitVec 16) (base : Reg) (partOf : Bool → Word → Part) : Prop :=
  ∀ s part, PartAt .store s offset base partOf part →
    exec i s = complete i (s.storeBytes (physical s.cfg.segments part.start) (part.bytes s.cfg (s.rt rt)))

theorem laneIndex_le (bigEndian : Bool) (a : Word) : laneIndex bigEndian a ≤ 3 := by
  unfold laneIndex
  split <;> omega

/-! ### Loads -/

theorem lane_bytesToWord_loadBytes (s : State) (bigEndian : Bool) (p : Word) {n k : Nat} (hk : k < 4) :
    lane (bytesToWord bigEndian (s.loadBytes p n)) k =
      if k < n then s.byteAt (p + BitVec.ofNat 32 (laneOffset bigEndian n k)) else 0 := by
  rw [bytesToWord, lane_littleWord _ hk, State.loadBytes_eq_map]
  by_cases h : k < n
  · cases bigEndian <;> simp [laneOffset, h]
  · cases bigEndian <;> simp [h]

theorem lane_mergeLeft {byte m : Nat} (loaded old : Word) (hb : byte ≤ 3) (hm : m < 4) :
    lane (mergeLeft byte loaded old) m = if 3 - byte ≤ m then lane loaded (m - (3 - byte)) else lane old m := by
  refine BitVec.eq_of_getLsbD_eq fun k hk => ?_
  rw [lane_getLsbD _ _ hk, mergeLeft_getLsbD _ _ _ _ (by omega)]
  by_cases h : 3 - byte ≤ m
  · rw [if_pos h, lane_getLsbD _ _ hk, if_neg (by omega)]
    congr 1
    omega
  · rw [if_neg h, lane_getLsbD _ _ hk, if_pos (by omega)]

theorem lane_mergeRight {byte m : Nat} (loaded old : Word) (hb : byte ≤ 3) (hm : m < 4) :
    lane (mergeRight byte loaded old) m = if m < 4 - byte then lane loaded m else lane loaded m ||| lane old m := by
  refine BitVec.eq_of_getLsbD_eq fun k hk => ?_
  rw [lane_getLsbD _ _ hk, mergeRight_getLsbD _ _ _ _ (by omega)]
  by_cases h : m < 4 - byte
  · rw [if_pos h, lane_getLsbD _ _ hk, decide_eq_false (by omega)]
    simp
  · rw [if_neg h, BitVec.getLsbD_or, lane_getLsbD _ _ hk, lane_getLsbD _ _ hk, decide_eq_true (by omega)]
    simp

theorem loadsPart_lwl (rt base : Reg) (offset : BitVec 16) :
    LoadsPart (.lwl rt offset base) rt offset base leftPart := by
  rintro s _ ⟨rfl, (ha : Accessible .load 1 (leftStart _ _) s)⟩
  rw [exec_lwl, loadLeft, (State.translate_ok ..).mpr ⟨ha, rfl⟩]
  refine congrArg (fun v => complete _ (s.delayReg rt v)) (eq_ofLanes fun m hm => ?_)
  have hb := laneIndex_le s.cfg.bigEndian (s.effectiveAddress base offset)
  rw [lane_mergeLeft _ _ hb hm]
  by_cases h : 3 - laneIndex s.cfg.bigEndian (s.effectiveAddress base offset) ≤ m
  · rw [if_pos h, lane_bytesToWord_loadBytes _ _ _ (by omega), if_pos (by omega),
      if_pos ⟨h, by simp only [leftPart]; omega⟩]
    rfl
  · rw [if_neg h, if_neg fun moved => h moved.1]

theorem loadsPart_lwr (rt base : Reg) (offset : BitVec 16) :
    LoadsPart (.lwr rt offset base) rt offset base rightPart := by
  rintro s _ ⟨rfl, (ha : Accessible .load 1 (rightStart _ _) s)⟩
  rw [exec_lwr, loadRight, (State.translate_ok ..).mpr ⟨ha, rfl⟩]
  refine congrArg (fun v => complete _ (s.delayReg rt v)) (eq_ofLanes fun m hm => ?_)
  have hb := laneIndex_le s.cfg.bigEndian (s.effectiveAddress base offset)
  rw [lane_mergeRight _ _ hb hm, lane_bytesToWord_loadBytes _ _ _ hm]
  by_cases h : m < 4 - laneIndex s.cfg.bigEndian (s.effectiveAddress base offset)
  · rw [if_pos h, if_pos h, if_pos ⟨m.zero_le, by simp only [rightPart]; omega⟩]
    rfl
  · rw [if_neg h, if_neg h, if_neg fun moved => h (by simpa [rightPart] using moved.2)]
    exact BitVec.zero_or

/-! ### Stores -/

theorem Part.bytes_eq (part : Part) (cfg : Config) (v : Word) :
    part.bytes cfg v =
      let lanes := (List.range part.count).map fun k => lane v (part.low + k)
      if cfg.bigEndian then lanes.reverse else lanes := by
  simp only [Part.bytes, wordToBytes, littleBytes_eq_map, ← lane_ushiftRight]

theorem Part.length_bytes (part : Part) (cfg : Config) (v : Word) : (part.bytes cfg v).length = part.count :=
  length_wordToBytes ..

theorem leftPart_fits (bigEndian : Bool) (a : Word) :
    (leftPart bigEndian a).low + (leftPart bigEndian a).count ≤ 4 := by
  have := laneIndex_le bigEndian a
  simp only [leftPart]
  omega

theorem rightPart_fits (bigEndian : Bool) (a : Word) :
    (rightPart bigEndian a).low + (rightPart bigEndian a).count ≤ 4 := by
  simp only [rightPart]
  omega

theorem storesPart_swl (rt base : Reg) (offset : BitVec 16) :
    StoresPart (.swl rt offset base) rt offset base leftPart := by
  rintro s _ ⟨rfl, (ha : Accessible .store 1 (leftStart _ _) s)⟩
  have shift : 24 - 8 * laneIndex s.cfg.bigEndian (s.effectiveAddress base offset) =
      8 * (3 - laneIndex s.cfg.bigEndian (s.effectiveAddress base offset)) := by omega
  rw [exec_swl, storeLeft, (State.translate_ok ..).mpr ⟨ha, rfl⟩, shift]
  rfl

theorem storesPart_swr (rt base : Reg) (offset : BitVec 16) :
    StoresPart (.swr rt offset base) rt offset base rightPart := by
  rintro s _ ⟨rfl, (ha : Accessible .store 1 (rightStart _ _) s)⟩
  rw [exec_swr, storeRight, (State.translate_ok ..).mpr ⟨ha, rfl⟩]
  simp [Part.bytes, rightPart]

/-! ## The tables (40_load_store.md R146, R147, R151, R152) -/

section
variable {i : Instr} {rt base : Reg} {offset : BitVec 16} {partOf : Bool → Word → Part} {part : Part} {s : State}

theorem loadsReg_of_loadsPart {v : Word} (hi : LoadsPart i rt offset base partOf) (hb : isBranch i = false)
    (hp : PartAt .load s offset base partOf part) (hv : s.loaded part (s.reg rt) = v) : LoadsReg i rt v s :=
  loadsReg_of_complete (hv ▸ hi s part hp) hb

theorem storesBytes_of_storesPart {bs : List Byte} (hi : StoresPart i rt offset base partOf) (hb : isBranch i = false)
    (hp : PartAt .store s offset base partOf part) (hf : part.low + part.count ≤ 4)
    (hbs : part.bytes s.cfg (s.rt rt) = bs) : StoresBytes i (physical s.cfg.segments part.start) bs s := by
  subst hbs
  exact storesBytes_of_complete (hi s part hp) hb (by rw [Part.length_bytes]; omega)

end

/-- The physical address of a byte is that of its aligned word and its place in the word. -/
theorem physical_eq_word_add (segments : Segments) (a : Word) :
    physical segments a = physical segments (wordAddress a) + BitVec.ofNat 32 (a.toNat % 4) := by
  have aligned : (wordAddress a).toNat % 4 = 0 := by rw [wordAddress_toNat]; omega
  exact physical_add segments a _ _ aligned (by omega) (by simp [wordAddress])

/-- Settles O41, row by row of the tables: the lanes are those of `State.loaded`. -/
theorem loadWordPartResult : Obligations.LoadWordPartResult := by
  intro enc rt offset base s a w p b0 b1 b2 b3 o0 o1 o2 o3
  refine ⟨decodeOfEncode enc (.lwl rt offset base), decodeOfEncode enc (.lwr rt offset base), ?_⟩
  rintro ea hw hp rfl rfl rfl rfl old
  have word : wordAddress a = w := hw.symm
  have place : physical s.cfg.segments a = p + BitVec.ofNat 32 (a.toNat % 4) := by
    rw [physical_eq_word_add, word, hp]
  have position : a.toNat % 4 = 0 ∨ a.toNat % 4 = 1 ∨ a.toNat % 4 = 2 ∨ a.toNat % 4 = 3 := by omega
  constructor
  · intro ha
    refine loadsReg_of_loadsPart (loadsPart_lwl _ _ _) rfl
      ⟨by rw [← ea], by simpa only [leftPart, leftStart, word]⟩ ?_
    cases hb : s.cfg.bigEndian <;> rcases position with h | h | h | h
    all_goals
      simp [State.loaded, ofLanes, Part.Moves, leftPart, laneIndex, leftStart, Part.address, laneOffset, old,
        lane_append, h, hb, place, word, ← hp, BitVec.add_assoc]
  · intro ha
    refine loadsReg_of_loadsPart (loadsPart_lwr _ _ _) rfl
      ⟨by rw [← ea], by simpa only [rightPart, rightStart, word]⟩ ?_
    cases hb : s.cfg.bigEndian <;> rcases position with h | h | h | h
    all_goals
      simp [State.loaded, ofLanes, Part.Moves, rightPart, laneIndex, rightStart, Part.address, laneOffset, old,
        lane_append, h, hb, place, word, ← hp, BitVec.add_assoc]

/-- Settles O43, row by row of the tables: the bytes are those of `Part.bytes`. -/
theorem storeWordPartResult : Obligations.StoreWordPartResult := by
  intro enc rt offset base s a w r0 r1 r2 r3
  refine ⟨decodeOfEncode enc (.swl rt offset base), decodeOfEncode enc (.swr rt offset base), ?_⟩
  rintro ea hw hrt
  have word : wordAddress a = w := hw.symm
  have position : a.toNat % 4 = 0 ∨ a.toNat % 4 = 1 ∨ a.toNat % 4 = 2 ∨ a.toNat % 4 = 3 := by omega
  constructor
  · intro ha
    have start : (leftPart s.cfg.bigEndian a).start = if s.cfg.bigEndian then a else w := by
      rw [leftPart, leftStart, word]
    rw [← start] at ha ⊢
    refine storesBytes_of_storesPart (storesPart_swl _ _ _) rfl ⟨by rw [← ea], ha⟩ (leftPart_fits _ _) ?_
    cases hb : s.cfg.bigEndian <;> rcases position with h | h | h | h
    all_goals simp [Part.bytes_eq, leftPart, laneIndex, List.range_succ, hrt, lane_append, h, hb]
  · intro ha
    have start : (rightPart s.cfg.bigEndian a).start = if s.cfg.bigEndian then w else a := by
      rw [rightPart, rightStart, word]
    rw [← start] at ha ⊢
    refine storesBytes_of_storesPart (storesPart_swr _ _ _) rfl ⟨by rw [← ea], ha⟩ (rightPart_fits _ _) ?_
    cases hb : s.cfg.bigEndian <;> rcases position with h | h | h | h
    all_goals simp [Part.bytes_eq, rightPart, laneIndex, List.range_succ, hrt, lane_append, h, hb]

/-! ## Unaligned words (40_load_store.md R156, R157) -/

/-- The address of lane `m` of the word at the address `a`, aligned or not. -/
def laneAddress (bigEndian : Bool) (a : Word) (m : Nat) : Word := a + BitVec.ofNat 32 (laneOffset bigEndian 4 m)

theorem laneOffset_lt (bigEndian : Bool) {n k : Nat} (h : k < n) : laneOffset bigEndian n k < n := by
  unfold laneOffset
  split <;> omega

theorem laneOffset_laneOffset (bigEndian : Bool) {n k : Nat} (h : k < n) :
    laneOffset bigEndian n (laneOffset bigEndian n k) = k := by
  cases bigEndian
  · rfl
  · simp only [laneOffset, if_true]
    omega

theorem laneOffset_inj {bigEndian : Bool} {n j k : Nat} (hj : j < n) (hk : k < n)
    (h : laneOffset bigEndian n j = laneOffset bigEndian n k) : j = k := by
  rw [← laneOffset_laneOffset bigEndian hj, h, laneOffset_laneOffset bigEndian hk]

theorem laneAddress_laneOffset (bigEndian : Bool) (a : Word) {k : Nat} (h : k < 4) :
    laneAddress bigEndian a (laneOffset bigEndian 4 k) = a + BitVec.ofNat 32 k := by
  rw [laneAddress, laneOffset_laneOffset _ h]

/-! ### Physical addresses of neighbouring bytes -/

theorem physical_add_of_sameWord (segments : Segments) {x y : Word} {k : Nat} (hk : x.toNat % 4 + k < 4)
    (hy : y = x + BitVec.ofNat 32 k) : physical segments y = physical segments x + BitVec.ofNat 32 k := by
  have aligned : (wordAddress x).toNat % 4 = 0 := by rw [wordAddress_toNat]; omega
  have place : y = wordAddress x + BitVec.ofNat 32 (x.toNat % 4 + k) := by
    rw [hy, BitVec.ofNat_add, ← BitVec.add_assoc, wordAddress, BitVec.sub_add_cancel]
  rw [physical_add segments y _ _ aligned hk place, physical_eq_word_add segments x, BitVec.ofNat_add, BitVec.add_assoc]

theorem physical_toNat (segments : Segments) (a : Word) :
    (physical segments a).toNat = a.toNat ∨ (physical segments a).toNat = a.toNat % 2 ^ 29 := by
  by_cases h : InSegment segments.kseg0 a ∨ InSegment segments.kseg1 a
  · exact .inr (physical_mapped h)
  · exact .inl (by rw [physical_unmapped h])

/-- Bytes fewer than four apart do not share a physical address, whatever the segments. -/
theorem physical_add_ne (segments : Segments) (a : Word) {j k : Nat} (hjk : j < k) (hk : k < 4) :
    (physical segments (a + BitVec.ofNat 32 j)).toNat ≠ (physical segments (a + BitVec.ofNat 32 k)).toNat := by
  have hj := physical_toNat segments (a + BitVec.ofNat 32 j)
  have hk := physical_toNat segments (a + BitVec.ofNat 32 k)
  rw [toNat_add_ofNat] at hj hk
  have := a.isLt
  omega

theorem physical_add_inj {segments : Segments} {a : Word} {j k : Nat} (hj : j < 4) (hk : k < 4)
    (h : (physical segments (a + BitVec.ofNat 32 j)).toNat = (physical segments (a + BitVec.ofNat 32 k)).toNat) :
    j = k := by
  rcases Nat.lt_trichotomy j k with hlt | heq | hgt
  · exact absurd h (physical_add_ne segments a hlt hk)
  · exact heq
  · exact absurd h.symm (physical_add_ne segments a hgt hj)

/-! ### The two parts of an unaligned word -/

/-- The lanes of `part` are lanes of the word at `a`. -/
def Part.LiesIn (part : Part) (cfg : Config) (a : Word) : Prop :=
  ∀ m < 4, part.Moves m → part.address cfg m = physical cfg.segments (laneAddress cfg.bigEndian a m)

/-- The access of LWL and SWL stays in the aligned word in which it begins, so that its physical addresses are those of
the lanes, one by one. -/
theorem leftPart_liesIn (cfg : Config) (a : Word) :
    (leftPart cfg.bigEndian (laneAddress cfg.bigEndian a 3)).LiesIn cfg a := by
  rintro m hm ⟨hlow, -⟩
  refine (physical_add_of_sameWord _ ?sameWord (BitVec.eq_of_toNat_eq ?address)).symm
  all_goals
    cases hb : cfg.bigEndian <;>
      simp [hb, leftPart, laneIndex, leftStart, laneOffset, laneAddress, wordAddress_toNat] at hlow ⊢
  all_goals omega

theorem rightPart_liesIn (cfg : Config) (a : Word) :
    (rightPart cfg.bigEndian (laneAddress cfg.bigEndian a 0)).LiesIn cfg a := by
  rintro m hm ⟨-, hcount⟩
  refine (physical_add_of_sameWord _ ?sameWord (BitVec.eq_of_toNat_eq ?address)).symm
  all_goals
    cases hb : cfg.bigEndian <;>
      simp [hb, rightPart, laneIndex, rightStart, laneOffset, laneAddress, wordAddress_toNat] at hcount ⊢
  all_goals omega

theorem left_or_right_moves (bigEndian : Bool) (a : Word) {m : Nat} (hm : m < 4) :
    (leftPart bigEndian (laneAddress bigEndian a 3)).Moves m ∨
      (rightPart bigEndian (laneAddress bigEndian a 0)).Moves m := by
  cases bigEndian <;> simp [Part.Moves, leftPart, rightPart, laneIndex, laneAddress, laneOffset] <;> omega

/-- Two parts make up the word at `a`. -/
structure MakeUp (cfg : Config) (a : Word) (part₁ part₂ : Part) : Prop where
  liesIn₁ : part₁.LiesIn cfg a
  liesIn₂ : part₂.LiesIn cfg a
  all : ∀ m < 4, part₁.Moves m ∨ part₂.Moves m

theorem MakeUp.symm {cfg : Config} {a : Word} {part₁ part₂ : Part} (h : MakeUp cfg a part₁ part₂) :
    MakeUp cfg a part₂ part₁ :=
  ⟨h.liesIn₂, h.liesIn₁, fun m hm => (h.all m hm).symm⟩

theorem makeUp_left_right (cfg : Config) (a : Word) :
    MakeUp cfg a (leftPart cfg.bigEndian (laneAddress cfg.bigEndian a 3))
      (rightPart cfg.bigEndian (laneAddress cfg.bigEndian a 0)) :=
  ⟨leftPart_liesIn cfg a, rightPart_liesIn cfg a, fun _ => left_or_right_moves cfg.bigEndian a⟩

/-- The offset of lane `m` of the word at `offset`. -/
def laneImmediate (bigEndian : Bool) (offset : BitVec 16) (m : Nat) : BitVec 16 :=
  offset + BitVec.ofNat 16 (laneOffset bigEndian 4 m)

section
variable {kind : AccessKind} {s : State} {offset : BitVec 16} {base : Reg} {a : Word}

theorem effectiveAddress_laneImmediate (hoffset : offset.toInt + 3 < 2 ^ 15) (ea : a = s.effectiveAddress base offset)
    {m : Nat} (hm : m < 4) : s.effectiveAddress base (laneImmediate s.cfg.bigEndian offset m) =
      laneAddress s.cfg.bigEndian a m := by
  have := laneOffset_lt s.cfg.bigEndian hm
  rw [laneImmediate, State.effectiveAddress_add _ _ _ _ (by omega), ea, laneAddress]

/-- LWL or SWL at the most significant byte of the word at `a`. -/
theorem partAt_left (hoffset : offset.toInt + 3 < 2 ^ 15) (ea : a = s.effectiveAddress base offset)
    (first : Accessible kind 1 a s) (last : Accessible kind 1 (wordAddress (a + 3)) s) :
    PartAt kind s (laneImmediate s.cfg.bigEndian offset 3) base leftPart
      (leftPart s.cfg.bigEndian (laneAddress s.cfg.bigEndian a 3)) := by
  refine ⟨by rw [effectiveAddress_laneImmediate hoffset ea (by omega)], ?_⟩
  cases hb : s.cfg.bigEndian
  · exact last
  · simpa [leftPart, leftStart, laneAddress, laneOffset] using first

/-- LWR or SWR at the least significant byte of the word at `a`. -/
theorem partAt_right (hoffset : offset.toInt + 3 < 2 ^ 15) (ea : a = s.effectiveAddress base offset)
    (first : Accessible kind 1 a s) (last : Accessible kind 1 (wordAddress (a + 3)) s) :
    PartAt kind s (laneImmediate s.cfg.bigEndian offset 0) base rightPart
      (rightPart s.cfg.bigEndian (laneAddress s.cfg.bigEndian a 0)) := by
  refine ⟨by rw [effectiveAddress_laneImmediate hoffset ea (by omega)], ?_⟩
  cases hb : s.cfg.bigEndian
  · simpa [rightPart, rightStart, laneAddress, laneOffset] using first
  · exact last

end

/-- The two orders of the pairs of R156 and R157: whatever the byte order, the left instruction is at the most
significant byte and the right one at the least significant. -/
theorem either_order {bigEndian : Bool} {offset : BitVec 16} {first second : Instr} {left right : BitVec 16 → Instr}
    (h : if bigEndian
      then (first = left offset ∧ second = right (offset + 3)) ∨ (first = right (offset + 3) ∧ second = left offset)
      else (first = right offset ∧ second = left (offset + 3)) ∨ (first = left (offset + 3) ∧ second = right offset)) :
    (first = left (laneImmediate bigEndian offset 3) ∧ second = right (laneImmediate bigEndian offset 0)) ∨
      (first = right (laneImmediate bigEndian offset 0) ∧ second = left (laneImmediate bigEndian offset 3)) := by
  cases bigEndian
  · simpa [laneImmediate, laneOffset] using Or.symm h
  · simpa [laneImmediate, laneOffset] using h

/-- A word by its bytes in address order. -/
theorem bytes_eq_ofLanes (bigEndian : Bool) (b0 b1 b2 b3 : Byte) :
    (if bigEndian then b0 ++ b1 ++ b2 ++ b3 else b3 ++ b2 ++ b1 ++ b0) =
      ofLanes fun m => [b0, b1, b2, b3].getD (laneOffset bigEndian 4 m) 0 := by
  cases bigEndian <;> rfl

/-! ### The next instruction -/

/-- A register for which nothing is pending is no stale operand of the next instruction. -/
theorem State.operand_executing {t : State} {r : Reg} (h : ∀ v, t.ld ≠ some (r, v)) (purpose : FreeUse) :
    t.executing.operand purpose r = t.reg r := by
  cases hld : t.ld with
  | none =>
    rw [State.operand_of_fresh _ _ _ (by simp [State.executing_stale, hld]), State.reg_executing_none hld]
  | some pending =>
    obtain ⟨q, v⟩ := pending
    have hrq : r ≠ q := by
      rintro rfl
      exact h v hld
    rw [State.operand_of_fresh _ _ _ (by simpa [State.executing_stale, hld] using hrq.symm),
      State.reg_executing_some hld, if_neg hrq]

theorem State.userMode_executing {s t : State} (hs : s.mtc0 = none) (ht : t.mtc0 = none) (hsr : t.sr = s.sr)
    (hcfg : t.cfg = s.cfg) : t.executing.userMode = s.userMode := by
  obtain ⟨-, -, -, hcfg', -, -, -, -, -, -, hmtc0, -, ⟨hsr', -⟩, -⟩ := t.executing_kept
  rw [State.userMode, State.userMode, State.statusBit_eq _ _ (.inl (hmtc0.trans ht)), State.statusBit_eq _ _ (.inl hs),
    hsr', hsr, hcfg', hcfg]

/-- An instruction that leaves the mode, the parameters and the base register alone leaves what the next one moves, and
whether it may. -/
theorem PartAt.next {kind : AccessKind} {s t : State} {offset : BitVec 16} {base : Reg}
    {partOf : Bool → Word → Part} {part : Part} (h : PartAt kind s offset base partOf part)
    (settled : s.mtc0 = none ∧ t.mtc0 = none) (fresh : s.stale ≠ some base) (regs : SameRegs s t) (hsr : t.sr = s.sr)
    (hcfg : t.cfg = s.cfg) (hld : ∀ v, t.ld ≠ some (base, v)) : PartAt kind t.executing offset base partOf part := by
  obtain ⟨-, -, -, hcfg', -⟩ := t.executing_kept
  have cfg : t.executing.cfg = s.cfg := hcfg'.trans hcfg
  have operand : t.executing.rs base = s.rs base := by
    rw [State.rs, State.operand_executing hld, regs base, State.rs, State.operand_of_fresh _ _ _ fresh]
  refine ⟨?_, h.accessible.congr (State.userMode_executing settled.1 settled.2 hsr hcfg) cfg⟩
  rw [cfg, State.effectiveAddress, operand]
  exact h.eq

/-! ### Loads -/

theorem State.loaded_of_cells {s : State} {part : Part} {a : Word} {b : Nat → Byte} (old : Word)
    (lies : part.LiesIn s.cfg a)
    (cells : ∀ m < 4, s.cell (physical s.cfg.segments (laneAddress s.cfg.bigEndian a m)).toNat = some (b m)) :
    s.loaded part old = ofLanes fun m => if part.Moves m then b m else lane old m := by
  refine ofLanes_congr fun m hm => ?_
  by_cases h : part.Moves m
  · rw [if_pos h, if_pos h, lies m hm h, State.byteAt_of_cell (cells m hm)]
  · rw [if_neg h, if_neg h]

section
variable {i j : Instr} {s : State} {rt base : Reg} {a : Word} {offset₁ offset₂ : BitVec 16}
  {partOf₁ partOf₂ : Bool → Word → Part} {part₁ part₂ : Part}

/-- Two loads of parts that make up a word leave the word pending, the second merging with what the first has loaded. -/
theorem pending_of_loadsPart_pair {b : Nat → Byte} (hi : LoadsPart i rt offset₁ base partOf₁)
    (hj : LoadsPart j rt offset₂ base partOf₂) (at₁ : PartAt .load s offset₁ base partOf₁ part₁)
    (at₂ : PartAt .load s offset₂ base partOf₂ part₂) (word : MakeUp s.cfg a part₁ part₂)
    (h0 : rt ≠ 0) (hbase : base ≠ rt) (fresh : s.stale ≠ some base) (settled : s.mtc0 = none)
    (cells : ∀ m < 4, s.cell (physical s.cfg.segments (laneAddress s.cfg.bigEndian a m)).toNat = some (b m)) :
    ∃ t u, exec i s = .next t ∧ exec j t.executing = .next u ∧ u.ld = some (rt, ofLanes b) := by
  let first := s.loaded part₁ (s.reg rt)
  let t := (s.delayReg rt first).completed i none
  have pending : t.ld = some (rt, first) := if_neg h0
  have next : PartAt .load t.executing offset₂ base partOf₂ part₂ :=
    at₂.next ⟨settled, rfl⟩ fresh (fun _ => rfl) rfl rfl fun v h =>
      hbase (congrArg Prod.fst (Option.some.inj (h.symm.trans pending)))
  refine ⟨t, _, hi s _ at₁, hj t.executing _ next, ?_⟩
  obtain ⟨hmem, himage, -, hcfg, -⟩ := t.executing_kept
  have cfg : t.executing.cfg = s.cfg := hcfg
  have old : t.executing.reg rt = first := by rw [State.reg_executing_some pending, if_pos rfl, if_neg h0]
  have merged : t.executing.loaded part₂ first = ofLanes b := by
    rw [State.loaded_of_cells (a := a) (b := b) _ (by rw [cfg]; exact word.liesIn₂)
      (fun m hm => by rw [State.cell_congr himage hmem, cfg]; exact cells m hm)]
    refine ofLanes_congr fun m hm => ?_
    by_cases moved : part₂.Moves m
    · rw [if_pos moved]
    · rw [if_neg moved, show first = _ from State.loaded_of_cells _ word.liesIn₁ cells, lane_ofLanes _ hm,
        if_pos ((word.all m hm).resolve_right moved)]
  rw [old, merged]
  exact if_neg h0

end

/-- Settles O45: in either order the two loads make up the word at `a` (`makeUp_left_right`). -/
theorem unalignedLoadPair : Obligations.UnalignedLoadPair := by
  intro rt base offset s a first second b0 b1 b2 b3 h0 hbase fresh _ settled hoffset ea access last c0 c1 c2 c3 order
  have left := partAt_left hoffset ea access last
  have right := partAt_right hoffset ea access last
  have word := makeUp_left_right s.cfg a
  have cells : ∀ m < 4, s.cell (physical s.cfg.segments (laneAddress s.cfg.bigEndian a m)).toNat =
      some ([b0, b1, b2, b3].getD (laneOffset s.cfg.bigEndian 4 m) 0) := by
    intro m hm
    rw [laneAddress]
    match laneOffset s.cfg.bigEndian 4 m, laneOffset_lt s.cfg.bigEndian hm with
    | 0, _ => simpa using c0
    | 1, _ => exact c1
    | 2, _ => exact c2
    | 3, _ => exact c3
  rw [bytes_eq_ofLanes]
  rcases either_order (left := (.lwl rt · base)) (right := (.lwr rt · base)) order with ⟨rfl, rfl⟩ | ⟨rfl, rfl⟩
  · exact pending_of_loadsPart_pair (loadsPart_lwl _ _ _) (loadsPart_lwr _ _ _) left right word h0 hbase fresh settled
      cells
  · exact pending_of_loadsPart_pair (loadsPart_lwr _ _ _) (loadsPart_lwl _ _ _) right left word.symm h0 hbase fresh
      settled cells

/-! ### Stores -/

/-- Memory `m'` is `m` with a part of `v` stored, where it is in the launch image. -/
structure PartStored (cfg : Config) (image : List AddressRange) (part : Part) (v : Word) (m m' : Memory) : Prop where
  stored : ∀ k < 4, part.Moves k → inRanges image (part.address cfg k).toNat = true →
    m'.read (part.address cfg k).toNat = some (lane v k)
  other : ∀ x, (∀ k < 4, part.Moves k → x ≠ (part.address cfg k).toNat) ∨ inRanges image x = false →
    m'.read x = m.read x

theorem Part.bytes_getElem (part : Part) (cfg : Config) (v : Word) {k : Nat} (hk : k < part.count)
    (h : laneOffset cfg.bigEndian part.count k < (part.bytes cfg v).length) :
    (part.bytes cfg v)[laneOffset cfg.bigEndian part.count k] = lane v (part.low + k) := by
  rw [List.getElem_eq_iff, Part.bytes_eq]
  cases cfg.bigEndian
  · simp [laneOffset, hk]
  · have hlast : part.count - 1 - k < part.count := by omega
    have hback : part.count - 1 - (part.count - 1 - k) = k := by omega
    simp [laneOffset, hlast, hback]

theorem partStored_writeBytes (cfg : Config) (image : List AddressRange) {part : Part} (hf : part.low + part.count ≤ 4)
    (v : Word) (m : Memory) :
    PartStored cfg image part v m (writeBytes image m (physical cfg.segments part.start) (part.bytes cfg v)) where
  stored := by
    rintro k - ⟨hlow, hk⟩ hi
    have hlt : k - part.low < part.count := by omega
    have hoffset : laneOffset cfg.bigEndian part.count (k - part.low) < (part.bytes cfg v).length := by
      rw [Part.length_bytes]
      exact laneOffset_lt _ hlt
    rw [Part.address, writeBytes_read_at _ _ _ _ (by rw [Part.length_bytes]; omega) _ hoffset hi,
      Part.bytes_getElem _ _ _ hlt, Nat.add_sub_cancel' hlow]
  other := by
    intro x hx
    refine writeBytes_read_other _ _ _ _ _ (hx.imp_left fun h j hj => ?_)
    rw [Part.length_bytes] at hj
    have hlt := laneOffset_lt cfg.bigEndian hj
    have := h (part.low + laneOffset cfg.bigEndian part.count j) (by omega) ⟨by omega, by omega⟩
    rwa [Part.address, Nat.add_sub_cancel_left, laneOffset_laneOffset _ hj] at this

/-- Memory `m'` is `m` with the word `v` stored at `a`, where it is in the launch image. -/
structure WordStored (cfg : Config) (image : List AddressRange) (a v : Word) (m m' : Memory) : Prop where
  stored : ∀ k < 4, inRanges image (physical cfg.segments (laneAddress cfg.bigEndian a k)).toNat = true →
    m'.read (physical cfg.segments (laneAddress cfg.bigEndian a k)).toNat = some (lane v k)
  other : ∀ x, (∀ k < 4, x ≠ (physical cfg.segments (laneAddress cfg.bigEndian a k)).toNat) ∨ inRanges image x = false →
    m'.read x = m.read x

/-- What the second part stores does not overwrite the first: lanes do not share a physical address. -/
theorem PartStored.word {cfg : Config} {image : List AddressRange} {a v : Word} {part₁ part₂ : Part} {m m₁ m₂ : Memory}
    (first : PartStored cfg image part₁ v m m₁) (second : PartStored cfg image part₂ v m₁ m₂)
    (word : MakeUp cfg a part₁ part₂) : WordStored cfg image a v m m₂ := by
  constructor
  · intro k hk hi
    by_cases moved : part₂.Moves k
    · rw [← word.liesIn₂ k hk moved] at hi ⊢
      exact second.stored k hk moved hi
    · have moved₁ := (word.all k hk).resolve_right moved
      rw [second.other _ (.inl fun j hj hmoves same => ?_)]
      · rw [← word.liesIn₁ k hk moved₁] at hi ⊢
        exact first.stored k hk moved₁ hi
      · rw [word.liesIn₂ j hj hmoves] at same
        have := laneOffset_inj hk hj (physical_add_inj (laneOffset_lt _ hk) (laneOffset_lt _ hj) same)
        exact moved (this ▸ hmoves)
  · intro x hx
    rw [second.other x (hx.imp_left fun h k hk moved => word.liesIn₂ k hk moved ▸ h k hk),
      first.other x (hx.imp_left fun h k hk moved => word.liesIn₁ k hk moved ▸ h k hk)]

section
variable {i j : Instr} {s : State} {rt base : Reg} {a : Word} {offset₁ offset₂ : BitVec 16}
  {partOf₁ partOf₂ : Bool → Word → Part} {part₁ part₂ : Part}

/-- Two stores of parts that make up a word store the word. -/
theorem stored_of_storesPart_pair (hi : StoresPart i rt offset₁ base partOf₁)
    (hj : StoresPart j rt offset₂ base partOf₂) (at₁ : PartAt .store s offset₁ base partOf₁ part₁)
    (at₂ : PartAt .store s offset₂ base partOf₂ part₂) (word : MakeUp s.cfg a part₁ part₂)
    (fit : part₁.low + part₁.count ≤ 4 ∧ part₂.low + part₂.count ≤ 4)
    (fresh : s.stale ≠ some base ∧ s.stale ≠ some rt) (idle : s.ld = none) (settled : s.mtc0 = none) :
    ∃ t u, exec i s = .next t ∧ exec j t.executing = .next u ∧
      WordStored s.cfg s.image a (s.reg rt) s.mem u.mem ∧ u.image = s.image := by
  let t := (s.storeBytes (physical s.cfg.segments part₁.start) (part₁.bytes s.cfg (s.rt rt))).completed i none
  have nothing (r : Reg) (v : Word) : t.ld ≠ some (r, v) := by simp [t, idle]
  have next : PartAt .store t.executing offset₂ base partOf₂ part₂ :=
    at₂.next ⟨settled, rfl⟩ fresh.1 (fun _ => rfl) rfl rfl (nothing base)
  obtain ⟨hmem, himage, -, hcfg, -⟩ := t.executing_kept
  have source₁ : s.rt rt = s.reg rt := s.operand_of_fresh _ rt fresh.2
  have source₂ : t.executing.rt rt = s.reg rt := State.operand_executing (nothing rt) _
  have first : PartStored s.cfg s.image part₁ (s.reg rt) s.mem t.mem :=
    source₁ ▸ partStored_writeBytes s.cfg s.image fit.1 _ s.mem
  have second := partStored_writeBytes s.cfg s.image fit.2 (s.reg rt) t.mem
  refine ⟨t, _, hi s _ at₁, hj t.executing _ next, ?_⟩
  have mem : (t.executing.storeBytes (physical t.executing.cfg.segments part₂.start)
      (part₂.bytes t.executing.cfg (t.executing.rt rt))).mem =
      writeBytes s.image t.mem (physical s.cfg.segments part₂.start) (part₂.bytes s.cfg (s.reg rt)) := by
    rw [State.storeBytes, himage, hmem, hcfg, source₂]
    rfl
  rw [State.completed_mem, mem]
  exact ⟨first.word second word, himage⟩

end

/-- Settles O46: in either order the two stores make up the word at `a` (`makeUp_left_right`). -/
theorem unalignedStorePair : Obligations.UnalignedStorePair := by
  intro rt base offset s a first second b0 b1 b2 b3 fresh fresh' idle settled hoffset ea access last value order
  have left := partAt_left hoffset ea access last
  have right := partAt_right hoffset ea access last
  have word := makeUp_left_right s.cfg a
  have fits := leftPart_fits s.cfg.bigEndian (laneAddress s.cfg.bigEndian a 3)
  have fits' := rightPart_fits s.cfg.bigEndian (laneAddress s.cfg.bigEndian a 0)
  have stored : ∃ t u, exec first s = .next t ∧ exec second t.executing = .next u ∧
      WordStored s.cfg s.image a (s.reg rt) s.mem u.mem ∧ u.image = s.image := by
    rcases either_order (left := (.swl rt · base)) (right := (.swr rt · base)) order with ⟨rfl, rfl⟩ | ⟨rfl, rfl⟩
    · exact stored_of_storesPart_pair (storesPart_swl _ _ _) (storesPart_swr _ _ _) left right word ⟨fits, fits'⟩
        ⟨fresh, fresh'⟩ idle settled
    · exact stored_of_storesPart_pair (storesPart_swr _ _ _) (storesPart_swl _ _ _) right left word.symm ⟨fits', fits⟩
        ⟨fresh, fresh'⟩ idle settled
  obtain ⟨t, u, ht, hu, ⟨lanes, others⟩, image⟩ := stored
  refine ⟨t, u, ht, hu, fun k b hb hi => ?_, image, fun x hx => others x (hx.imp_left fun h k hk => ?_)⟩
  · have hk : k < 4 := (List.getElem?_eq_some_iff.mp hb).1
    have byte : lane (s.reg rt) (laneOffset s.cfg.bigEndian 4 k) = b := by
      rw [value, bytes_eq_ofLanes, lane_ofLanes _ (laneOffset_lt _ hk), laneOffset_laneOffset _ hk,
        List.getD_eq_getElem?_getD, hb, Option.getD_some]
    rw [← laneAddress_laneOffset s.cfg.bigEndian a hk] at hi ⊢
    rw [lanes _ (laneOffset_lt _ hk) hi, byte]
  · exact h _ (laneOffset_lt _ hk)

end Sys2Proof.Machine
end

section
/-! Arithmetic, logic and comparison (O20 to O29): which result each instruction writes, and that the words the model
computes are the exact integers, and the bits, of spec/41_computational_alu.md. -/

namespace Sys2Proof.Machine

/-! ## Exact integers and words -/

/-- Adding words is adding their signed values, modulo 2^32. -/
theorem add_eq_ofInt (a b : Word) : a + b = BitVec.ofInt 32 (a.toInt + b.toInt) := by
  rw [BitVec.ofInt_add, BitVec.ofInt_toInt, BitVec.ofInt_toInt]

theorem sub_eq_ofInt (a b : Word) : a - b = BitVec.ofInt 32 (a.toInt - b.toInt) := by
  rw [sub_eq_add_neg a.toInt, BitVec.ofInt_add, BitVec.ofInt_neg, BitVec.ofInt_toInt, BitVec.ofInt_toInt,
    BitVec.sub_eq_add_neg]

/-- Adding words is adding their unsigned values, modulo 2^32. -/
theorem add_eq_ofNat (a b : Word) : a + b = BitVec.ofNat 32 (a.toNat + b.toNat) := by
  rw [BitVec.ofNat_add, BitVec.ofNat_toNat, BitVec.ofNat_toNat, BitVec.setWidth_eq, BitVec.setWidth_eq]

/-! ## Overflow (41_computational_alu.md R189)

The two carries of a 32-bit sum differ exactly where the 33-bit sum, which is exact, is no 32-bit integer. -/

/-- An integer that a word can hold as its signed value. -/
def FitsWord (n : Int) : Prop := -2 ^ 31 ≤ n ∧ n < 2 ^ 31

/-- Of 33 bits the top two are the same exactly where the value fits into 32. -/
theorem topBits_ne_iff (x : BitVec 33) : (x.getLsbD 32 != x.getLsbD 31) = true ↔ ¬ FitsWord x.toInt := by
  have bit (k : Nat) : x.getLsbD k = decide (x.toNat / 2 ^ k % 2 = 1) := Nat.testBit_eq_decide_div_mod_eq
  have := x.isLt
  rw [bit, bit, bne_iff_ne, ne_eq, decide_eq_decide, FitsWord, BitVec.toInt_eq_toNat_cond]
  split_ifs <;> omega

theorem addOverflows_iff (a b : Word) : addOverflows a b = true ↔ ¬ FitsWord (a.toInt + b.toInt) := by
  have exact_sum : (a.signExtend 33 + b.signExtend 33).toInt = a.toInt + b.toInt := by
    have := a.toInt_lt; have := a.le_toInt; have := b.toInt_lt; have := b.le_toInt
    rw [BitVec.toInt_add, BitVec.toInt_signExtend_of_le (by omega), BitVec.toInt_signExtend_of_le (by omega),
      Int.bmod_eq_of_le (by omega) (by omega)]
  rw [← exact_sum]
  exact topBits_ne_iff _

theorem subOverflows_iff (a b : Word) : subOverflows a b = true ↔ ¬ FitsWord (a.toInt - b.toInt) := by
  have exact_difference : (a.signExtend 33 - b.signExtend 33).toInt = a.toInt - b.toInt := by
    have := a.toInt_lt; have := a.le_toInt; have := b.toInt_lt; have := b.le_toInt
    rw [BitVec.toInt_sub, BitVec.toInt_signExtend_of_le (by omega), BitVec.toInt_signExtend_of_le (by omega),
      Int.bmod_eq_of_le (by omega) (by omega)]
  rw [← exact_difference]
  exact topBits_ne_iff _

/-! ## Immediates and comparison results (30_encoding.md R106 to R108, 41_computational_alu.md R190) -/

/-- Sign extension puts ones into the upper half of an immediate with its top bit set, and leaves any other as it is. -/
theorem signExtend_toNat (imm : BitVec 16) :
    (signExtend imm).toNat = if imm.toNat < 2 ^ 15 then imm.toNat else 0xFFFF0000 + imm.toNat := by
  have := imm.isLt
  rw [signExtend_eq, BitVec.toNat_ofInt, BitVec.toInt_eq_toNat_cond]
  split_ifs <;> omega

/-- Zero extension puts zeros into the upper half. -/
theorem zeroExtend_eq_append (imm : BitVec 16) : zeroExtend imm = 0#16 ++ imm :=
  BitVec.setWidth_eq_append (by omega)

theorem upperImmediate_eq (imm : BitVec 16) : upperImmediate imm = BitVec.ofNat 32 (imm.toNat * 2 ^ 16) := by
  have := imm.isLt
  apply BitVec.eq_of_toNat_eq
  rw [upperImmediate, BitVec.toNat_append, Nat.shiftLeft_eq, BitVec.toNat_zero, Nat.or_zero, BitVec.toNat_ofNat,
    Nat.mod_eq_of_lt (by omega)]

theorem boolWord_decide (p : Prop) [Decidable p] : boolWord (decide p) = if p then 1 else 0 := by
  simp [boolWord]

/-! ## Logical operations half by half (41_computational_alu.md R175 to R177) -/

/-- A word is its upper half and its lower half. -/
theorem upper_append_lower (v : Word) : v.extractLsb' 16 16 ++ v.extractLsb' 0 16 = v :=
  BitVec.extractLsb'_append_extractLsb'

section
variable (v : Word) (x y : BitVec 16)

theorem and_halves : v &&& (x ++ y) = (v.extractLsb' 16 16 &&& x) ++ (v.extractLsb' 0 16 &&& y) := by
  rw [← BitVec.and_append, upper_append_lower]

theorem or_halves : v ||| (x ++ y) = (v.extractLsb' 16 16 ||| x) ++ (v.extractLsb' 0 16 ||| y) := by
  rw [← BitVec.or_append, upper_append_lower]

theorem xor_halves : v ^^^ (x ++ y) = (v.extractLsb' 16 16 ^^^ x) ++ (v.extractLsb' 0 16 ^^^ y) := by
  rw [← BitVec.xor_append, upper_append_lower]

end

/-! ## Which result each instruction completes with (Machine/Alu.lean) -/

section
variable (rd rs rt : Reg) (imm : BitVec 16) (s : State)

theorem exec_addi : exec (.addi rt rs imm) s =
    if addOverflows (s.rs rs) (signExtend imm) then raise [rs] .overflow s
    else completeWith (.addi rt rs imm) rt (s.rs rs + signExtend imm) s := rfl

theorem exec_addiu : exec (.addiu rt rs imm) s = completeWith (.addiu rt rs imm) rt (s.rs rs + signExtend imm) s := rfl

theorem exec_slti : exec (.slti rt rs imm) s =
    completeWith (.slti rt rs imm) rt (boolWord (lessSigned (s.rs rs) (signExtend imm))) s := rfl

theorem exec_sltiu : exec (.sltiu rt rs imm) s =
    completeWith (.sltiu rt rs imm) rt (boolWord (lessUnsigned (s.rs rs) (signExtend imm))) s := rfl

theorem exec_andi : exec (.andi rt rs imm) s = completeWith (.andi rt rs imm) rt (s.rs rs &&& zeroExtend imm) s := rfl

theorem exec_ori : exec (.ori rt rs imm) s = completeWith (.ori rt rs imm) rt (s.rs rs ||| zeroExtend imm) s := rfl

theorem exec_xori : exec (.xori rt rs imm) s = completeWith (.xori rt rs imm) rt (s.rs rs ^^^ zeroExtend imm) s := rfl

theorem exec_lui : exec (.lui rt imm) s = completeWith (.lui rt imm) rt (upperImmediate imm) s := rfl

theorem exec_add : exec (.add rd rs rt) s =
    if addOverflows (s.rs rs) (s.rt rt) then raise [rs, rt] .overflow s
    else completeWith (.add rd rs rt) rd (s.rs rs + s.rt rt) s := rfl

theorem exec_addu : exec (.addu rd rs rt) s = completeWith (.addu rd rs rt) rd (s.rs rs + s.rt rt) s := rfl

theorem exec_sub : exec (.sub rd rs rt) s =
    if subOverflows (s.rs rs) (s.rt rt) then raise [rs, rt] .overflow s
    else completeWith (.sub rd rs rt) rd (s.rs rs - s.rt rt) s := rfl

theorem exec_subu : exec (.subu rd rs rt) s = completeWith (.subu rd rs rt) rd (s.rs rs - s.rt rt) s := rfl

theorem exec_slt : exec (.slt rd rs rt) s =
    completeWith (.slt rd rs rt) rd (boolWord (lessSigned (s.rs rs) (s.rt rt))) s := rfl

theorem exec_sltu : exec (.sltu rd rs rt) s =
    completeWith (.sltu rd rs rt) rd (boolWord (lessUnsigned (s.rs rs) (s.rt rt))) s := rfl

theorem exec_and : exec (.and rd rs rt) s = completeWith (.and rd rs rt) rd (s.rs rs &&& s.rt rt) s := rfl

theorem exec_or : exec (.or rd rs rt) s = completeWith (.or rd rs rt) rd (s.rs rs ||| s.rt rt) s := rfl

theorem exec_xor : exec (.xor rd rs rt) s = completeWith (.xor rd rs rt) rd (s.rs rs ^^^ s.rt rt) s := rfl

theorem exec_nor : exec (.nor rd rs rt) s = completeWith (.nor rd rs rt) rd (~~~(s.rs rs ||| s.rt rt)) s := rfl

end

section
variable {i : Instr} {d : Reg} {u v : Word} {s : State}

/-- What an instruction computes, `u`, may be written in another way, `v`. -/
theorem writesReg_of_value (hi : exec i s = completeWith i d u s) (hb : isBranch i = false) (hv : u = v) :
    WritesReg i d v s :=
  hv ▸ writesReg_of_completeWith hi hb

/-- ADD, ADDI and SUB: with the overflow condition exact, the exact result where it fits, and Overflow elsewhere. -/
theorem writesReg_or_overflow {overflows : Bool} {reads : List Reg} {n : Int}
    (hi : exec i s = if overflows then raise reads .overflow s else completeWith i d u s) (hb : isBranch i = false)
    (ho : overflows = true ↔ ¬ FitsWord n) (hv : u = BitVec.ofInt 32 n) :
    if -2 ^ 31 ≤ n ∧ n < 2 ^ 31 then WritesReg i d (BitVec.ofInt 32 n) s else Takes (exec i s) .overflow s := by
  split_ifs with fits
  · exact writesReg_of_value (hi.trans (if_neg fun h => ho.mp h fits)) hb hv
  · rw [hi, if_pos (ho.mpr fits)]
    exact raise_takes ..

end

/-! ## The results as the spec states them (41_computational_alu.md R171 to R188) -/

/-- Settles O20: the sum of words is the sum of the signed values, modulo 2^32 (`add_eq_ofInt`). -/
theorem addiuResult : Obligations.AddiuResult := fun enc rt rs imm _ =>
  ⟨decodeOfEncode enc (.addiu rt rs imm),
    writesReg_of_value (exec_addiu ..) rfl (by rw [add_eq_ofInt, signExtend_toInt])⟩

/-- Settles O21: the model's comparisons are decided on the signed and the unsigned values themselves; the sign-extended
immediate has the immediate's signed value (`signExtend_toInt`), and the unsigned value of `signExtend_toNat`. -/
theorem setLessImmediateResult : Obligations.SetLessImmediateResult := by
  intro enc rt rs imm s
  refine ⟨decodeOfEncode enc (.slti rt rs imm), ?slti, decodeOfEncode enc (.sltiu rt rs imm), ?sltiu⟩
  case slti =>
    rw [← signExtend_toInt]
    exact writesReg_of_value (exec_slti ..) rfl (boolWord_decide _)
  case sltiu =>
    rw [← signExtend_toNat]
    exact writesReg_of_value (exec_sltiu ..) rfl (boolWord_decide _)

/-- Settles O22: with x[rs] and the immediate each in two halves, the operation goes half by half, and 0 is the zero of
AND and the unit of OR and XOR. -/
theorem logicalImmediateResult : Obligations.LogicalImmediateResult := by
  intro enc rt rs imm s
  refine ⟨decodeOfEncode enc (.andi rt rs imm), writesReg_of_value (exec_andi ..) rfl ?and,
    decodeOfEncode enc (.ori rt rs imm), writesReg_of_value (exec_ori ..) rfl ?or,
    decodeOfEncode enc (.xori rt rs imm), writesReg_of_value (exec_xori ..) rfl ?xor⟩
  case and => rw [zeroExtend_eq_append, and_halves, BitVec.and_zero, BitVec.and_comm]
  case or => rw [zeroExtend_eq_append, or_halves, BitVec.or_zero, BitVec.or_comm]
  case xor => rw [zeroExtend_eq_append, xor_halves, BitVec.xor_zero, BitVec.xor_comm]

/-- Settles O23: appending 16 zeros is multiplying by 2^16 (`upperImmediate_eq`). -/
theorem luiResult : Obligations.LuiResult := fun enc rt imm _ =>
  ⟨decodeOfEncode enc (.lui rt imm), writesReg_of_value (exec_lui ..) rfl (upperImmediate_eq imm)⟩

/-- Settles O24: the model's overflow condition is that the exact sum does not fit (`addOverflows_iff`). -/
theorem addResultOrOverflow : Obligations.AddResultOrOverflow := by
  intro enc rd rs rt imm s
  refine ⟨decodeOfEncode enc (.add rd rs rt), ?add, decodeOfEncode enc (.addi rt rs imm), ?addi⟩
  case add => exact writesReg_or_overflow (exec_add ..) rfl (addOverflows_iff ..) (add_eq_ofInt ..)
  case addi =>
    rw [← signExtend_toInt]
    exact writesReg_or_overflow (exec_addi ..) rfl (addOverflows_iff ..) (add_eq_ofInt ..)

/-- Settles O25: as O24, with `subOverflows_iff`. -/
theorem subResultOrOverflow : Obligations.SubResultOrOverflow := fun enc rd rs rt _ =>
  ⟨decodeOfEncode enc (.sub rd rs rt),
    writesReg_or_overflow (exec_sub ..) rfl (subOverflows_iff ..) (sub_eq_ofInt ..)⟩

/-- Settles O26: as O20, with the unsigned values (`add_eq_ofNat`). -/
theorem adduResult : Obligations.AdduResult := fun enc rd rs rt _ =>
  ⟨decodeOfEncode enc (.addu rd rs rt), writesReg_of_value (exec_addu ..) rfl (add_eq_ofNat ..)⟩

/-- Settles O27, by `sub_eq_ofInt`: the difference that SUB has, with no overflow condition. -/
theorem subuResult : Obligations.SubuResult := fun enc rd rs rt _ =>
  ⟨decodeOfEncode enc (.subu rd rs rt), writesReg_of_value (exec_subu ..) rfl (sub_eq_ofInt ..)⟩

/-- Settles O28, as O21. -/
theorem setLessResult : Obligations.SetLessResult := fun enc rd rs rt _ =>
  ⟨decodeOfEncode enc (.slt rd rs rt), writesReg_of_value (exec_slt ..) rfl (boolWord_decide _),
    decodeOfEncode enc (.sltu rd rs rt), writesReg_of_value (exec_sltu ..) rfl (boolWord_decide _)⟩

/-- Settles O29: the bits of the words that the model computes. -/
theorem logicalResult : Obligations.LogicalResult := fun enc rd rs rt _ =>
  ⟨decodeOfEncode enc (.and rd rs rt),
    ⟨_, fun _ _ => BitVec.getLsbD_and, writesReg_of_completeWith (exec_and ..) rfl⟩,
    decodeOfEncode enc (.or rd rs rt),
    ⟨_, fun _ _ => BitVec.getLsbD_or, writesReg_of_completeWith (exec_or ..) rfl⟩,
    decodeOfEncode enc (.xor rd rs rt),
    ⟨_, fun _ _ => BitVec.getLsbD_xor, writesReg_of_completeWith (exec_xor ..) rfl⟩,
    decodeOfEncode enc (.nor rd rs rt),
    ⟨_, fun k hk => by simp [hk], writesReg_of_completeWith (exec_nor ..) rfl⟩⟩

end Sys2Proof.Machine
end

section
/-! The shifts (O30, O31): the words the model computes are the product with a power of two and the quotients by one, as
spec/42_computational_shift.md has them. -/

namespace Sys2Proof.Machine

/-! ## Shifted words as exact integers (42_computational_shift.md R201 to R203) -/

section
variable {w m : Nat} (v : BitVec w) (n : BitVec m)

/-- A left shift is a product, modulo 2^w. -/
theorem shiftLeft_eq_ofNat : v <<< n = BitVec.ofNat w (v.toNat * 2 ^ n.toNat) := by
  rw [BitVec.shiftLeft_eq', ← Nat.shiftLeft_eq]
  rfl

/-- A right shift that puts zeros above is the quotient of the unsigned value. -/
theorem ushiftRight_eq_ofNat : v >>> n = BitVec.ofNat w (v.toNat / 2 ^ n.toNat) := by
  rw [BitVec.ushiftRight_eq', ← Nat.shiftRight_eq_div_pow, ← BitVec.toNat_ushiftRight, BitVec.ofNat_toNat,
    BitVec.setWidth_eq]

/-- A right shift that copies the sign bit is the quotient of the signed value, rounded down. -/
theorem sshiftRight_eq_ofInt : v.sshiftRight n.toNat = BitVec.ofInt w (v.toInt / 2 ^ n.toNat) := by
  rw [BitVec.sshiftRight_eq, Int.shiftRight_eq_div_pow, Nat.cast_pow, Nat.cast_ofNat]

end

/-- The low five bits of a word are its value modulo 32 (42_computational_shift.md R204 to R206). -/
theorem shiftAmount_toNat (v : Word) : (shiftAmount v).toNat = v.toNat % 32 :=
  BitVec.extractLsb'_toNat ..

/-! ## Which result each shift completes with (Machine/Shift.lean) -/

section
variable (rd rs rt : Reg) (shamt : BitVec 5) (s : State)

theorem exec_sll : exec (.sll rd rt shamt) s = completeWith (.sll rd rt shamt) rd (s.rt rt <<< shamt) s := rfl

theorem exec_srl : exec (.srl rd rt shamt) s = completeWith (.srl rd rt shamt) rd (s.rt rt >>> shamt) s := rfl

theorem exec_sra : exec (.sra rd rt shamt) s =
    completeWith (.sra rd rt shamt) rd ((s.rt rt).sshiftRight shamt.toNat) s := rfl

theorem exec_sllv : exec (.sllv rd rt rs) s =
    completeWith (.sllv rd rt rs) rd (s.rt rt <<< shiftAmount (s.rs rs)) s := rfl

theorem exec_srlv : exec (.srlv rd rt rs) s =
    completeWith (.srlv rd rt rs) rd (s.rt rt >>> shiftAmount (s.rs rs)) s := rfl

theorem exec_srav : exec (.srav rd rt rs) s =
    completeWith (.srav rd rt rs) rd ((s.rt rt).sshiftRight (shiftAmount (s.rs rs)).toNat) s := rfl

end

/-! ## The shifts as the spec states them (42_computational_shift.md R201 to R206) -/

/-- Settles O30: each shift by shamt is the product or the quotient that its shifted word is. -/
theorem shiftByConstantResult : Obligations.ShiftByConstantResult := fun enc rd rt shamt _ =>
  ⟨decodeOfEncode enc (.sll rd rt shamt), writesReg_of_value (exec_sll ..) rfl (shiftLeft_eq_ofNat ..),
    decodeOfEncode enc (.srl rd rt shamt), writesReg_of_value (exec_srl ..) rfl (ushiftRight_eq_ofNat ..),
    decodeOfEncode enc (.sra rd rt shamt), writesReg_of_value (exec_sra ..) rfl (sshiftRight_eq_ofInt ..)⟩

/-- Settles O31: as O30, the amount being x[rs] modulo 32 (`shiftAmount_toNat`). -/
theorem shiftByRegisterResult : Obligations.ShiftByRegisterResult := by
  intro enc rd rt rs s
  rw [← shiftAmount_toNat]
  exact ⟨decodeOfEncode enc (.sllv rd rt rs), writesReg_of_value (exec_sllv ..) rfl (shiftLeft_eq_ofNat ..),
    decodeOfEncode enc (.srlv rd rt rs), writesReg_of_value (exec_srlv ..) rfl (ushiftRight_eq_ofNat ..),
    decodeOfEncode enc (.srav rd rt rs), writesReg_of_value (exec_srav ..) rfl (sshiftRight_eq_ofInt ..)⟩

end Sys2Proof.Machine
end

section
/-! Multiply and divide (O32 to O34): what they read and keep behind the spacing rule of 70_reset_and_hazards.md R365, and
that the words they leave in HI and LO are the exact integers of spec/43_computational_muldiv.md. -/

namespace Sys2Proof.Machine

/-! ## The product in two words (43_computational_muldiv.md R211, R212) -/

section
variable (n : Nat) (z : Int)

theorem lowWord_ofNat : (BitVec.ofNat 64 n).extractLsb' 0 32 = BitVec.ofNat 32 n := by
  apply BitVec.eq_of_toNat_eq
  simp only [BitVec.extractLsb'_toNat, BitVec.toNat_ofNat, Nat.shiftRight_eq_div_pow]
  omega

theorem highWord_ofNat : (BitVec.ofNat 64 n).extractLsb' 32 32 = BitVec.ofNat 32 (n / 2 ^ 32) := by
  apply BitVec.eq_of_toNat_eq
  simp only [BitVec.extractLsb'_toNat, BitVec.toNat_ofNat, Nat.shiftRight_eq_div_pow]
  omega

theorem lowWord_ofInt : (BitVec.ofInt 64 z).extractLsb' 0 32 = BitVec.ofInt 32 z := by
  apply BitVec.eq_of_toNat_eq
  simp only [BitVec.extractLsb'_toNat, BitVec.toNat_ofInt, Nat.shiftRight_eq_div_pow]
  omega

/-- The high word is the quotient rounded down, for a negative integer too. -/
theorem highWord_ofInt : (BitVec.ofInt 64 z).extractLsb' 32 32 = BitVec.ofInt 32 (z / 2 ^ 32) := by
  apply BitVec.eq_of_toNat_eq
  simp only [BitVec.extractLsb'_toNat, BitVec.toNat_ofInt, Nat.shiftRight_eq_div_pow]
  omega

end

/-! ## The quotient rounded toward zero (43_computational_muldiv.md R213, R215) -/

/-- A remainder smaller than the divisor and with the dividend's sign leaves one quotient, the one rounded toward zero. -/
theorem tdiv_tmod_eq {n d q r : Int} (division : n = d * q + r) (small : |r| < |d|) (nonneg : 0 ≤ n → 0 ≤ r)
    (nonpos : n ≤ 0 → r ≤ 0) : n.tdiv d = q ∧ n.tmod d = r := by
  have hd : d ≠ 0 := abs_pos.mp ((abs_nonneg r).trans_lt small)
  have hsum : r + d * q = n := by rw [division, Int.add_comm]
  rw [Int.abs_eq_natAbs d, abs_lt] at small
  rcases Int.le_total 0 n with hn | hn
  · exact (Int.tdiv_tmod_unique hn hd).mpr ⟨hsum, nonneg hn, small.2⟩
  · exact (Int.tdiv_tmod_unique' hn hd).mpr ⟨hsum, small.1, nonpos hn⟩

/-! ## Behind the spacing rule (70_reset_and_hazards.md R365) -/

section
variable {i : Instr} {rs rt : Reg} {s u : State} {a b hi lo : Word}

/-- The spacing rule lets a multiply or divide run on `u`, where its operands are `a` and `b`. -/
structure MulDivRuns (rs rt : Reg) (a b : Word) (s u : State) : Prop where
  hazard : s.hiLoHazard true true = some u
  rs_eq : u.rs rs = a
  rt_eq : u.rt rt = b

theorem exists_mulDivRuns (hiUnused : ¬ ConsumedRead true s) (loUnused : ¬ ConsumedRead false s)
    (ha : ReadsOperand true true .staleRs rs a s) (hb : ReadsOperand true true .staleRt rt b s) :
    ∃ u, MulDivRuns rs rt a b s u := by
  have unused : s.hiLoHazard true true ≠ none := by simp [State.hiLoHazard_none, hiUnused, loUnused]
  obtain ⟨u, hu⟩ := Option.ne_none_iff_exists'.mp unused
  exact ⟨u, hu, State.operand_afterHazard hu ha, State.operand_afterHazard hu hb⟩

theorem writingHiLo_of_hazard {writesHi writesLo : Bool} (effect : State → Answer)
    (h : s.hiLoHazard writesHi writesLo = some u) : writingHiLo writesHi writesLo effect s = effect u := by
  unfold writingHiLo
  rw [h]

theorem State.hiLoHazard_cfg {writesHi writesLo : Bool} (h : s.hiLoHazard writesHi writesLo = some u) :
    u.cfg = s.cfg := by
  obtain ⟨⟨_, _, rfl⟩, -, -⟩ := State.hiLoHazard_some h
  rfl

theorem State.hiLoHazard_tick {writesHi writesLo : Bool} (h : s.hiLoHazard writesHi writesLo = some u) :
    u.tick = s.tick := by
  obtain ⟨⟨_, _, rfl⟩, -, -⟩ := State.hiLoHazard_some h
  rfl

/-- What a writer of HI or LO that completes leaves as it was. -/
def HiLoWriterFrame (writesHi writesLo : Bool) (s t : State) : Prop :=
  SameRegsButRecent writesHi writesLo s t ∧ SameCp0 s t ∧ SameCops s t ∧ SamePending s t ∧ SameMemory s t ∧
    SameInputs s t ∧ GoesOn s t

/-- Whatever a writer makes of HI, LO and their marks, behind the spacing rule it keeps the rest. -/
theorem hiLoWriterFrame_completed {writesHi writesLo : Bool} (h : s.hiLoHazard writesHi writesLo = some u)
    (hb : isBranch i = false) (hi lo : Word) (hiDefined loDefined mdFresh : Bool) :
    HiLoWriterFrame writesHi writesLo s
      (({ u with hi, lo, hiDefined, loDefined, mdFresh } : State).completed i none) := by
  obtain ⟨⟨_, _, rfl⟩, regs, -⟩ := State.hiLoHazard_some h
  exact ⟨regs, ⟨rfl, rfl, rfl, rfl, rfl, rfl, rfl, rfl, rfl⟩, ⟨rfl, rfl⟩, ⟨rfl, rfl⟩, .of_mem rfl rfl rfl rfl,
    ⟨rfl, rfl, rfl, rfl, rfl⟩, rfl, rfl, hb⟩

theorem setsHiLo_of_complete (h : s.hiLoHazard true true = some u) (hb : isBranch i = false)
    (he : exec i s = complete i (u.setHiLo hi lo)) : SetsHiLo i hi lo s :=
  ⟨_, he, rfl, rfl, rfl, rfl, rfl, hiLoWriterFrame_completed h hb hi lo true true true⟩

theorem losesHiLo_of_complete (h : s.hiLoHazard true true = some u) (hb : isBranch i = false)
    (he : exec i s = complete i u.loseHiLo) : LosesHiLo i s :=
  have tick : u.tick = s.tick := State.hiLoHazard_tick h
  ⟨_, he, State.free_congr tick .lostHi, State.free_congr tick .lostLo, rfl, rfl, rfl,
    hiLoWriterFrame_completed h hb (u.free .lostHi) (u.free .lostLo) false false true⟩

/-! ## How each multiply and divide completes (Machine/MulDiv.lean) -/

theorem exec_mult (h : MulDivRuns rs rt a b s u) : exec (.mult rs rt) s =
    complete (.mult rs rt)
      (u.setHiLo (BitVec.ofInt 32 (a.toInt * b.toInt / 2 ^ 32)) (BitVec.ofInt 32 (a.toInt * b.toInt))) := by
  rw [← h.rs_eq, ← h.rt_eq, ← highWord_ofInt, ← lowWord_ofInt]
  exact writingHiLo_of_hazard _ h.hazard

theorem exec_multu (h : MulDivRuns rs rt a b s u) : exec (.multu rs rt) s =
    complete (.multu rs rt)
      (u.setHiLo (BitVec.ofNat 32 (a.toNat * b.toNat / 2 ^ 32)) (BitVec.ofNat 32 (a.toNat * b.toNat))) := by
  rw [← h.rs_eq, ← h.rt_eq, ← highWord_ofNat, ← lowWord_ofNat]
  exact writingHiLo_of_hazard _ h.hazard

theorem exec_div (h : MulDivRuns rs rt a b s u) : exec (.div rs rt) s =
    if b.toInt = 0 then complete (.div rs rt) u.loseHiLo
    else if a.toInt = -2 ^ 31 ∧ b.toInt = -1 then
      complete (.div rs rt) (u.setHiLo s.cfg.divCornerHi s.cfg.divCornerLo)
    else complete (.div rs rt)
      (u.setHiLo (BitVec.ofInt 32 (a.toInt.tmod b.toInt)) (BitVec.ofInt 32 (a.toInt.tdiv b.toInt))) := by
  rw [← h.rs_eq, ← h.rt_eq, ← State.hiLoHazard_cfg h.hazard]
  exact writingHiLo_of_hazard _ h.hazard

theorem exec_divu (h : MulDivRuns rs rt a b s u) : exec (.divu rs rt) s =
    if b.toNat = 0 then complete (.divu rs rt) u.loseHiLo
    else complete (.divu rs rt)
      (u.setHiLo (BitVec.ofNat 32 (a.toNat % b.toNat)) (BitVec.ofNat 32 (a.toNat / b.toNat))) := by
  rw [← h.rs_eq, ← h.rt_eq]
  exact writingHiLo_of_hazard _ h.hazard

end

/-! ## The results as the spec states them (43_computational_muldiv.md R211 to R215) -/

/-- Settles O32: the two words of the 64-bit product are the exact product and its quotient by 2^32 (`highWord_ofInt`,
`highWord_ofNat`). -/
theorem multiplyResult : Obligations.MultiplyResult := by
  intro rs rt s a b
  simp only [zero10_eq]
  refine ⟨decodeOfEncode .source (.mult rs rt), decodeOfEncode .mips1 (.mult rs rt),
    decodeOfEncode .source (.multu rs rt), decodeOfEncode .mips1 (.multu rs rt), fun hiUnused loUnused ha hb => ?_⟩
  obtain ⟨u, runs⟩ := exists_mulDivRuns hiUnused loUnused ha hb
  exact ⟨setsHiLo_of_complete runs.hazard rfl (exec_mult runs), setsHiLo_of_complete runs.hazard rfl (exec_multu runs)⟩

/-- Settles O33: a quotient below 2^31 shuts out the corner, and with a remainder smaller than the divisor it is the one
rounded toward zero (`tdiv_tmod_eq`). -/
theorem divideSignedResult : Obligations.DivideSignedResult := by
  intro enc rs rt s a b
  simp only [zero10_eq]
  refine ⟨decodeOfEncode enc (.div rs rt), fun hiUnused loUnused ha hb => ?_⟩
  obtain ⟨u, runs⟩ := exists_mulDivRuns hiUnused loUnused ha hb
  refine ⟨fun zero => ?zeroDivisor, fun least minusOne => ?corner, fun q r division small nonneg nonpos hq => ?quotient⟩
  case zeroDivisor =>
    exact losesHiLo_of_complete runs.hazard rfl ((exec_div runs).trans (if_pos zero))
  case corner =>
    have nonzero : b.toInt ≠ 0 := by omega
    exact setsHiLo_of_complete runs.hazard rfl
      ((exec_div runs).trans ((if_neg nonzero).trans (if_pos ⟨least, minusOne⟩)))
  case quotient =>
    have nonzero : b.toInt ≠ 0 := abs_pos.mp ((abs_nonneg r).trans_lt small)
    obtain ⟨quotient, remainder⟩ := tdiv_tmod_eq division small nonneg nonpos
    have noCorner : ¬ (a.toInt = -2 ^ 31 ∧ b.toInt = -1) := by
      rintro ⟨least, minusOne⟩
      rw [least, minusOne, Int.tdiv_neg, Int.tdiv_one] at quotient
      omega
    rw [← quotient, ← remainder]
    exact setsHiLo_of_complete runs.hazard rfl ((exec_div runs).trans ((if_neg nonzero).trans (if_neg noCorner)))

/-- Settles O34: a remainder below the divisor leaves one quotient (`Nat.div_mod_unique`). -/
theorem divideUnsignedResult : Obligations.DivideUnsignedResult := by
  intro enc rs rt s a b
  simp only [zero10_eq]
  refine ⟨decodeOfEncode enc (.divu rs rt), fun hiUnused loUnused ha hb => ?_⟩
  obtain ⟨u, runs⟩ := exists_mulDivRuns hiUnused loUnused ha hb
  refine ⟨fun zero => ?zeroDivisor, fun q r division small => ?quotient⟩
  case zeroDivisor =>
    exact losesHiLo_of_complete runs.hazard rfl ((exec_divu runs).trans (if_pos zero))
  case quotient =>
    have positive : 0 < b.toNat := Nat.zero_lt_of_lt small
    have sum : r + b.toNat * q = a.toNat := by rw [division, Nat.add_comm]
    obtain ⟨rfl, rfl⟩ := (Nat.div_mod_unique positive).mpr ⟨sum, small⟩
    exact setsHiLo_of_complete runs.hazard rfl ((exec_divu runs).trans (if_neg positive.ne'))

end Sys2Proof.Machine
end

section
/-! Jumps and branches (O47 to O51, O53): where each goes and which register it links, in the exact integers of
spec/44_jump_branch.md, and that in a delay slot each stops the model. -/

namespace Sys2Proof.Machine

/-! ## Destinations (30_encoding.md R110) -/

/-- Two words side by side are a sum: the right one is below the unit of the left one. -/
theorem toNat_append_eq_add {m n : Nat} (x : BitVec m) (y : BitVec n) :
    (x ++ y).toNat = x.toNat * 2 ^ n + y.toNat := by
  rw [BitVec.toNat_append, ← Nat.shiftLeft_add_eq_or_of_lt y.isLt, Nat.shiftLeft_eq]

/-- The destination of a jump as a number. -/
theorem State.jumpTarget_eq (s : State) (target : BitVec 26) :
    s.jumpTarget target = BitVec.ofNat 32 ((s.pc + 4).toNat / 2 ^ 28 * 2 ^ 28 + target.toNat * 4) := by
  have := (s.pc + 4).isLt
  have := target.isLt
  apply BitVec.eq_of_toNat_eq
  rw [State.jumpTarget, State.slotAddress, toNat_append_eq_add, toNat_append_eq_add, BitVec.extractLsb'_toNat,
    Nat.shiftRight_eq_div_pow, BitVec.toNat_ofNat, BitVec.toNat_ofNat]
  omega

/-! ## Branch conditions as exact comparisons (44_jump_branch.md R238 to R243) -/

section
variable (a : Word)

theorem isNegative_eq : isNegative a = decide (a.toInt < 0) := by
  rw [← BitVec.msb_eq_toInt, BitVec.msb_eq_getLsbD_last]
  rfl

theorem not_isNegative_eq : (!isNegative a) = decide (0 ≤ a.toInt) := by
  rw [isNegative_eq, ← decide_not, decide_eq_decide]
  exact Int.not_lt

/-- The zero word is the one whose signed value is 0. -/
theorem isNonPositive_eq : isNonPositive a = decide (a.toInt ≤ 0) := by
  have zero : a = 0 ↔ a.toInt = 0 := BitVec.toInt_inj.symm
  rw [isNonPositive, ← isNegative, isNegative_eq, Bool.eq_iff_iff, Bool.or_eq_true, beq_iff_eq, decide_eq_true_eq,
    decide_eq_true_eq, zero, ← Int.le_iff_lt_or_eq]

theorem isPositive_eq : isPositive a = decide (0 < a.toInt) := by
  have complement : isPositive a = !isNonPositive a := (Bool.not_or ..).symm
  rw [complement, isNonPositive_eq, ← decide_not, decide_eq_decide]
  exact Int.not_le

end

/-! ## How each jump and branch goes on (Machine/JumpBranch.lean, Machine/Coprocessor.lean) -/

section
variable (rs rt rd : Reg) (offset : BitVec 16) (target : BitVec 26) (s : State)

theorem exec_j : exec (.j target) s = transfer (.j target) (some (s.jumpTarget target)) s := rfl

theorem exec_jal : exec (.jal target) s =
    transfer (.jal target) (some (s.jumpTarget target)) (s.setReg 31 (s.pc + 8)) := rfl

theorem exec_jr : exec (.jr rs) s = transfer (.jr rs) (some (s.rs rs)) s := rfl

/-- One transfer for both cases of R234: what it goes to and what it links are free where rs = rd. -/
theorem exec_jalr : exec (.jalr rs rd) s =
    transfer (.jalr rs rd) (some (if rs = rd then s.free .jalrTarget else s.rs rs))
      (s.setReg rd (if rs = rd then s.free .jalrLink else s.pc + 8)) := by
  change execJalr rs rd s = _
  unfold execJalr
  split_ifs
  · rfl
  · rfl

theorem exec_beq : exec (.beq rs rt offset) s =
    branchIf (.beq rs rt offset) (decide ((s.rs rs).toNat = (s.rt rt).toNat)) offset s := by
  rw [decide_eq_decide.mpr BitVec.toNat_inj, ← beq_eq_decide]
  rfl

theorem exec_bne : exec (.bne rs rt offset) s =
    branchIf (.bne rs rt offset) (decide ((s.rs rs).toNat ≠ (s.rt rt).toNat)) offset s := by
  rw [decide_eq_decide.mpr (not_congr BitVec.toNat_inj), decide_not, ← beq_eq_decide]
  rfl

theorem exec_blez : exec (.blez rs offset) s =
    branchIf (.blez rs offset) (decide ((s.rs rs).toInt ≤ 0)) offset s := by
  rw [← isNonPositive_eq]
  rfl

theorem exec_bgtz : exec (.bgtz rs offset) s =
    branchIf (.bgtz rs offset) (decide (0 < (s.rs rs).toInt)) offset s := by
  rw [← isPositive_eq]
  rfl

theorem exec_bltz : exec (.bltz rs offset) s =
    branchIf (.bltz rs offset) (decide ((s.rs rs).toInt < 0)) offset s := by
  rw [← isNegative_eq]
  rfl

theorem exec_bgez : exec (.bgez rs offset) s =
    branchIf (.bgez rs offset) (decide (0 ≤ (s.rs rs).toInt)) offset s := by
  rw [← not_isNegative_eq]
  rfl

/-- The condition is on x[rs] before the link is written, for rs = 31 too (R244). -/
theorem exec_bltzal : exec (.bltzal rs offset) s =
    branchAndLinkIf (.bltzal rs offset) (decide ((s.rs rs).toInt < 0)) offset s := by
  rw [← isNegative_eq]
  rfl

theorem exec_bgezal : exec (.bgezal rs offset) s =
    branchAndLinkIf (.bgezal rs offset) (decide (0 ≤ (s.rs rs).toInt)) offset s := by
  rw [← not_isNegative_eq]
  rfl

end

theorem unit_cases : ∀ z : Unit4, z = 0 ∨ z = 1 ∨ z = 2 ∨ z = 3 := by decide

section
variable (z : Unit4) (offset : BitVec 16) (s : State)

theorem exec_branchFalse : exec (branchFalse z offset) s =
    branchOnCondition (branchFalse z offset) z false offset s := by
  obtain rfl | rfl | rfl | rfl := unit_cases z
  all_goals rfl

theorem exec_branchTrue : exec (branchTrue z offset) s =
    branchOnCondition (branchTrue z offset) z true offset s := by
  obtain rfl | rfl | rfl | rfl := unit_cases z
  all_goals rfl

end

/-! ## Where a branch goes, and that no jump or branch goes on in a delay slot -/

section
variable {i : Instr} {offset : BitVec 16} {s : State} {dest : Word} {p : Prop} [Decidable p]

/-- A branch's target is there exactly if its condition holds. -/
theorem branchTarget_if (hdest : dest = BitVec.ofInt 32 (s.pc.toNat + 4 + 4 * offset.toInt)) :
    (if decide p then some (s.branchTarget offset) else none) = if p then some dest else none := by
  rw [hdest, ← State.branchTarget_eq]
  simp only [decide_eq_true_eq]

theorem transfers_of_branchIf (h : exec i s = branchIf i (decide p) offset s) (hb : isBranch i = true)
    (hd : s.ds = false) (hdest : dest = BitVec.ofInt 32 (s.pc.toNat + 4 + 4 * offset.toInt)) :
    Transfers i (if p then some dest else none) none s := by
  rw [branchIf, branchTarget_if hdest] at h
  exact transfers_of_transfer h hb hd

theorem transfers_of_branchAndLinkIf (h : exec i s = branchAndLinkIf i (decide p) offset s) (hb : isBranch i = true)
    (hd : s.ds = false) (hdest : dest = BitVec.ofInt 32 (s.pc.toNat + 4 + 4 * offset.toInt)) :
    Transfers i (if p then some dest else none) (some (31, s.pc + 8)) s := by
  rw [branchAndLinkIf, branchTarget_if hdest] at h
  exact transfers_of_link h hb hd

/-- A transfer from a delay slot stops the model, whatever it links (R231). -/
theorem stops_of_transfer {target : Option Word} {u : State} (h : exec i s = transfer i target u) (hu : u.ds = true) :
    exec i s = .fault .branchInDelaySlot :=
  h.trans (transfer_in_slot i target hu)

/-- A coprocessor branch whose unit is usable is a conditional branch. -/
theorem branchOnCondition_usable {z : Unit4} (usable : s.copUsable z = true) (sense : Bool) :
    branchOnCondition i z sense offset s = branchIf i (s.condition z == sense) offset s :=
  guarded_none (unusable_none usable)

end

/-! ## The jumps and branches as the spec states them (44_jump_branch.md R231, R233 to R246) -/

/-- Settles O47: the jump's target, put together from its fields, is the sum of `State.jumpTarget_eq`. -/
theorem jumpResult : Obligations.JumpResult := by
  intro enc target s
  rw [← State.jumpTarget_eq]
  exact ⟨decodeOfEncode enc (.j target), decodeOfEncode enc (.jal target), fun hd =>
    ⟨transfers_of_transfer (exec_j ..) rfl hd, transfers_of_link (exec_jal ..) rfl hd⟩⟩

/-- Settles O48: both operands of `exec_jalr` are decided by whether rs = rd. -/
theorem jumpRegisterResult : Obligations.JumpRegisterResult := by
  intro enc rs rd s
  rw [zero15_eq]
  refine ⟨decodeOfEncode enc (.jr rs), decodeOfEncode enc (.jalr rs rd), fun hd =>
    ⟨transfers_of_transfer (exec_jr ..) rfl hd, fun hne => ?apart, fun heq => ?same⟩⟩
  case apart => exact transfers_of_link (by rw [exec_jalr, if_neg hne, if_neg hne]) rfl hd
  case same => exact transfers_of_link (by rw [exec_jalr, if_pos heq, if_pos heq]) rfl hd

/-- Settles O49: words are equal as their unsigned values are; BNE branches on the negation. -/
theorem branchOnEqualityResult : Obligations.BranchOnEqualityResult := by
  intro enc rs rt offset s dest
  refine ⟨decodeOfEncode enc (.beq rs rt offset), decodeOfEncode enc (.bne rs rt offset), fun hd hdest => ⟨?beq, ?bne⟩⟩
  case beq => exact transfers_of_branchIf (exec_beq ..) rfl hd hdest
  case bne =>
    rw [← ite_not]
    exact transfers_of_branchIf (exec_bne ..) rfl hd hdest

/-- Settles O50: each test of the sign bit and of zero is a comparison of the signed value with 0. -/
theorem branchOnSignResult : Obligations.BranchOnSignResult := fun enc rs offset _ _ =>
  ⟨decodeOfEncode enc (.blez rs offset), decodeOfEncode enc (.bgtz rs offset), decodeOfEncode enc (.bltz rs offset),
    decodeOfEncode enc (.bgez rs offset), fun hd hdest =>
    ⟨transfers_of_branchIf (exec_blez ..) rfl hd hdest, transfers_of_branchIf (exec_bgtz ..) rfl hd hdest,
      transfers_of_branchIf (exec_bltz ..) rfl hd hdest, transfers_of_branchIf (exec_bgez ..) rfl hd hdest⟩⟩

/-- Settles O51: as O50; the link is written whatever the condition is. -/
theorem branchAndLinkResult : Obligations.BranchAndLinkResult := fun enc rs offset _ _ =>
  ⟨decodeOfEncode enc (.bltzal rs offset), decodeOfEncode enc (.bgezal rs offset), fun hd hdest =>
    ⟨transfers_of_branchAndLinkIf (exec_bltzal ..) rfl hd hdest,
      transfers_of_branchAndLinkIf (exec_bgezal ..) rfl hd hdest⟩⟩

/-- Settles O53: every jump and branch ends in a transfer, a coprocessor branch once its unit is found usable. -/
theorem branchInDelaySlotStops : Obligations.BranchInDelaySlotStops := by
  intro rs rt rd offset target z s i slot hi
  simp only [List.mem_cons, List.not_mem_nil, or_false] at hi
  rcases hi with (rfl | rfl | rfl | rfl | rfl | rfl | rfl | rfl | rfl | rfl | rfl | rfl) | ⟨usable, rfl | rfl⟩
  · exact stops_of_transfer (exec_j ..) slot
  · exact stops_of_transfer (exec_jal ..) slot
  · exact stops_of_transfer (exec_jr ..) slot
  · exact stops_of_transfer (exec_jalr ..) slot
  · exact stops_of_transfer (exec_beq ..) slot
  · exact stops_of_transfer (exec_bne ..) slot
  · exact stops_of_transfer (exec_blez ..) slot
  · exact stops_of_transfer (exec_bgtz ..) slot
  · exact stops_of_transfer (exec_bltz ..) slot
  · exact stops_of_transfer (exec_bgez ..) slot
  · exact stops_of_transfer (exec_bltzal ..) slot
  · exact stops_of_transfer (exec_bgezal ..) slot
  · exact stops_of_transfer ((exec_branchFalse ..).trans (branchOnCondition_usable usable false)) slot
  · exact stops_of_transfer ((exec_branchTrue ..).trans (branchOnCondition_usable usable true)) slot

end Sys2Proof.Machine
end

section
/-! Coprocessors (O52, O57): the coprocessor branches, and the moves of coprocessors 1 to 3, each with its unit usable
(spec/45_coprocessor.md). -/

namespace Sys2Proof.Machine

/-! ## The condition line (45_coprocessor.md R262) -/

theorem State.conditionValid_iff (s : State) (z : Unit4) :
    s.conditionValid z = true ↔ z = 0 ∨ s.cfg.bczValid.getLsbD z.toNat = true := by
  rw [State.conditionValid, Bool.or_eq_true, beq_iff_eq]

/-- What BCzF and BCzT test: the sample of a line the part has, a free bit for another. -/
theorem State.condition_eq (s : State) (z : Unit4) : s.condition z =
    if z = 0 ∨ s.cfg.bczValid.getLsbD z.toNat = true then s.cpcPrev.getLsbD z.toNat
    else (s.free (.condition z)).getLsbD 0 := by
  simp only [State.condition, State.conditionValid_iff]

/-! ## The registers of coprocessors 1 to 3 (45_coprocessor.md R264, R265) -/

/-- Where MTCz writes, and that every other register of every coprocessor is as before. -/
theorem State.cpr_copWrite (s : State) (z y : Unit4) (r q : Reg) (v : Word) :
    ((s.copWrite z r v).cpr[y.toNat]'y.isLt)[q.toNat]'q.isLt =
      if y = z ∧ q = r then (if s.copSupported z then v else s.free (.writtenCop z r))
      else (s.cpr[y.toNat]'y.isLt)[q.toNat]'q.isLt := by
  by_cases hy : y = z
  case neg =>
    have other : z.toNat ≠ y.toNat := fun h => hy (BitVec.eq_of_toNat_eq h.symm)
    rw [if_neg fun h => hy h.1]
    exact congrArg (·[q.toNat]'q.isLt) (Vector.getElem_set_ne z.isLt y.isLt other)
  case pos =>
    subst hy
    simp only [State.copWrite, Vector.getElem_set_self, Vector.getElem_set, BitVec.toNat_inj, true_and, @eq_comm _ r q]

/-! ## What the instructions of a unit run (Machine/Coprocessor.lean) -/

/-- Of the four forms that name their unit, the moves have no delay slot and the branches have one. -/
theorem isBranch_unit (z : Unit4) (rt rd : Reg) (offset : BitVec 16) :
    isBranch (moveFrom z rt rd) = false ∧ isBranch (moveTo z rt rd) = false ∧
    isBranch (branchFalse z offset) = true ∧ isBranch (branchTrue z offset) = true := by
  obtain rfl | rfl | rfl | rfl := unit_cases z
  all_goals exact ⟨rfl, rfl, rfl, rfl⟩

/-- The moves of coprocessors 1 to 3; those of coprocessor 0 are MFC0 and MTC0, with rules of their own. -/
theorem exec_move {z : Unit4} (hz : z ≠ 0) (rt rd : Reg) (s : State) :
    exec (moveFrom z rt rd) s = moveFromCop (moveFrom z rt rd) z rt rd s ∧
    exec (moveTo z rt rd) s = moveToCop (moveTo z rt rd) z rt rd s := by
  obtain rfl | rfl | rfl | rfl := unit_cases z
  · exact absurd rfl hz
  all_goals exact ⟨rfl, rfl⟩

/-- A coprocessor branch whose unit is usable, outside a delay slot, goes to its destination if the condition line is as
the branch wants it. -/
theorem transfers_of_branchOnCondition {i : Instr} {z : Unit4} {sense : Bool} {offset : BitVec 16} {s : State}
    {dest : Word} (h : exec i s = branchOnCondition i z sense offset s) (hb : isBranch i = true)
    (usable : s.copUsable z = true) (hd : s.ds = false)
    (hdest : dest = BitVec.ofInt 32 (s.pc.toNat + 4 + 4 * offset.toInt)) :
    Transfers i (if s.condition z = sense then some dest else none) none s := by
  rw [branchOnCondition_usable usable, beq_eq_decide] at h
  exact transfers_of_branchIf h hb hd hdest

/-! ## Coprocessors as the spec states them (45_coprocessor.md R262 to R265) -/

/-- Settles O52: the line that decides is the model's condition, and each branch is a conditional branch on it. -/
theorem branchOnConditionResult : Obligations.BranchOnConditionResult := by
  intro enc z offset s dest line
  obtain ⟨-, -, encodeFalse, encodeTrue⟩ := encode_unit enc z 0 0 offset
  obtain ⟨-, -, branchesFalse, branchesTrue⟩ := isBranch_unit z 0 0 offset
  rw [← State.condition_eq]
  refine ⟨decodeWord_of_encode_eq encodeFalse, decodeWord_of_encode_eq encodeTrue, ?_⟩
  rintro hd usable hdest rfl
  exact ⟨transfers_of_branchOnCondition (exec_branchFalse ..) branchesFalse usable hd hdest,
    transfers_of_branchOnCondition (exec_branchTrue ..) branchesTrue usable hd hdest⟩

/-- Settles O57: with the unit usable, MFCz completes with what `State.copRead` finds pending, MTCz with
`State.copWrite`. -/
theorem coprocessorMoveResult : Obligations.CoprocessorMoveResult := by
  intro enc z rt rd s hz
  obtain ⟨encodeFrom, encodeTo, -, -⟩ := encode_unit enc z rt rd 0
  obtain ⟨plainFrom, plainTo, -, -⟩ := isBranch_unit z rt rd 0
  obtain ⟨execFrom, execTo⟩ := exec_move hz rt rd s
  rw [zero11_eq, zero11_eq]
  refine ⟨decodeWord_of_encode_eq encodeFrom, decodeWord_of_encode_eq encodeTo, fun usable => ⟨?moveFrom, ?moveTo⟩⟩
  case moveFrom =>
    have runs := execFrom.trans (guarded_none (unusable_none usable))
    exact loadsReg_of_complete runs plainFrom
  case moveTo =>
    have runs := execTo.trans (guarded_none (unusable_none usable))
    exact ⟨_, runs, fun y q => State.cpr_copWrite s z y rd q (s.rt rt), rfl, fun _ => rfl, ⟨rfl, rfl, rfl, rfl⟩, rfl,
      ⟨rfl, rfl, rfl, rfl, rfl, rfl, rfl, rfl, rfl⟩, ⟨rfl, rfl⟩, .of_mem rfl rfl rfl rfl, ⟨rfl, rfl, rfl, rfl, rfl⟩,
      rfl, rfl, plainTo⟩

end Sys2Proof.Machine
end

section
/-! Coprocessor 0 (O56, O58): what MTC0 and RFE leave, where they may execute (spec/46_coprocessor0.md). -/

namespace Sys2Proof.Machine

/-! ## Moves to coprocessor 0 (46_coprocessor0.md R278) -/

/-- The kinds of coprocessor 0 register, each with what it holds under the number `r`. -/
def State.cp0Cells (s : State) (r : Reg) : List (Cp0Register × Word) :=
  [(.status, s.sr), (.cause, s.cause), (.epc, s.epc), (.badVAddr, s.badVAddr), (.prId, s.prId), (.bpc, s.bpc),
    (.bda, s.bda), (.dcic, s.dcic), (.other, s.cp0Other[r.toNat]'r.isLt)]

/-- What is recorded as the value before an MTC0 is the one of the register that it names. -/
theorem State.cp0Cell_mem_cp0Cells (s : State) (r : Reg) : (s.cp0Register r, s.cp0Cell r) ∈ s.cp0Cells r := by
  unfold State.cp0Cell
  cases s.cp0Register r <;> simp [State.cp0Cells]

/-- The state that MTC0 leaves where it may execute. -/
def State.movedToCp0 (s : State) (rt rd : Reg) : State :=
  ((s.cp0Write rd (s.rt rt)).completed (.mtc0 rt rd) none).afterMtc0 rd (s.cp0Cell rd)

theorem exec_mtc0 (rt rd : Reg) (s : State) :
    exec (.mtc0 rt rd) s = guarded (unprivileged s) (fun s => .next (s.movedToCp0 rt rd)) s := rfl

/-- Outside coprocessor 0, MTC0 changes nothing but pc, npc and the histories. -/
theorem State.movedToCp0_frame (s : State) (rt rd : Reg) :
    SameRegs s (s.movedToCp0 rt rd) ∧ SameHiLo s (s.movedToCp0 rt rd) ∧ (s.movedToCp0 rt rd).mdFresh = s.mdFresh ∧
      SameCops s (s.movedToCp0 rt rd) ∧ SamePending s (s.movedToCp0 rt rd) ∧ SameMemory s (s.movedToCp0 rt rd) ∧
      SameInputs s (s.movedToCp0 rt rd) ∧ GoesOn s (s.movedToCp0 rt rd) := by
  unfold State.movedToCp0
  refine ⟨State.reg_congr ?regs, ?hiLo, ?fresh, ?cops, ?pending, .of_mem ?image ?mem ?tick ?stored, ?inputs, ?goesOn⟩
  case hiLo => simp [SameHiLo]
  case cops => simp [SameCops]
  case pending => simp [SamePending]
  case inputs => simp [SameInputs]
  case goesOn => simp [GoesOn, isBranch, instrInfo]
  all_goals simp

/-- Settles O56: the registers of coprocessor 0 one by one are the lemmas `State.cp0Write_sr` to `State.cp0Write_cause`,
the value before is `State.cp0Cell`, and the rest is `State.movedToCp0_frame`. -/
theorem moveToCp0Result : Obligations.MoveToCp0Result := by
  intro enc rt rd s named
  rw [zero11_eq]
  refine ⟨decodeWord_of_encode_eq rfl, ?_⟩
  rintro privileged rfl
  have runs := (exec_mtc0 rt rd s).trans (guarded_none (unprivileged_none privileged))
  exact ⟨_, s.cp0Cell rd, runs, State.cp0Write_sr .., State.cp0Write_epc .., State.cp0Write_cause s rd (s.rt rt),
    State.cp0Write_badVAddr .., State.cp0Write_prId .., State.cp0Write_bpc .., State.cp0Write_bda ..,
    State.cp0Write_dcic .., fun q => State.cp0Write_cp0Other s rd q (s.rt rt), rfl, State.cp0Cell_mem_cp0Cells s rd,
    State.movedToCp0_frame s rt rd⟩

/-! ## Return from an exception (46_coprocessor0.md R280) -/

theorem exec_rfe (s : State) : exec .rfe s =
    guarded (unprivileged s) (fun s => if s.lastMemory then .refused .memoryBeforeRfe else complete .rfe s.popMode) s :=
  rfl

theorem exec_rfe_privileged {s : State} (h : s.userMode = false ∨ s.copUsable 0 = true) :
    exec .rfe s = if s.lastMemory then .refused .memoryBeforeRfe else complete .rfe s.popMode :=
  (exec_rfe s).trans (guarded_none (unprivileged_none h))

/-- Settles O58: RFE completes with `State.popMode`, which changes Status only, to `State.poppedStatus`. -/
theorem restoreFromExceptionResult : Obligations.RestoreFromExceptionResult := by
  intro enc s
  refine ⟨decodeWord_of_encode_eq rfl, fun privileged => ⟨fun afterMemory => ?refused, fun settled => ?completes⟩⟩
  case refused => rw [exec_rfe_privileged privileged, if_pos afterMemory]
  case completes =>
    have runs : exec .rfe s = complete .rfe s.popMode := by
      rw [exec_rfe_privileged privileged, settled, if_neg Bool.false_ne_true]
    have popped (k : Nat) (hk : k < 4) : s.poppedStatus.getLsbD k = s.statusBit (k + 2) := by
      rw [State.poppedStatus_getLsbD, if_pos hk]
    have kept (k : Nat) (hk : 4 ≤ k) : s.poppedStatus.getLsbD k = s.sr.getLsbD k := by
      rw [State.poppedStatus_getLsbD, if_neg (Nat.not_lt.mpr hk)]
    exact ⟨_, runs, popped, fun noMtc0 k => State.statusBit_eq s k (.inl noMtc0), kept, rfl, rfl, rfl, rfl, rfl, rfl, rfl,
      rfl, fun _ => rfl, ⟨rfl, rfl, rfl, rfl⟩, rfl, ⟨rfl, rfl⟩, ⟨rfl, rfl⟩, .of_mem rfl rfl rfl rfl,
      ⟨rfl, rfl, rfl, rfl, rfl⟩, rfl, rfl, rfl⟩

end Sys2Proof.Machine
end

section
/-! HI and LO moved (O35, O36), and the spacing rule over every writer of them (O37) (spec/47_special.md,
70_reset_and_hazards.md R365). -/

namespace Sys2Proof.Machine

/-! ## What the four moves of HI and LO run (Machine/Special.lean) -/

section
variable (r : Reg) (s : State)

theorem exec_mfhi : exec (.mfhi r) s = completeWith (.mfhi r) r s.readHi s.staleMd := rfl

theorem exec_mflo : exec (.mflo r) s = completeWith (.mflo r) r s.readLo s.staleMd := rfl

theorem exec_mthi : exec (.mthi r) s =
    writingHiLo true false (fun u => complete (.mthi r) (u.moveToHi (u.rs r))) s := rfl

theorem exec_mtlo : exec (.mtlo r) s =
    writingHiLo false true (fun u => complete (.mtlo r) (u.moveToLo (u.rs r))) s := rfl

end

/-! ## Moves from HI and LO (47_special.md R293, R296) -/

/-- An instruction that completes with a register written and md_fresh cleared, and is no jump or branch. -/
theorem writes_staleMd_of_completeWith {i : Instr} {d : Reg} {v : Word} {s : State}
    (h : exec i s = completeWith i d v s.staleMd) (hb : isBranch i = false) :
    ∃ t, exec i s = .next t ∧ t.reg d = (if d = 0 then 0 else v) ∧ t.mdFresh = false ∧ SameRegsExcept d s t ∧
      SameHiLo s t ∧ SameCp0 s t ∧ SameCops s t ∧ SamePending s t ∧ SameMemory s t ∧ SameInputs s t ∧ GoesOn s t := by
  refine ⟨_, h, ?written, rfl, fun q hq => ?others, ⟨rfl, rfl, rfl, rfl⟩,
    ⟨rfl, rfl, rfl, rfl, rfl, rfl, rfl, rfl, rfl⟩, ⟨rfl, rfl⟩, ⟨rfl, rfl⟩, .of_mem rfl rfl rfl rfl,
    ⟨rfl, rfl, rfl, rfl, rfl⟩, rfl, rfl, hb⟩
  case written => exact (State.reg_setReg s.staleMd d d v).trans (if_pos rfl)
  case others => exact (State.reg_setReg s.staleMd d q v).trans (if_neg hq)

/-- Settles O35: the value stated is what `State.readHi` or `State.readLo` finds. -/
theorem moveFromHiLoResult : Obligations.MoveFromHiLoResult := by
  intro enc rd s
  rw [zero10_high_eq, zero10_high_eq]
  refine ⟨decodeOfEncode enc (.mfhi rd), decodeOfEncode enc (.mflo rd), fun i v move => ?_⟩
  rcases move with ⟨rfl, rfl⟩ | ⟨rfl, rfl⟩
  · exact writes_staleMd_of_completeWith (exec_mfhi rd s) rfl
  · exact writes_staleMd_of_completeWith (exec_mflo rd s) rfl

/-! ## Moves to HI and LO (47_special.md R294, R295) -/

section
variable {rs : Reg} {s : State} {v : Word}

theorem State.hiLoHazard_marks {u : State} {writesHi writesLo : Bool} (h : s.hiLoHazard writesHi writesLo = some u) :
    SameHiLo s u ∧ u.mdFresh = s.mdFresh := by
  obtain ⟨⟨_, _, rfl⟩, -, -⟩ := State.hiLoHazard_some h
  exact ⟨⟨rfl, rfl, rfl, rfl⟩, rfl⟩

/-- MTHI defines HI; md_fresh decides whether LO is left. -/
theorem moveToHi_completes (unused : ¬ ConsumedRead true s) (hv : ReadsOperand true false .staleRs rs v s) :
    ∃ t, exec (.mthi rs) s = .next t ∧ t.hi = v ∧ t.hiDefined = true ∧ t.mdFresh = false ∧
      (s.mdFresh = true → t.loDefined = false) ∧ (s.mdFresh = false → t.lo = s.lo ∧ t.loDefined = s.loDefined) ∧
      HiLoWriterFrame true false s t := by
  have passes : ¬ ((true = true ∧ ConsumedRead true s) ∨ (false = true ∧ ConsumedRead false s)) := by simpa using unused
  obtain ⟨u, hazard, runs⟩ := writingHiLo_runs (fun u => complete (.mthi rs) (u.moveToHi (u.rs rs))) passes
  obtain ⟨⟨-, lo, -, loDefined⟩, fresh⟩ := State.hiLoHazard_marks hazard
  refine ⟨_, (exec_mthi rs s).trans runs, State.operand_afterHazard hazard hv, rfl, rfl, fun h => ?lost, fun h => ?kept,
    hiLoWriterFrame_completed hazard rfl ..⟩
  case lost => simp [fresh, h]
  case kept => simp [fresh, h, lo, loDefined]

/-- MTLO defines LO; md_fresh decides whether HI is left. -/
theorem moveToLo_completes (unused : ¬ ConsumedRead false s) (hv : ReadsOperand false true .staleRs rs v s) :
    ∃ t, exec (.mtlo rs) s = .next t ∧ t.lo = v ∧ t.loDefined = true ∧ t.mdFresh = false ∧
      (s.mdFresh = true → t.hiDefined = false) ∧ (s.mdFresh = false → t.hi = s.hi ∧ t.hiDefined = s.hiDefined) ∧
      HiLoWriterFrame false true s t := by
  have passes : ¬ ((false = true ∧ ConsumedRead true s) ∨ (true = true ∧ ConsumedRead false s)) := by simpa using unused
  obtain ⟨u, hazard, runs⟩ := writingHiLo_runs (fun u => complete (.mtlo rs) (u.moveToLo (u.rs rs))) passes
  obtain ⟨⟨hi, -, hiDefined, -⟩, fresh⟩ := State.hiLoHazard_marks hazard
  refine ⟨_, (exec_mtlo rs s).trans runs, State.operand_afterHazard hazard hv, rfl, rfl, fun h => ?lost, fun h => ?kept,
    hiLoWriterFrame_completed hazard rfl ..⟩
  case lost => simp [fresh, h]
  case kept => simp [fresh, h, hi, hiDefined]

end

/-- Settles O36: what each move does behind the spacing rule is `moveToHi_completes` and `moveToLo_completes`. -/
theorem moveToHiLoResult : Obligations.MoveToHiLoResult := by
  intro enc rs s v
  rw [zero15_eq, zero15_eq]
  exact ⟨decodeOfEncode enc (.mthi rs), decodeOfEncode enc (.mtlo rs), moveToHi_completes, moveToLo_completes⟩

/-! ## The spacing rule over every writer of HI or LO (70_reset_and_hazards.md R365) -/

/-- Behind the spacing rule for what it writes, `i` completes and leaves the general registers alone. -/
def SpacedWriter (i : Instr) (writesHi writesLo : Bool) : Prop :=
  ∃ effect : State → Answer, (∀ s, exec i s = writingHiLo writesHi writesLo effect s) ∧
    ∀ u, ∃ t, effect u = .next t ∧ t.gpr = u.gpr

section
variable (rs rt : Reg)

theorem spacedWriter_mult : SpacedWriter (.mult rs rt) true true := ⟨_, fun _ => rfl, fun _ => ⟨_, rfl, rfl⟩⟩

theorem spacedWriter_multu : SpacedWriter (.multu rs rt) true true := ⟨_, fun _ => rfl, fun _ => ⟨_, rfl, rfl⟩⟩

theorem spacedWriter_div : SpacedWriter (.div rs rt) true true := by
  refine ⟨_, fun _ => rfl, fun u => ?_⟩
  dsimp only
  split_ifs
  all_goals exact ⟨_, rfl, rfl⟩

theorem spacedWriter_divu : SpacedWriter (.divu rs rt) true true := by
  refine ⟨_, fun _ => rfl, fun u => ?_⟩
  dsimp only
  split_ifs
  all_goals exact ⟨_, rfl, rfl⟩

theorem spacedWriter_mthi : SpacedWriter (.mthi rs) true false := ⟨_, exec_mthi rs, fun _ => ⟨_, rfl, rfl⟩⟩

theorem spacedWriter_mtlo : SpacedWriter (.mtlo rs) false true := ⟨_, exec_mtlo rs, fun _ => ⟨_, rfl, rfl⟩⟩

end

/-- Settles O37: the six writers are `SpacedWriter`s, so the rule (`writingHiLo_refused`, `State.hiLoHazard_some`)
decides for all of them. -/
theorem hiLoSpacing : Obligations.HiLoSpacing := by
  rintro i writesHi writesLo s ⟨rs, rt, writer⟩
  have spaced : SpacedWriter i writesHi writesLo := by
    rcases writer with ⟨rfl | rfl | rfl | rfl, rfl, rfl⟩ | ⟨rfl, rfl, rfl⟩ | ⟨rfl, rfl, rfl⟩
    · exact spacedWriter_mult rs rt
    · exact spacedWriter_multu rs rt
    · exact spacedWriter_div rs rt
    · exact spacedWriter_divu rs rt
    · exact spacedWriter_mthi rs
    · exact spacedWriter_mtlo rs
  obtain ⟨effect, runs, completes⟩ := spaced
  refine ⟨fun used => (runs s).trans (writingHiLo_refused effect used), fun hiUnused loUnused => ?_⟩
  obtain ⟨u, hazard, behind⟩ := writingHiLo_runs effect (not_or.mpr ⟨hiUnused, loUnused⟩)
  obtain ⟨t, ht, gpr⟩ := completes u
  obtain ⟨-, -, free⟩ := State.hiLoHazard_some hazard
  exact ⟨t, (runs s).trans (behind.trans ht), fun q hq recent => (State.reg_congr gpr q).trans (free q hq recent)⟩

end Sys2Proof.Machine
end

section
/-! Exceptions: SYSCALL and BREAK (O60), unusable coprocessors (O54), RFE after a trap entry (O59), the interrupt
decision (O8), and what user mode cannot change (O14) (spec/60_exceptions.md). -/

namespace Sys2Proof.Machine

/-! ## SYSCALL and BREAK (47_special.md R291, R292) -/

section
variable (code : BitVec 20) (s : State)

theorem exec_syscall : exec (.syscall code) s = raise [] .systemCall s := rfl

theorem exec_brk : exec (.brk code) s = raise [] .breakpoint s := rfl

end

/-- Settles O60: both raise their exception whatever the code field holds, and what that comes to under either TRAP.MODE
is `raise_takes`. -/
theorem systemCallAndBreakpoint : Obligations.SystemCallAndBreakpoint := by
  intro enc code s
  obtain ⟨callVectored, callTerminal⟩ : Takes (exec (.syscall code) s) .systemCall s := raise_takes [] _ s
  obtain ⟨breakVectored, breakTerminal⟩ : Takes (exec (.brk code) s) .breakpoint s := raise_takes [] _ s
  exact ⟨decodeOfEncode enc (.syscall code), decodeOfEncode enc (.brk code),
    fun vectored => ⟨callVectored vectored, breakVectored vectored⟩,
    fun terminal => ⟨callTerminal terminal, breakTerminal terminal⟩⟩

/-! ## Unusable coprocessors (60_exceptions.md R331) -/

/-- An instruction behind a usability check that fails. -/
theorem takes_of_guarded {i : Instr} {s : State} {check : Option Exc} {effect : State → Answer} {e : Exc}
    (h : exec i s = guarded check effect s) (hc : check = some e) : Takes (exec i s) e s :=
  h ▸ guarded_takes hc

/-- Settles O54: every one of these instructions is behind its check, `unusable` or `unprivileged`. -/
theorem unusableCoprocessorTraps : Obligations.UnusableCoprocessorTraps := by
  intro z rt rd offset s
  refine ⟨fun noUnit => ?unusable, fun user noUnit => ?unprivileged⟩
  case unusable =>
    have check := unusable_some noUnit
    refine ⟨takes_of_guarded (exec_branchFalse z offset s) check, takes_of_guarded (exec_branchTrue z offset s) check,
      fun hz => ?_⟩
    obtain ⟨execFrom, execTo⟩ := exec_move hz rt rd s
    exact ⟨takes_of_guarded execFrom check, takes_of_guarded execTo check⟩
  case unprivileged =>
    have check := unprivileged_some user noUnit
    exact ⟨takes_of_guarded (exec_mfc0 rt rd s) check, takes_of_guarded (exec_mtc0 rt rd s) check,
      takes_of_guarded (exec_rfe s) check⟩

/-! ## The mode and the usable units, with no MTC0 just before (10_state.md R35, R36) -/

theorem State.userMode_of_no_mtc0 {s : State} (h : s.mtc0 = none) :
    s.userMode = s.sr.getLsbD (if s.cfg.trap.status.kernelUserUpper then 1 else 0) :=
  State.statusBit_eq s _ (.inl h)

theorem State.copUsable_of_no_mtc0 {s : State} (h : s.mtc0 = none) (z : Unit4) :
    s.copUsable z = s.sr.getLsbD (s.cfg.trap.status.cu + z.toNat) :=
  State.statusBit_eq s _ (.inl h)

/-! ## RFE after a trap entry (60_exceptions.md R323; 46_coprocessor0.md R280) -/

/-- A trap entry clears both bits of the current pair, so the mode is kernel mode wherever TRAP puts KUc in it. -/
theorem TrapEntered.kernelMode {e : Exc} {s t u : State} (h : TrapEntered e s t) (hsr : u.sr = t.sr)
    (hm : u.mtc0 = none) : u.userMode = false := by
  obtain ⟨bit0, bit1⟩ := h.current
  rw [State.userMode_of_no_mtc0 hm, hsr]
  split_ifs
  · exact bit1
  · exact bit0

/-- Settles O59: RFE executes, since the entry has set kernel mode, and its pop (O58) is the inverse of the entry's
push. -/
theorem restoreUndoesTrapEntry : Obligations.RestoreUndoesTrapEntry := by
  intro e s t u entered hsr noMtc0 noMemory
  obtain ⟨-, rfe⟩ := restoreFromExceptionResult .source u
  obtain ⟨-, completes⟩ := rfe (.inl (entered.kernelMode hsr noMtc0))
  obtain ⟨w, hw, popped, settled, kept, -⟩ := completes noMemory
  refine ⟨w, hw, fun k hk => ?pairs, fun k hk => ?others⟩
  case pairs => rw [popped k hk, settled noMtc0, hsr, entered.pushed k hk]
  case others => rw [kept k (by omega), hsr, entered.otherStatus k hk]

/-! ## The interrupt decision (60_exceptions.md R310 to R312; 70_reset_and_hazards.md R373) -/

/-- Cause as the interrupt decision sees it: an MTC0 just before is not yet in effect. -/
def State.interruptCause (s : State) : Word :=
  match s.mtc0 with
  | some (r, old) => if s.cp0Register r = .cause then old else s.cause
  | none => s.cause

/-- The two lower lines are IP[1:0] of Cause, the upper six the hardware lines. -/
theorem State.interruptLines_getLsbD (s : State) (k : Nat) :
    s.interruptLines.getLsbD k =
      if k < 2 then s.interruptCause.getLsbD (s.cfg.trap.cause.ip + k) else s.irq.getLsbD (k - 2) := by
  change (s.irq ++ s.interruptCause.extractLsb' s.cfg.trap.cause.ip 2).getLsbD k = _
  rw [BitVec.getLsbD_append, BitVec.getLsbD_extractLsb']
  split_ifs with h <;> simp [h]

theorem State.interruptStatus_beginStep (s : State) : s.beginStep.interruptStatus = s.interruptStatus := by
  unfold State.beginStep
  split <;> rfl

theorem State.interruptCause_beginStep (s : State) : s.beginStep.interruptCause = s.interruptCause := by
  unfold State.beginStep
  split <;> rfl

theorem bitVec_ne_zero_iff {n : Nat} (x : BitVec n) : x ≠ 0 ↔ ∃ k < n, x.getLsbD k = true := by
  simp [BitVec.eq_of_getLsbD_eq_iff]

/-- An interrupt is to be taken exactly when IEc is set and some line is unmasked and pending. -/
theorem State.interruptPending_iff (s : State) : s.interruptPending = true ↔
    s.interruptStatus.getLsbD (enablePlace s.cfg.trap.status) = true ∧
      ∃ k < 8, s.interruptStatus.getLsbD (s.cfg.trap.status.im + k) = true ∧
        (if k < 2 then s.interruptCause.getLsbD (s.cfg.trap.cause.ip + k) else s.irq.getLsbD (k - 2)) = true := by
  have line (k : Nat) (hk : k < 8) :
      (s.interruptLines &&& s.interruptStatus.extractLsb' s.cfg.trap.status.im 8).getLsbD k = true ↔
        s.interruptStatus.getLsbD (s.cfg.trap.status.im + k) = true ∧ s.interruptLines.getLsbD k = true := by
    rw [BitVec.getLsbD_and, BitVec.getLsbD_extractLsb', Bool.and_eq_true, and_comm]
    simp [hk]
  simp only [← State.interruptLines_getLsbD]
  rw [State.interruptPending, Bool.and_eq_true, bne_iff_ne, bitVec_ne_zero_iff]
  exact and_congr_right fun _ => exists_congr fun k => and_congr_right (line k)

theorem step_of_interrupt {s : State} (h : s.beginStep.interruptPending = true) :
    step s = takeException .interrupt s.beginStep :=
  if_pos h

/-- Settles O8: what is stated as Status and Cause are `State.interruptStatus` and `State.interruptCause`, and the
decision on them is `State.interruptPending_iff`; trap entry keeps what the beginning of a step has kept. -/
theorem interruptTaken : Obligations.InterruptTaken := by
  intro s status cause hstatus hcause
  have statusSeen : status = s.beginStep.interruptStatus := by
    rw [State.interruptStatus_beginStep]
    exact hstatus
  have causeSeen : cause = s.beginStep.interruptCause := by
    rw [State.interruptCause_beginStep]
    exact hcause
  refine ⟨?decision, fun pending => ⟨?taken, fun t ht => ?kept⟩⟩
  case decision =>
    rw [State.interruptPending_iff, ← statusSeen, ← causeSeen, State.beginStep_cfg]
    rfl
  case taken =>
    rw [step_of_interrupt pending]
    exact takeException_takes _ _
  case kept =>
    rw [step_of_interrupt pending] at ht
    obtain rfl := takeException_next ht
    simp

/-! ## What user mode cannot change (60_exceptions.md R332; 20_memory.md R77) -/

theorem SameCp0.trans {s t u : State} (h : SameCp0 s t) (h' : SameCp0 t u) : SameCp0 s u := by
  simp_all [SameCp0]

theorem sameCp0_beginStep (s : State) : SameCp0 s s.beginStep := by
  simp [SameCp0]

/-- A physical address lies in its word where the virtual address does. -/
theorem physical_toNat_mod_four (segments : Segments) (a : Word) : (physical segments a).toNat % 4 = a.toNat % 4 := by
  by_cases mapped : InSegment segments.kseg0 a ∨ InSegment segments.kseg1 a
  · rw [physical_mapped mapped]
    omega
  · rw [physical_unmapped mapped]

/-- A store in user mode goes to the lower half of the address space, and the mapping leaves its word there. -/
theorem Effect.read_upper {i : Instr} {s u : State} (h : Effect i s u) (user : s.userMode = true) {a : Nat}
    (ha : 2 ^ 31 ≤ a) : u.mem.read a = s.mem.read a := by
  rcases h.memory with ⟨hmem, -⟩ | ⟨-, b, bs, ⟨-, allowed, -⟩, fits, hmem, -⟩
  · rw [hmem]
  · rw [hmem]
    refine writeBytes_read_other _ _ _ _ _ (.inl fun k hk => ?_)
    have low := physical_low s.cfg.segments b (Nat.lt_of_not_le fun hb => allowed ⟨user, hb⟩)
    have inWord := physical_toNat_mod_four s.cfg.segments b
    rw [toNat_add_ofNat]
    omega

theorem Effect.sameCp0 {i : Instr} {s u : State} (h : Effect i s u) (user : s.userMode = true)
    (noCu0 : s.copUsable 0 = false) : SameCp0 s u := by
  rcases h.cp0 with same | kernel | cu0
  · exact same
  · exact absurd (kernel.symm.trans user) Bool.false_ne_true
  · exact absurd (noCu0.symm.trans cu0) Bool.false_ne_true

/-- What an instruction does in user mode without Cu0: it changes no coprocessor 0 register or is a trap entry, and it
changes no byte of the upper half. -/
theorem exec_confined {i : Instr} {s t : State} (h : exec i s = .next t) (user : s.userMode = true)
    (noCu0 : s.copUsable 0 = false) :
    (SameCp0 s t ∨ ∃ e, TrapEntered e s t) ∧ ∀ a, 2 ^ 31 ≤ a → t.mem.read a = s.mem.read a := by
  rcases exec_cases h with ⟨e, rfl⟩ | ⟨u, target, record, hu, -, -, rfl⟩
  · exact ⟨.inr ⟨e, trapEntered_of_abandoned s _ e⟩, fun _ _ => rfl⟩
  · exact ⟨.inl (hu.sameCp0 user noCu0), fun _ => hu.read_upper user⟩

/-- Settles O14, by the ways in which a step answers a next state: it is a trap entry, or it runs an instruction, which
is `exec_confined`. -/
theorem userModeIsConfined : Obligations.UserModeIsConfined := by
  intro s t hku hcu noMtc0 h
  obtain ⟨hmem, -, -, hcfg, -, -, -, -, -, -, hmtc0, -, hcp0, -⟩ := s.executing_kept
  have hsr : s.executing.sr = s.sr := hcp0.1
  have user : s.executing.userMode = true := by
    rw [State.userMode_of_no_mtc0 (hmtc0.trans noMtc0), hsr, hcfg, hku]
  have noCu0 : s.executing.copUsable 0 = false := by
    rw [State.copUsable_of_no_mtc0 (hmtc0.trans noMtc0), hsr, hcfg]
    exact hcu
  suffices confined : (SameCp0 s t ∨ TrapEntered .interrupt s.beginStep t ∨ ∃ e, TrapEntered e s.executing t) ∧
      ∀ a, 2 ^ 31 ≤ a → t.mem.read a = s.mem.read a from
    ⟨confined.1, sameCp0_beginStep s, hcp0, confined.2⟩
  rcases step_cases h with ⟨-, rfl⟩ | ⟨-, ⟨e, -, rfl⟩ | ⟨e, rfl⟩ | ⟨i, hi⟩⟩
  · exact ⟨.inr (.inl (State.trapEntry_entered _ _)), fun _ _ => by simp⟩
  · exact ⟨.inr (.inr ⟨e, State.trapEntry_entered _ e⟩), fun _ _ => by simp [hmem]⟩
  · exact ⟨.inr (.inr ⟨e, trapEntered_of_abandoned _ _ e⟩), fun _ _ => by simp [hmem]⟩
  · obtain ⟨cp0, upper⟩ := exec_confined hi user noCu0
    exact ⟨cp0.imp hcp0.trans .inr, fun a ha => (upper a ha).trans (by rw [hmem])⟩

end Sys2Proof.Machine
end
